-- ==== Sys2Proof/Word.lean ====
section
/-! DEFINITION. The word types of the WSFE: every buffer holds 8-bit bytes (`00_scope.md` R10), a command word is
one byte (R83), and SHA-1 works on 32-bit words (R103). -/

namespace Sys2Proof

/-- An 8-bit unsigned value (R10): one byte of a buffer, or the command word (R83). -/
abbrev Byte := BitVec 8

/-- A u32 word of the SHA-1 rules (R103 to R107). -/
abbrev Word32 := BitVec 32

end Sys2Proof
end

