-- ==== Sys2Proof/Syntax.lean ====
section
/-! DEFINITION. The syntax of the WSFE: its six commands (`30_encoding.md` R84), the names of its registers
(`10_state.md` R20) and address spaces (`20_memory.md` R50), the host's accesses (R51) and the host-program forms
(R87, R88). -/

namespace Sys2Proof

/-- The commands of R84, one constructor per row of `spec/opcode_table.json`. A command takes no operand fields: it
reads its operands from the state (R86). -/
inductive Instr where
  /-- DERIVE_ACCEPT, 0x01 (R112). -/
  | deriveAccept
  /-- DECODE_LEN, 0x02 (R137). -/
  | decodeLen
  /-- PARSE_HEADER, 0x03 (R139). -/
  | parseHeader
  /-- UNMASK, 0x04 (R162). -/
  | unmask
  /-- INGEST, 0x05 (R181). -/
  | ingest
  /-- CLEAR_ACC, 0x06 (R184). -/
  | clearAcc
deriving DecidableEq, Repr

/-- The sixteen registers of R20, in index order. -/
inductive Reg where
  | cmd | err | status | fbLen | hdrB0 | hdrB1 | hdrFin | hdrLtier | hdrPlen | hdrMoff | hdrPoff | hdrMkey
  | outLen | accLen | keyLen | keyPresent
deriving DecidableEq, Repr

/-- The six address spaces of R50. -/
inductive Space where
  | reg | fb | out | acc | key | tok
deriving DecidableEq, Repr

/-- One host access (R51): it "names a space, an index and, for a write, a value". A read of a register or of one
byte, a write of a register or of one byte (R52). -/
inductive HostAccess where
  | write (space : Space) (index value : Nat)
  | read (space : Space) (index : Nat)
deriving DecidableEq, Repr

/-- What can reach the block from outside, one event at a time: an access by its host (R8), the reset input (R231),
or an access by a second agent, to which the spec gives no meaning (R64, R241). -/
inductive HostEvent where
  | access (a : HostAccess)
  | reset
  | secondAgent
deriving DecidableEq, Repr

/-- One line of a host program: the four forms of R87 and the four pseudo-instructions of R88. -/
inductive HostForm where
  /-- `WR <reg>, <value>` -/
  | wr (reg : Reg) (value : Nat)
  /-- `RD <reg>` -/
  | rd (reg : Reg)
  /-- `WRB <space>, <index>, [b0, b1, ...]` -/
  | wrb (space : Space) (index : Nat) (bytes : List Byte)
  /-- `RDB <space>, <index>, <n>` -/
  | rdb (space : Space) (index n : Nat)
  /-- `CMD <mnemonic>` -/
  | cmd (i : Instr)
  /-- `FRAME [b0, ..., b(n-1)]` -/
  | frame (bytes : List Byte)
  /-- `KEY "<text>"`, the text as its ASCII bytes -/
  | key (text : List Byte)
  /-- `NOKEY` -/
  | noKey
deriving DecidableEq, Repr

end Sys2Proof
end

