-- ==== Sys2Proof/Config.lean ====
section
/-! DEFINITION. What an implementation of the WSFE fixes (`00_scope.md` R9) and the free values of the model. A constant
declared `opaque` has no body: no proof can learn its value, so a claim that holds is true whatever it is. -/

namespace Sys2Proof

/-- The implementation parameters of R9 on which rules depend. The model carries them in its state, so that the step
takes them as an argument (log 3). HOST_BUS and RESET_SOURCES have no field: no rule depends on them (R51, R231). -/
structure Params where
  /-- FB_CAP, the capacity of FB and of OUT in bytes; at least 14 (R9, D7). -/
  fbCap  : Nat
  /-- ACC_CAP, the capacity of ACC in bytes (R9, D7). -/
  accCap : Nat
  /-- KEY_CAP, the capacity of KEY in bytes; at least 24 (R9, D7). -/
  keyCap : Nat
deriving DecidableEq, Repr

/-- The constraints R9 puts on the parameters. -/
abbrev Params.ok (p : Params) : Prop := 14 ≤ p.fbCap ∧ 24 ≤ p.keyCap

/-- LW, the width of FB_LEN and OUT_LEN: `ceil(log2(FB_CAP+1))` (R9). -/
def Params.lw (p : Params) : Nat := Nat.clog 2 (p.fbCap + 1)

/-- AW, the width of ACC_LEN: `ceil(log2(ACC_CAP+1))` (R9). -/
def Params.aw (p : Params) : Nat := Nat.clog 2 (p.accCap + 1)

/-- KW, the width of KEY_LEN: `ceil(log2(KEY_CAP+1))` (R9). -/
def Params.kw (p : Params) : Nat := Nat.clog 2 (p.keyCap + 1)

namespace Config

/-- How far FB_CAP exceeds its least value 14: not fixed by the spec (R9). -/
opaque fbCapBeyond14 : Nat

/-- ACC_CAP: not fixed by the spec (R9). -/
opaque accCap : Nat

/-- How far KEY_CAP exceeds its least value 24: not fixed by the spec (R9). -/
opaque keyCapBeyond24 : Nat

/-- The capacities of the block at reset, whatever they are (R9). DESIGN CHOICE, log 3. -/
def params : Params :=
  { fbCap := fbCapBeyond14 + 14, accCap := accCap, keyCap := keyCapBeyond24 + 24 }

/-- The n-th unspecified byte an instance draws for a host access (R46, R52, R60; S1, S4): arguments instance, n. DESIGN
CHOICE, log 4; that separate instances are told apart by a number is log 18. -/
opaque freeByte : Nat → Nat → Byte

/-- What the host reads at an index of OUT or ACC that has been written but lies at or past the length (R38, R39; S2, S3):
arguments instance, number of host writes so far, space, index. DESIGN CHOICE, log 19. -/
opaque staleByte : Nat → Nat → Space → Nat → Byte

/-- What FB of an instance holds at an index nothing has written since its reset number `epoch`, as a command sees it
(R46, S1): arguments instance, epoch, index. DESIGN CHOICE, log 5 and log 18. -/
opaque unwrittenFb : Nat → Nat → Nat → Byte

/-- The same for KEY (R46, S1): arguments instance, epoch, index. DESIGN CHOICE, log 5 and log 18. -/
opaque unwrittenKey : Nat → Nat → Nat → Byte

/-- The 64-bit length field SHA-1 appends to a message of so many bytes, for a length in bits that does not fit 64
bits: R102 states no value there. DESIGN CHOICE, log 15. -/
opaque longMessageField : Nat → BitVec 64

end Config

end Sys2Proof
end

