-- ==== Sys2Proof/Machine/Spaces.lean ====
section
/-! DEFINITION. The register numbers and widths of `10_state.md` R20 and the sizes and access rights of the address
spaces of `20_memory.md` R50. -/

namespace Sys2Proof

/-- The index of a register (R20, R61). -/
def Reg.index : Reg → Nat
  | .cmd => 0 | .err => 1 | .status => 2 | .fbLen => 3 | .hdrB0 => 4 | .hdrB1 => 5 | .hdrFin => 6 | .hdrLtier => 7
  | .hdrPlen => 8 | .hdrMoff => 9 | .hdrPoff => 10 | .hdrMkey => 11 | .outLen => 12 | .accLen => 13 | .keyLen => 14
  | .keyPresent => 15

/-- The register an index names; indices of 16 and more are reserved (R36, R61). -/
def Reg.ofIndex : Nat → Option Reg
  | 0 => some .cmd | 1 => some .err | 2 => some .status | 3 => some .fbLen | 4 => some .hdrB0 | 5 => some .hdrB1
  | 6 => some .hdrFin | 7 => some .hdrLtier | 8 => some .hdrPlen | 9 => some .hdrMoff | 10 => some .hdrPoff
  | 11 => some .hdrMkey | 12 => some .outLen | 13 => some .accLen | 14 => some .keyLen | 15 => some .keyPresent
  | _ => none

/-- The width column of R20. -/
def Reg.width (p : Params) : Reg → Nat
  | .cmd => 8 | .err => 4 | .status => 4 | .fbLen => p.lw | .hdrB0 => 8 | .hdrB1 => 8 | .hdrFin => 1 | .hdrLtier => 2
  | .hdrPlen => 64 | .hdrMoff => 4 | .hdrPoff => 4 | .hdrMkey => 32 | .outLen => p.lw | .accLen => p.aw
  | .keyLen => p.kw | .keyPresent => 1

/-- The host-access column of R20: RW, or R. -/
def Reg.hostWritable : Reg → Bool
  | .cmd | .fbLen | .keyLen | .keyPresent => true
  | .err | .status | .hdrB0 | .hdrB1 | .hdrFin | .hdrLtier | .hdrPlen | .hdrMoff | .hdrPoff | .hdrMkey | .outLen
  | .accLen => false

/-- The size column of R50: indices below it exist. -/
def Space.size (p : Params) : Space → Nat
  | .reg => 16
  | .fb => p.fbCap
  | .out => p.fbCap
  | .acc => p.accCap
  | .key => p.keyCap
  | .tok => 28

/-- The buffers the host may write (R50). -/
def Space.hostWritable : Space → Bool
  | .reg | .fb | .key => true
  | .out | .acc | .tok => false

end Sys2Proof
end

