-- ==== Sys2Proof/WellFormed.lean ====
section
/-! DEFINITION. Well-formed syntax. A command has no operands, so every command is well formed (`30_encoding.md` R86);
the checks are on command words (R83), parameters (`Params.ok`, R9), host accesses (R50, R51) and host-program lines
(R87, R88). The step runs ill-formed accesses too, as R36 and R52 say: these predicates only name the ordinary ones. -/

namespace Sys2Proof

/-- A command has no operand fields to be ill formed (R86). -/
def Instr.wf : Instr → Bool
  | .deriveAccept | .decodeLen | .parseHeader | .unmask | .ingest | .clearAcc => true

/-- R83: bits 7:4 are 0 and OP is 0x1 to 0x6. -/
def cmdWordWf (w : Byte) : Bool :=
  w.extractLsb' 4 4 == 0 && 1 ≤ (w.extractLsb' 0 4).toNat && (w.extractLsb' 0 4).toNat ≤ 6

/-- A value the register can be given: it fits the register's width, or the register is one of the two lengths that
are write-any-read-legal (R24, R34, R51). -/
def Reg.valueFits (p : Params) (r : Reg) (v : Nat) : Bool :=
  r == .fbLen || r == .keyLen || v < 2 ^ r.width p

/-- An access that names an existing index (R50, R52) and, for a write, something the host may write (R20, R50) and a
value that fits (R51). -/
def HostAccess.wf (p : Params) : HostAccess → Bool
  | .read sp i => i < sp.size p
  | .write .reg i v => match Reg.ofIndex i with
    | some r => r.hostWritable && r.valueFits p v
    | none => false
  | .write sp i v => sp.hostWritable && i < sp.size p && v < 256

/-- A host-program line whose accesses are all well formed; the text of `KEY` is ASCII (R87, R88). -/
def HostForm.wf (p : Params) : HostForm → Bool
  | .wr r v => r.hostWritable && r.valueFits p v
  | .rd _ => true
  | .wrb sp i bs => sp != .reg && sp.hostWritable && i + bs.length ≤ sp.size p
  | .rdb sp i n => sp != .reg && i + n ≤ sp.size p
  | .cmd i => i.wf
  | .frame bs => bs.length ≤ p.fbCap
  | .key t => t.length ≤ p.keyCap && t.all (·.toNat < 128)
  | .noKey => true

end Sys2Proof
end

