-- ==== Sys2Proof/Decode.lean ====
section
/-! DEFINITION. The command word (`30_encoding.md` R83 to R85): the decoder, total on all 256 words and rejecting by
name, and after it the encoder. -/

namespace Sys2Proof

/-- Why a word is no command (R85). -/
inductive CmdReject where
  /-- 0x00 is reserved. -/
  | reservedZero
  /-- 0x07 to 0x0F are reserved. -/
  | reservedOp
  /-- Bits 7:4 are not 0, whatever the low nibble (D30). -/
  | reservedBits
deriving DecidableEq, Repr

/-- R83: the reserved field, bits 7:4. -/
def cmdRsvd (w : Byte) : BitVec 4 := w.extractLsb' 4 4

/-- R83: the field OP, bits 3:0. -/
def cmdOp (w : Byte) : BitVec 4 := w.extractLsb' 0 4

/-- R84, R85: the command a word stands for. -/
def decode (w : Byte) : Except CmdReject Instr :=
  if cmdRsvd w ≠ 0 then .error .reservedBits
  else match (cmdOp w).toNat with
    | 0 => .error .reservedZero
    | 1 => .ok .deriveAccept
    | 2 => .ok .decodeLen
    | 3 => .ok .parseHeader
    | 4 => .ok .unmask
    | 5 => .ok .ingest
    | 6 => .ok .clearAcc
    | _ => .error .reservedOp

/-- R84: the word of a command. -/
def encode : Instr → Byte
  | .deriveAccept => 0x01
  | .decodeLen => 0x02
  | .parseHeader => 0x03
  | .unmask => 0x04
  | .ingest => 0x05
  | .clearAcc => 0x06

/-- The instruction the decoder reads from a word of `nbits` bits numbered as `spec/opcode_table.json` numbers them. An
instruction of this hardware is one byte, so a longer word is none. -/
def decodeTableWord (nbits w : Nat) : Option Instr :=
  if nbits ≤ 8 then (decode (BitVec.ofNat 8 (w % 2 ^ nbits))).toOption else none

end Sys2Proof
end

