-- ==== Sys2Proof/Machine/State.lean ====
section
/-! DEFINITION. The state of one WSFE instance: every register and buffer of `10_state.md` R20 to R41, which is all the
block's state (R44), the parameters of `00_scope.md` R9, and six fields of the model's own: the host's side, and what the
free values depend on. -/

namespace Sys2Proof.Machine

/-- The contents of one buffer: the bytes that something has written, as (index, byte) pairs with strictly rising
indices. An index that is not listed has no specified byte (R46); it reads as no value (log 9). -/
abbrev Memory := List Host.Cell

/-- The masking-key register file MK[0..3] (R31). -/
structure MaskKey where
  k0 : Byte
  k1 : Byte
  k2 : Byte
  k3 : Byte
deriving DecidableEq, Repr

/-- One value a host read returned: the space and index it named and the value (R87: `RD`, `RDB`). -/
structure Observation where
  space : Space
  index : Nat
  value : Nat
deriving DecidableEq, Repr

/-- The error kinds of R18 and R201, without OK. -/
inductive ErrKind where
  | malformedFrame | truncatedPayload | invalidHandshakeKey | illegalCmd | noHeader | accOverflow
deriving DecidableEq, Repr

/-- The flags of STATUS (R23). -/
inductive StatusFlag where
  | lenValid | hdrValid | complete | tokValid
deriving DecidableEq, Repr

/-- One WSFE instance and its host's pending accesses. -/
structure State where
  /-- The implementation parameters (R9); no step changes them. -/
  params     : Params
  /-- CMD, index 0 (R21). -/
  cmd        : Byte
  /-- ERR, index 1 (R22). -/
  err        : BitVec 4
  /-- STATUS, index 2 (R23). -/
  status     : BitVec 4
  /-- FB_LEN, index 3 (R24). A natural number with its bound as an invariant, as R9 allows; OUT_LEN, ACC_LEN and KEY_LEN
  likewise. DESIGN CHOICE, log 17. -/
  fbLen      : Nat
  /-- HDR_B0, index 4 (R25). -/
  hdrB0      : Byte
  /-- HDR_B1, index 5 (R25). -/
  hdrB1      : Byte
  /-- HDR_FIN, index 6 (R26). -/
  hdrFin     : BitVec 1
  /-- HDR_LTIER, index 7 (R27). -/
  hdrLtier   : BitVec 2
  /-- HDR_PLEN, index 8 (R28). -/
  hdrPlen    : BitVec 64
  /-- HDR_MOFF, index 9 (R29). -/
  hdrMoff    : BitVec 4
  /-- HDR_POFF, index 10 (R30). -/
  hdrPoff    : BitVec 4
  /-- MK[0..3], read as HDR_MKEY at index 11 (R31). -/
  mkey       : MaskKey
  /-- OUT_LEN, index 12 (R32). -/
  outLen     : Nat
  /-- ACC_LEN, index 13 (R33). -/
  accLen     : Nat
  /-- KEY_LEN, index 14 (R34). -/
  keyLen     : Nat
  /-- KEY_PRESENT, index 15 (R35). -/
  keyPresent : BitVec 1
  /-- The frame buffer FB (R37). -/
  fb         : Memory
  /-- The unmask output buffer OUT (R38). -/
  out        : Memory
  /-- The accumulator ACC (R39). -/
  acc        : Memory
  /-- The handshake key buffer KEY (R40). -/
  key        : Memory
  /-- The accept-token buffer TOK (R41). -/
  tok        : Memory
  /-- The model's own: the host events still to come, oldest first (R63, R244). DESIGN CHOICE, log 1. -/
  pending    : List HostEvent
  /-- The model's own: what the host's reads returned, newest first (R87). DESIGN CHOICE, log 2. -/
  observed   : List Observation
  /-- The model's own: how many unspecified values have been drawn (R46, R60). DESIGN CHOICE, log 4. -/
  draws      : Nat
  /-- The model's own: how many reset events have happened (R46, S1). DESIGN CHOICE, log 5. -/
  epoch      : Nat
  /-- The model's own: how many host writes, commands among them, have happened. Between two of them an unspecified byte of
  OUT or ACC that has been written reads the same each time (R60). DESIGN CHOICE, log 19. -/
  writes     : Nat
  /-- The model's own: which instance of a system this is. Only the free values depend on it, so that those of separate
  instances are unrelated; it is no identifier of the block's (R212). DESIGN CHOICE, log 18. -/
  inst       : Nat
deriving DecidableEq, Repr

/-- A reason for the block to stop. There is none: errors are codes in ERR (R200), there are no traps (R206), and "the
engine cannot hang" (R208). Log 14. -/
inductive Fault where
deriving DecidableEq, Repr

/-- Why the model gives no step. -/
inductive Refusal where
  /-- An instruction that has no meaning in the model yet, raised by an arm of `exec`. Safe. No arm raises it. -/
  | notModelled (mnemonic : String)
  /-- A second host agent drives the instance (R64, R241): "a model refuses such a launch". Raised by the step on
  such an access. Safe for every platform that keeps R241; a claim says nothing about one that does not. Log 11. -/
  | secondAgent
deriving DecidableEq, Repr

/-- The outcome of a step of this machine. -/
abbrev Result := Host.Outcome State Fault Refusal

/-- A block right after reset (R230) with given parameters: every register at the value of R20's reset column, every
buffer unspecified, that is with nothing listed (R46), and no host event pending. -/
def State.resetWith (p : Params) : State where
  params     := p
  cmd        := 0x00
  err        := 0
  status     := 0
  fbLen      := 0
  hdrB0      := 0x00
  hdrB1      := 0x00
  hdrFin     := 0
  hdrLtier   := 0
  hdrPlen    := 0
  hdrMoff    := 0
  hdrPoff    := 0
  mkey       := ⟨0x00, 0x00, 0x00, 0x00⟩
  outLen     := 0
  accLen     := 0
  keyLen     := 0
  keyPresent := 0
  fb         := []
  out        := []
  acc        := []
  key        := []
  tok        := []
  pending    := []
  observed   := []
  draws      := 0
  epoch      := 0
  writes     := 0
  inst       := 0

/-- The machine right after reset (R230), with the capacities of `Config` (R9). -/
def State.reset : State := State.resetWith Config.params

end Sys2Proof.Machine
end

