-- ==== Sys2Proof/Machine/Ops.lean ====
section
/-! DEFINITION. The named operations over memory and registers: reading and writing buffer bytes (`00_scope.md` R14),
big-endian values (R13), drawing an unspecified value (`10_state.md` R46), and raising an error (`60_exceptions.md`
R200 to R206), which is all the exception taking there is: no vector, no saved state and no return (R206). -/

namespace Sys2Proof.Machine

/-- The byte last written at index `x`, if any (R14; log 9). -/
def Memory.read : Memory → Nat → Option Byte
  | [], _ => none
  | (a, b) :: m, x => if x = a then some b else Memory.read m x

/-- Writing one byte keeps the list in rising order (R52). -/
def Memory.write : Memory → Nat → Byte → Memory
  | [], x, v => [(x, v)]
  | (a, b) :: m, x, v =>
    if x < a then (x, v) :: (a, b) :: m
    else if x = a then (x, v) :: m
    else (a, b) :: Memory.write m x v

/-- `MemWrite(BUF, j, n, s)` of R14, with `n` the length of `s`. -/
def Memory.writeBytes (m : Memory) (j : Nat) : List Byte → Memory
  | [] => m
  | b :: bs => Memory.writeBytes (m.write j b) (j + 1) bs

/-- The canonical form: indices strictly rising. Unlisted indices read as no value, so no entry can equal that. -/
abbrev Memory.wf (m : Memory) : Prop := m.Pairwise (fun c d => c.1 < d.1)

/-- Every listed index lies inside a buffer of `n` bytes (R50, R53). -/
abbrev Memory.within (m : Memory) (n : Nat) : Prop := ∀ c ∈ m, c.1 < n

/-- `BE(b_0, ..., b_{n-1})`: the big-endian value of a byte sequence (R13). -/
def be (bs : List Byte) : Nat := bs.foldl (fun v b => v * 256 + b.toNat) 0

/-- The `n` bytes whose big-endian value is `v mod 256^n`, most significant first (R102, R107). -/
def beBytes (n v : Nat) : List Byte := (List.range n).map fun k => BitVec.ofNat 8 (v / 256 ^ (n - 1 - k))

/-- Byte `j` of a byte sequence. Every use stands behind a check that `j` is in range (R53, R135), so the 0 beyond
the end is never a result. -/
def byteAt (bs : List Byte) (j : Nat) : Byte := bs.getD j 0

/-- `MK[i mod 4]`, the key byte that masks payload byte `i` (R31, R161). -/
def MaskKey.byteFor (k : MaskKey) (i : Nat) : Byte :=
  match i % 4 with
  | 0 => k.k0
  | 1 => k.k1
  | 2 => k.k2
  | _ => k.k3

/-- HDR_MKEY, the packed big-endian view `{MK[0], MK[1], MK[2], MK[3]}` (R31, R57). -/
def MaskKey.packed (k : MaskKey) : BitVec 32 := k.k0 ++ k.k1 ++ k.k2 ++ k.k3

/-- The code of an error kind (R201). -/
def ErrKind.code : ErrKind → BitVec 4
  | .malformedFrame => 1
  | .truncatedPayload => 2
  | .invalidHandshakeKey => 3
  | .illegalCmd => 4
  | .noHeader => 5
  | .accOverflow => 6

/-- `ERR <- v` (R22). -/
def State.setErr (v : BitVec 4) (s : State) : State := { s with err := v }

/-- `raise E`: "it writes ERR <- code(E)" (R14); this act is the block's only trap entry (R206). -/
def State.raise (e : ErrKind) (s : State) : State := s.setErr e.code

/-- `ERR <- 0`: a command that succeeds (R200). -/
def State.succeed (s : State) : State := s.setErr 0

/-- `CMD <- w`, all 8 bits as written (R21). -/
def State.setCmd (w : Byte) (s : State) : State := { s with cmd := w }

/-- A fresh unspecified value (R46, R60) and the state that has drawn it. DESIGN CHOICE, log 4. -/
def State.draw (s : State) : Byte × State := (Config.freeByte s.inst s.draws, { s with draws := s.draws + 1 })

/-- `MemWrite(OUT, 0, n, bs)` and `OUT_LEN <- n` (R162, R181). -/
def State.writeOut (bs : List Byte) (s : State) : State :=
  { s with out := s.out.writeBytes 0 bs, outLen := bs.length }

/-- `MemWrite(ACC, ACC_LEN, n, bs)` and `ACC_LEN <- ACC_LEN + n` (R181). -/
def State.appendAcc (bs : List Byte) (s : State) : State :=
  { s with acc := s.acc.writeBytes s.accLen bs, accLen := s.accLen + bs.length }

/-- `ACC_LEN <- 0` (R184); the bytes of ACC become unspecified because they now lie past ACC_LEN (R39). -/
def State.emptyAcc (s : State) : State := { s with accLen := 0 }

/-- `MemWrite(TOK, 0, 28, t)` (R112). -/
def State.writeTok (t : List Byte) (s : State) : State := { s with tok := s.tok.writeBytes 0 t }

end Sys2Proof.Machine
end

