-- ==== Sys2Proof/Machine/Base64.lean ====
section
/-! DEFINITION. Base64 as `40_handshake.md` R108 and R109 state it. -/

namespace Sys2Proof.Machine

/-- The alphabet: the ASCII byte of a 6-bit value (R108). -/
def alpha (v : BitVec 6) : Byte :=
  if v.toNat ≤ 25 then BitVec.ofNat 8 (0x41 + v.toNat)
  else if v.toNat ≤ 51 then BitVec.ofNat 8 (0x61 + (v.toNat - 26))
  else if v.toNat ≤ 61 then BitVec.ofNat 8 (0x30 + (v.toNat - 52))
  else if v.toNat = 62 then 0x2B
  else 0x2F

/-- The pad character `=` (R108). -/
def padChar : Byte := 0x3D

/-- The four characters of a group `g0, g1, g2` with `v = BE(g0, g1, g2)` (R109). -/
def base64Group (g0 g1 g2 : Byte) : List Byte :=
  let v := BitVec.ofNat 24 (be [g0, g1, g2])
  [alpha (v.extractLsb' 18 6), alpha (v.extractLsb' 12 6), alpha (v.extractLsb' 6 6), alpha (v.extractLsb' 0 6)]

/-- `base64(d)` (R109): groups of three from the start, the last one padded. -/
def base64 : List Byte → List Byte
  | [] => []
  | [g0] => (base64Group g0 0 0).take 2 ++ [padChar, padChar]
  | [g0, g1] => (base64Group g0 g1 0).take 3 ++ [padChar]
  | g0 :: g1 :: g2 :: r => base64Group g0 g1 g2 ++ base64 r

end Sys2Proof.Machine
end

