-- ==== Sys2Proof/Machine/Flags.lean ====
section
/-! DEFINITION. The STATUS register's flags (`10_state.md` R23). Every flag computation of the commands is an
assignment of one of these bits. -/

namespace Sys2Proof.Machine

/-- The bit of STATUS a flag stands at (R23). -/
def StatusFlag.bit : StatusFlag → Nat
  | .lenValid => 0
  | .hdrValid => 1
  | .complete => 2
  | .tokValid => 3

/-- The 4-bit value with only that flag's bit set. -/
def StatusFlag.mask (f : StatusFlag) : BitVec 4 := BitVec.twoPow 4 f.bit

/-- Whether a flag of STATUS is 1. -/
def State.flag (s : State) (f : StatusFlag) : Bool := s.status.getLsbD f.bit

/-- STATUS with one flag assigned and the other three unchanged. -/
def State.setFlag (f : StatusFlag) (b : Bool) (s : State) : State :=
  { s with status := if b then s.status ||| f.mask else s.status &&& ~~~f.mask }

/-- How a DECODE_LEN, PARSE_HEADER or INGEST that fails ends: LEN_VALID <- 0, HDR_VALID <- 0, then `raise e`, and
nothing else (R137, R139, R181, R203). -/
def State.failFrame (e : ErrKind) (s : State) : State :=
  ((s.setFlag .lenValid false).setFlag .hdrValid false).raise e

/-- How a DERIVE_ACCEPT that fails ends: TOK_VALID <- 0, then `raise INVALID_HANDSHAKE_KEY` (R112, R203). -/
def State.failKey (s : State) : State := (s.setFlag .tokValid false).raise .invalidHandshakeKey

end Sys2Proof.Machine
end

