-- ==== Sys2Proof/Machine/Operands.lean ====
section
/-! DEFINITION. The operands of the commands, read from the state (`30_encoding.md` R86): the frame bytes
`FB[0..FB_LEN-1]` (R130), the key bytes `KEY[0..KEY_LEN-1]` (R112), and the contents of the result buffers. -/

namespace Sys2Proof.Machine

/-- `FB[j]` as a command reads it. A byte nothing has written since reset is a free value, the same at every read
until the next reset (R46, S1), and unrelated to another instance's (log 18). DESIGN CHOICE, log 5. -/
def State.fbByte (s : State) (j : Nat) : Byte :=
  match s.fb.read j with
  | some b => b
  | none => Config.unwrittenFb s.inst s.epoch j

/-- `MemRead(FB, 0, FB_LEN)` (R14, R130): the frame buffer's valid bytes. -/
def State.frame (s : State) : List Byte := (List.range s.fbLen).map s.fbByte

/-- `KEY[j]` as a command reads it; unwritten bytes as for FB (R46, S1). DESIGN CHOICE, log 5. -/
def State.keyByte (s : State) (j : Nat) : Byte :=
  match s.key.read j with
  | some b => b
  | none => Config.unwrittenKey s.inst s.epoch j

/-- `MemRead(KEY, 0, KEY_LEN)` (R112): the handshake key. -/
def State.keyBytes (s : State) : List Byte := (List.range s.keyLen).map s.keyByte

/-- `OUT[0..OUT_LEN-1]` (R38), `none` at an index nothing has written. -/
def State.outBytes (s : State) : List (Option Byte) := (List.range s.outLen).map s.out.read

/-- `ACC[0..ACC_LEN-1]`, the source's accumulatedPayload (R39, R183), `none` at an index nothing has written. -/
def State.accBytes (s : State) : List (Option Byte) := (List.range s.accLen).map s.acc.read

/-- `TOK[0..27]` (R41), `none` at an index nothing has written. -/
def State.tokBytes (s : State) : List (Option Byte) := (List.range 28).map s.tok.read

end Sys2Proof.Machine
end

