-- ==== Sys2Proof/Machine/Sha1.lean ====
section
/-! DEFINITION. SHA-1 as `40_handshake.md` R102 to R107 spell it out. -/

namespace Sys2Proof.Machine

/-- The number `z` of zero bytes of the padding: "the least number >= 0 with `(l + 1 + z) mod 64 = 56`" (R102). -/
def sha1Zeros (l : Nat) : Nat := (119 - l % 64) % 64

/-- The message length in bits as the 64-bit value the padding ends with (R102). R102 states no value for a length
that does not fit: there the field is a free value. DESIGN CHOICE, log 15. -/
def sha1LengthField (l : Nat) : BitVec 64 :=
  if 8 * l < 2 ^ 64 then BitVec.ofNat 64 (8 * l) else Config.longMessageField l

/-- The preprocessed message (R102). -/
def sha1Pad (m : List Byte) : List Byte :=
  m ++ [0x80] ++ List.replicate (sha1Zeros m.length) 0x00 ++ beBytes 8 (sha1LengthField m.length).toNat

/-- The five u32 words of the hash value, or the working variables a to e (R103, R106). -/
structure Sha1State where
  a : Word32
  b : Word32
  c : Word32
  d : Word32
  e : Word32
deriving DecidableEq, Repr

/-- The initial hash value H0 to H4 (R103). -/
def sha1Init : Sha1State := ⟨0x67452301, 0xEFCDAB89, 0x98BADCFE, 0x10325476, 0xC3D2E1F0⟩

/-- `ROTLn(x) = ((x << n) | (x >> (32-n))) mod 2^32` (R104). -/
def rotl (n : Nat) (x : Word32) : Word32 := (x <<< n) ||| (x >>> (32 - n))

/-- `W[0]` to `W[15]`: the block's bytes as big-endian words (R104). -/
def sha1Words (block : List Byte) : List Word32 :=
  (List.range 16).map fun t =>
    BitVec.ofNat 32 (be [byteAt block (4 * t), byteAt block (4 * t + 1), byteAt block (4 * t + 2),
      byteAt block (4 * t + 3)])

/-- `n` more words of the message schedule, on a list that holds the newest word first, so that entry `k` is
`W[t-1-k]` (R104). -/
def sha1Extend : Nat → List Word32 → List Word32
  | 0, ws => ws
  | n + 1, ws =>
    sha1Extend n (rotl 1 (ws.getD 2 0 ^^^ ws.getD 7 0 ^^^ ws.getD 13 0 ^^^ ws.getD 15 0) :: ws)

/-- The message schedule `W[0]` to `W[79]` of one block (R104). -/
def sha1Schedule (block : List Byte) : List Word32 := (sha1Extend 64 (sha1Words block).reverse).reverse

/-- `f_t(b, c, d)` (R105). -/
def sha1F (t : Nat) (b c d : Word32) : Word32 :=
  if t ≤ 19 then (b &&& c) ^^^ (~~~b &&& d)
  else if t ≤ 39 then b ^^^ c ^^^ d
  else if t ≤ 59 then (b &&& c) ^^^ (b &&& d) ^^^ (c &&& d)
  else b ^^^ c ^^^ d

/-- `K_t` (R105). -/
def sha1K (t : Nat) : Word32 :=
  if t ≤ 19 then 0x5A827999
  else if t ≤ 39 then 0x6ED9EBA1
  else if t ≤ 59 then 0x8F1BBCDC
  else 0xCA62C1D6

/-- Round `t` with the word `w = W[t]` (R106). -/
def sha1Round (t : Nat) (w : Word32) (v : Sha1State) : Sha1State :=
  { a := rotl 5 v.a + sha1F t v.b v.c v.d + v.e + sha1K t + w
    b := v.a
    c := rotl 30 v.b
    d := v.c
    e := v.d }

/-- The rounds from `t` on, one per word (R106). -/
def sha1Rounds : Nat → List Word32 → Sha1State → Sha1State
  | _, [], v => v
  | t, w :: ws, v => sha1Rounds (t + 1) ws (sha1Round t w v)

/-- The compression of one block (R106). -/
def sha1Compress (h : Sha1State) (block : List Byte) : Sha1State :=
  let v := sha1Rounds 0 (sha1Schedule block) h
  ⟨h.a + v.a, h.b + v.b, h.c + v.c, h.d + v.d, h.e + v.e⟩

/-- The first `n` 64-byte blocks of a padded message, in order (R102). -/
def sha1BlocksOf : Nat → List Byte → List (List Byte)
  | 0, _ => []
  | n + 1, m => m.take 64 :: sha1BlocksOf n (m.drop 64)

/-- The hash value after a list of blocks, in order (R106). -/
def sha1Hash (bs : List (List Byte)) : Sha1State := bs.foldl sha1Compress sha1Init

/-- `BE32(H0) ‖ … ‖ BE32(H4)`, the 20-byte digest (R107). -/
def sha1Digest (h : Sha1State) : List Byte :=
  beBytes 4 h.a.toNat ++ beBytes 4 h.b.toNat ++ beBytes 4 h.c.toNat ++ beBytes 4 h.d.toNat ++ beBytes 4 h.e.toNat

/-- `sha1(m)` (R102 to R107). -/
def sha1 (m : List Byte) : List Byte :=
  sha1Digest (sha1Hash (sha1BlocksOf ((sha1Pad m).length / 64) (sha1Pad m)))

end Sys2Proof.Machine
end

