-- ==== Sys2Proof/Machine/Utf8.lean ====
section
/-! DEFINITION. UTF-8 well-formedness as the table of `40_handshake.md` R101 states it. -/

namespace Sys2Proof.Machine

/-- The nine rows of R101's table: for each byte of a character, the inclusive range it lies in. -/
def utf8Rows : List (List (Nat × Nat)) :=
  [ [(0x00, 0x7F)],
    [(0xC2, 0xDF), (0x80, 0xBF)],
    [(0xE0, 0xE0), (0xA0, 0xBF), (0x80, 0xBF)],
    [(0xE1, 0xEC), (0x80, 0xBF), (0x80, 0xBF)],
    [(0xED, 0xED), (0x80, 0x9F), (0x80, 0xBF)],
    [(0xEE, 0xEF), (0x80, 0xBF), (0x80, 0xBF)],
    [(0xF0, 0xF0), (0x90, 0xBF), (0x80, 0xBF), (0x80, 0xBF)],
    [(0xF1, 0xF3), (0x80, 0xBF), (0x80, 0xBF), (0x80, 0xBF)],
    [(0xF4, 0xF4), (0x80, 0x8F), (0x80, 0xBF), (0x80, 0xBF)] ]

/-- The sequence begins with bytes in a row's ranges. -/
def beginsWith : List (Nat × Nat) → List Byte → Bool
  | [], _ => true
  | _ :: _, [] => false
  | (lo, hi) :: r, b :: bs => lo ≤ b.toNat && b.toNat ≤ hi && beginsWith r bs

/-- The row the first character matches. The rows exclude each other, so the first match is the only one. -/
def utf8Row (s : List Byte) : Option (List (Nat × Nat)) := utf8Rows.find? (beginsWith · s)

/-- Takes characters off the front, at most `n` of them. -/
def utf8ValidFrom : Nat → List Byte → Bool
  | 0, s => s.isEmpty
  | n + 1, s => s.isEmpty || match utf8Row s with
    | some r => utf8ValidFrom n (s.drop r.length)
    | none => false

/-- `utf8Valid(s)` (R101): `s` splits, from its first byte, into well-formed characters. Each takes a byte or more, so
there are at most as many as bytes. -/
def utf8Valid (s : List Byte) : Bool := utf8ValidFrom s.length s

end Sys2Proof.Machine
end

