-- ==== Sys2Proof/Machine/Handshake.lean ====
section
/-! DEFINITION. The handshake key deriver (`40_handshake.md`): DERIVE_ACCEPT. -/

namespace Sys2Proof.Machine

/-- The protocol's GUID, `258EAFA5-E914-47DA-95CA-C5AB0DC85B11`, as the bytes R100 lists. -/
def guid : List Byte :=
  [0x32, 0x35, 0x38, 0x45, 0x41, 0x46, 0x41, 0x35, 0x2D, 0x45, 0x39, 0x31, 0x34, 0x2D, 0x34, 0x37, 0x44, 0x41,
   0x2D, 0x39, 0x35, 0x43, 0x41, 0x2D, 0x43, 0x35, 0x41, 0x42, 0x30, 0x44, 0x43, 0x38, 0x35, 0x42, 0x31, 0x31]

/-- `deriveAcceptToken(k) = base64(sha1(k ‖ GUID))` (R111). -/
def deriveAcceptToken (k : List Byte) : List Byte := base64 (sha1 (k ++ guid))

/-- DERIVE_ACCEPT (R112). -/
def execDeriveAccept (s : State) : Result :=
  .next <|
    if s.keyPresent = 0 then s.failKey
    else if !utf8Valid s.keyBytes then s.failKey
    else ((s.writeTok (deriveAcceptToken s.keyBytes)).setFlag .tokValid true).succeed

end Sys2Proof.Machine
end

