-- ==== Sys2Proof/Machine/FrameHeader.lean ====
section
/-! DEFINITION. The frame header parser (`41_frame_header.md`): the pure functions `decodeLen` and `parseHdr`, and the
commands DECODE_LEN and PARSE_HEADER. -/

namespace Sys2Proof.Machine

/-- The record `decodeLen` returns (R131). -/
structure LenInfo where
  b0   : Byte
  b1   : Byte
  fin  : BitVec 1
  tier : BitVec 2
  plen : BitVec 64
  moff : BitVec 4
deriving DecidableEq, Repr

/-- The record `parseHdr` returns: `decodeLen`'s fields, and `mk` and `poff` (R134). -/
structure HdrInfo extends LenInfo where
  mkey : MaskKey
  poff : BitVec 4
deriving DecidableEq, Repr

/-- `fin`, the most significant bit of byte 0 (R132). -/
def finBit (b0 : Byte) : BitVec 1 := b0.extractLsb' 7 1

/-- `rawLength`, the seven least significant bits of byte 1 (R79). -/
def rawLength (b1 : Byte) : Nat := (b1.extractLsb' 0 7).toNat

/-- `decodeLen(fb, n)` with `n` the length of `fb` (R130, R131). -/
def decodeLen (fb : List Byte) : Except ErrKind LenInfo :=
  let n := fb.length
  if n < 2 then .error .malformedFrame
  else
    let b0 := byteAt fb 0
    let b1 := byteAt fb 1
    let raw := rawLength b1
    if raw < 126 then
      .ok { b0, b1, fin := finBit b0, tier := 0, plen := BitVec.ofNat 64 raw, moff := 2 }
    else if raw = 126 then
      if n < 4 then .error .malformedFrame
      else .ok { b0, b1, fin := finBit b0, tier := 1,
                 plen := BitVec.ofNat 64 (be [byteAt fb 2, byteAt fb 3]), moff := 4 }
    else
      if n < 10 then .error .malformedFrame
      else .ok { b0, b1, fin := finBit b0, tier := 2,
                 plen := BitVec.ofNat 64 (be [byteAt fb 2, byteAt fb 3, byteAt fb 4, byteAt fb 5, byteAt fb 6,
                   byteAt fb 7, byteAt fb 8, byteAt fb 9]), moff := 10 }

/-- `parseHdr(fb, n)` with `n` the length of `fb` (R134). -/
def parseHdr (fb : List Byte) : Except ErrKind HdrInfo :=
  match decodeLen fb with
  | .error e => .error e
  | .ok r =>
    let m := r.moff.toNat
    if fb.length < m + 4 then .error .malformedFrame
    else .ok { r with mkey := ⟨byteAt fb m, byteAt fb (m + 1), byteAt fb (m + 2), byteAt fb (m + 3)⟩, poff := r.moff + 4 }

/-- The six registers a length decode latches (R137). -/
def State.latchLen (r : LenInfo) (s : State) : State :=
  { s with
    hdrB0 := r.b0
    hdrB1 := r.b1
    hdrFin := r.fin
    hdrLtier := r.tier
    hdrPlen := r.plen
    hdrMoff := r.moff }

/-- The further registers a full parse latches: MK and HDR_POFF (R139). -/
def State.latchKey (mk : MaskKey) (poff : BitVec 4) (s : State) : State := { s with mkey := mk, hdrPoff := poff }

/-- Every header register, as PARSE_HEADER and INGEST latch them, and LEN_VALID and HDR_VALID set (R139, R181). -/
def State.latchHdr (r : HdrInfo) (s : State) : State :=
  (((s.latchLen r.toLenInfo).latchKey r.mkey r.poff).setFlag .lenValid true).setFlag .hdrValid true

/-- DECODE_LEN (R137). -/
def execDecodeLen (s : State) : Result :=
  .next <|
    match decodeLen s.frame with
    | .error e => s.failFrame e
    | .ok r => (((s.latchLen r).setFlag .lenValid true).setFlag .hdrValid false).succeed

/-- PARSE_HEADER (R139). -/
def execParseHeader (s : State) : Result :=
  .next <|
    match parseHdr s.frame with
    | .error e => s.failFrame e
    | .ok r => (s.latchHdr r).succeed

end Sys2Proof.Machine
end

