-- ==== Sys2Proof/Machine/Unmask.lean ====
section
/-! DEFINITION. The payload unmasker (`42_unmask.md`): the pure function `unmaskFn` and the command UNMASK. -/

namespace Sys2Proof.Machine

/-- `unmaskFn(fb, n, poff, plen, mk)` with `n` the length of `fb` (R160, R161). Sum and comparison are in the naturals,
with no wrap (R13, D11). -/
def unmaskFn (fb : List Byte) (poff plen : Nat) (mk : MaskKey) : Except ErrKind (List Byte) :=
  if poff + plen > fb.length then .error .truncatedPayload
  else .ok ((List.range plen).map fun i => byteAt fb (poff + i) ^^^ mk.byteFor i)

/-- UNMASK (R162): the latched header with the FB and FB_LEN of this moment. -/
def execUnmask (s : State) : Result :=
  .next <|
    if !s.flag .hdrValid then s.raise .noHeader
    else match unmaskFn s.frame s.hdrPoff.toNat s.hdrPlen.toNat s.mkey with
      | .error e => s.raise e
      | .ok out => (s.writeOut out).succeed

end Sys2Proof.Machine
end

