-- ==== Sys2Proof/Machine/Reassembly.lean ====
section
/-! DEFINITION. The frame reassembly state machine (`43_reassembly.md`): INGEST and CLEAR_ACC. -/

namespace Sys2Proof.Machine

/-- INGEST (R181): parse, unmask, check the accumulator, and only then write; a failure writes what `failFrame` writes
(R182), tested in this order (R190). -/
def execIngest (s : State) : Result :=
  .next <|
    match parseHdr s.frame with
    | .error e => s.failFrame e
    | .ok r =>
      match unmaskFn s.frame r.poff.toNat r.plen.toNat r.mkey with
      | .error e => s.failFrame e
      | .ok out =>
        if s.accLen + r.plen.toNat > s.params.accCap then s.failFrame .accOverflow
        else ((((s.latchHdr r).writeOut out).appendAcc out).setFlag .complete (r.fin == 1)).succeed

/-- CLEAR_ACC (R184). -/
def execClearAcc (s : State) : Result := .next ((s.emptyAcc.setFlag .complete false).succeed)

end Sys2Proof.Machine
end

