-- ==== Sys2Proof/Machine/Dispatch.lean ====
section
/-! DEFINITION. One arm per command (`30_encoding.md` R84). `exec` is what a command does after its word has been stored
in CMD (`10_state.md` R21). -/

namespace Sys2Proof.Machine

def exec (i : Instr) (s : State) : Host.Outcome State Fault Refusal :=
  match i with
  | .deriveAccept => Sys2Proof.Machine.execDeriveAccept s
  | .decodeLen => Sys2Proof.Machine.execDecodeLen s
  | .parseHeader => Sys2Proof.Machine.execParseHeader s
  | .unmask => Sys2Proof.Machine.execUnmask s
  | .ingest => Sys2Proof.Machine.execIngest s
  | .clearAcc => Sys2Proof.Machine.execClearAcc s

end Sys2Proof.Machine
end

