-- ==== Sys2Proof/Machine/HostPort.lean ====
section
/-! DEFINITION. What a host event does (`10_state.md` R21 to R41, `20_memory.md` R50 to R63): register and byte reads and
writes, the command a CMD write starts, and the reset event (`70_reset_and_hazards.md` R230). -/

namespace Sys2Proof.Machine

/-- What a host read of a register returns (R20). HDR_MKEY is the packed view of MK (R31, R57). -/
def State.regValue (s : State) : Reg → Nat
  | .cmd => s.cmd.toNat
  | .err => s.err.toNat
  | .status => s.status.toNat
  | .fbLen => s.fbLen
  | .hdrB0 => s.hdrB0.toNat
  | .hdrB1 => s.hdrB1.toNat
  | .hdrFin => s.hdrFin.toNat
  | .hdrLtier => s.hdrLtier.toNat
  | .hdrPlen => s.hdrPlen.toNat
  | .hdrMoff => s.hdrMoff.toNat
  | .hdrPoff => s.hdrPoff.toNat
  | .hdrMkey => s.mkey.packed.toNat
  | .outLen => s.outLen
  | .accLen => s.accLen
  | .keyLen => s.keyLen
  | .keyPresent => s.keyPresent.toNat

/-- What a host read of index `i` of the REG space returns: "Host reads of an index of 16 or more return 0" (R36). -/
def State.regRead (s : State) (i : Nat) : Nat :=
  match Reg.ofIndex i with
  | some r => s.regValue r
  | none => 0

/-- The contents of a buffer space; REG has none. -/
def State.buffer (s : State) : Space → Memory
  | .reg => []
  | .fb => s.fb
  | .out => s.out
  | .acc => s.acc
  | .key => s.key
  | .tok => s.tok

/-- The indices of a buffer whose written bytes the rules specify for the host: those below OUT_LEN in OUT (R38) and below
ACC_LEN in ACC (R39), all of TOK (R41), and all of FB and KEY, whose bytes past the length hold what the host wrote (R37,
R40; log 6). -/
def State.validTo (s : State) : Space → Nat
  | .reg => 0
  | .fb => s.params.fbCap
  | .out => s.outLen
  | .acc => s.accLen
  | .key => s.params.keyCap
  | .tok => 28

/-- The byte of a buffer that the rules specify, if they specify one. -/
def State.specifiedByte (s : State) (sp : Space) (i : Nat) : Option Byte :=
  if i < sp.size s.params ∧ i < s.validTo sp then (s.buffer sp).read i else none

/-- The byte that host reads of a buffer index keep returning until the next write or command (R60): of every byte inside
the buffer that has been written. Where the rules specify no value for it, at or past OUT_LEN in OUT and ACC_LEN in ACC
(R38, R39), it is a free value that lasts as long. DESIGN CHOICE, log 19. -/
def State.heldByte (s : State) (sp : Space) (i : Nat) : Option Byte :=
  if i < sp.size s.params then
    (s.buffer sp).read i |>.map fun b => if i < s.validTo sp then b else Config.staleByte s.inst s.writes sp i
  else none

/-- The host has read a value (R87). Nothing of the block changes (R36, R60). -/
def State.observe (sp : Space) (i v : Nat) (s : State) : State :=
  { s with observed := ⟨sp, i, v⟩ :: s.observed }

/-- A host read (R51, R60). A byte at or past the buffer's size (R52), or that nothing has written (R46), is a fresh free
value at each read, as R60 allows (log 4). -/
def State.hostRead (sp : Space) (i : Nat) (s : State) : State :=
  match sp with
  | .reg => s.observe .reg i (s.regRead i)
  | _ => match s.heldByte sp i with
    | some b => s.observe sp i b.toNat
    | none => s.draw.2.observe sp i s.draw.1.toNat

/-- The host writes: what it read as an unspecified byte before need not be what it reads now (R60; log 19). -/
def State.countWrite (s : State) : State := { s with writes := s.writes + 1 }

/-- The value a host write delivers to a field of `n` bits, 8 at most: the value itself where it fits. The spec states
no result for a value that does not (R51): there it is a free value. DESIGN CHOICE, log 8. -/
def State.fit (n v : Nat) (s : State) : BitVec n × State :=
  if v < 2 ^ n then (BitVec.ofNat n v, s) else (s.draw.1.setWidth n, s.draw.2)

/-- `FB_LEN <- min(v, FB_CAP)` (R24). -/
def State.setFbLen (v : Nat) (s : State) : State := { s with fbLen := min v s.params.fbCap }

/-- `KEY_LEN <- min(v, KEY_CAP)` (R34). -/
def State.setKeyLen (v : Nat) (s : State) : State := { s with keyLen := min v s.params.keyCap }

/-- `KEY_PRESENT <- b` (R35). -/
def State.setKeyPresent (b : BitVec 1) (s : State) : State := { s with keyPresent := b }

/-- `FB[i] <- b` (R37). -/
def State.storeFb (i : Nat) (b : Byte) (s : State) : State := { s with fb := s.fb.write i b }

/-- `KEY[i] <- b` (R40). -/
def State.storeKey (i : Nat) (b : Byte) (s : State) : State := { s with key := s.key.write i b }

/-- A host write of one byte: FB and KEY below their sizes take it, "a write is ignored" beyond them (R52), and OUT, ACC
and TOK, which the host only reads, ignore it (R38, R39, R41, D27; log 7). -/
def State.hostStore (sp : Space) (i v : Nat) (s : State) : State :=
  match sp with
  | .fb => if i < s.params.fbCap then (s.fit 8 v).2.storeFb i (s.fit 8 v).1 else s
  | .key => if i < s.params.keyCap then (s.fit 8 v).2.storeKey i (s.fit 8 v).1 else s
  | .reg | .out | .acc | .tok => s

/-- "A host write of value `w` stores `w` in CMD and then executes command `w` as one step" (R21). A word that is no
command raises ILLEGAL_CMD and changes nothing else (R85). -/
def issue (w : Byte) (s : State) : Result :=
  match decode w with
  | .ok i => exec i (s.setCmd w)
  | .error _ => .next ((s.setCmd w).raise .illegalCmd)

/-- A host write of a register by its index (R20, R61). Read-only registers and reserved indices ignore it (R36). -/
def hostWriteReg (i v : Nat) (s : State) : Result :=
  match Reg.ofIndex i with
  | some .cmd => issue (s.fit 8 v).1 (s.fit 8 v).2
  | some .fbLen => .next (s.setFbLen v)
  | some .keyLen => .next (s.setKeyLen v)
  | some .keyPresent => .next ((s.fit 1 v).2.setKeyPresent (s.fit 1 v).1)
  | some .err | some .status | some .hdrB0 | some .hdrB1 | some .hdrFin | some .hdrLtier | some .hdrPlen
  | some .hdrMoff | some .hdrPoff | some .hdrMkey | some .outLen | some .accLen => .next s
  | none => .next s

/-- One host access (R51, R62: "Any host access the rules allow is carried out"). Every write is counted, those that are
ignored and those that start a command too (log 19). -/
def hostAccess (a : HostAccess) (s : State) : Result :=
  match a with
  | .read sp i => .next (s.hostRead sp i)
  | .write .reg i v => hostWriteReg i v s.countWrite
  | .write sp i v => .next (s.countWrite.hostStore sp i v)

/-- The reset event (R230): every register at its reset value, every buffer unspecified (R46). The parameters and the
model's own fields are not the block's registers and stay; the epoch advances, so that the unspecified bytes are new.
Log 12. -/
def State.resetBlock (s : State) : State :=
  { State.resetWith s.params with
    pending := s.pending
    observed := s.observed
    draws := s.draws
    epoch := s.epoch + 1
    writes := s.writes
    inst := s.inst }

/-- One event from outside. A second agent has no step (R64, R241): refused by name. Log 11. -/
def hostEvent (e : HostEvent) (s : State) : Result :=
  match e with
  | .access a => hostAccess a s
  | .reset => .next s.resetBlock
  | .secondAgent => .refused .secondAgent

/-- The next event leaves the queue. -/
def State.advance (rest : List HostEvent) (s : State) : State := { s with pending := rest }

/-- The next event of the host's order, if there is one (R63). With none the block "is idle and keeps all its state"
(R214, R233). Log 10. -/
def stepPending (s : State) : Result :=
  match s.pending with
  | [] => .next s
  | e :: rest => hostEvent e (s.advance rest)

/-- The host's next event becomes a write of `w` to CMD (R21). -/
def State.pushCmdWrite (w : Nat) (s : State) : State :=
  { s with pending := .access (.write .reg 0 w) :: s.pending }

end Sys2Proof.Machine
end

