-- ==== Sys2Proof/Machine/Step.lean ====
section
/-! DEFINITION. One step of the machine: the next host event (`20_memory.md` R63). -/

namespace Sys2Proof.Machine

/-- One step: the next host event in the host's program order, with the command it starts if it writes CMD (R8, R63). -/
def step (s : State) : Host.Outcome State Fault Refusal := stepPending s

/-- `s` with a host write of the command word as the next event: the block fetches nothing, and what it executes "is
the value written to CMD at the moment of the write" (R67). Log 1. -/
def State.withFetchWord (s : State) (nbits w : Nat) : State := s.pushCmdWrite (w % 2 ^ nbits)

end Sys2Proof.Machine
end

