-- ==== Sys2Proof/Machine/Codec.lean ====
section
/-! DEFINITION. The bit/byte codec of the source's §4.2 as `30_encoding.md` R70 to R72 give it: the bit-order law of
the header fields. A bit string is a list of characters. No command uses it (R74); R73 says that the commands' integer
arithmetic agrees with it. -/

namespace Sys2Proof.Machine

/-- `byteToBits(b, 8)`: character k, leftmost first, is `b[7-k]` (R70). -/
def byteToBits (b : Byte) : List Char := (List.range 8).map fun k => if b.getLsbD (7 - k) then '1' else '0'

/-- `bufferToBits(bytes)`: the bytes' strings in order (R71). -/
def bufferToBits (bs : List Byte) : List Char := bs.flatMap byteToBits

/-- Base-2 reading of a string after a prefix of value `v`. -/
def bitsToIntegerFrom (v : Nat) : List Char → Option Nat
  | [] => some v
  | c :: cs =>
    if c = '0' then bitsToIntegerFrom (2 * v) cs
    else if c = '1' then bitsToIntegerFrom (2 * v + 1) cs
    else none

/-- `bitsToInteger(bits)`, leftmost most significant (R72). A character other than 0 and 1 is the caller's contract
violation (R74, U1) and has no result: log 16. -/
def bitsToInteger (cs : List Char) : Option Nat := bitsToIntegerFrom 0 cs

end Sys2Proof.Machine
end

