-- ==== Sys2Proof/Machine/HostProgram.lean ====
section
/-! DEFINITION. Host programs (`30_encoding.md` R87, R88): the accesses each line makes, and loading a program into the
host's queue. -/

namespace Sys2Proof.Machine

/-- `WRB <space>, <index>, [b0, b1, ...]`: the bytes in that order at rising indices (R87). -/
def writeBytesAccesses (sp : Space) (i : Nat) : List Byte → List HostAccess
  | [] => []
  | b :: bs => .write sp i b.toNat :: writeBytesAccesses sp (i + 1) bs

/-- The accesses of one line (R87), the pseudo-instructions by their expansions (R88). `RDB` reads at rising indices: R87
states no order for it and R52 leaves the order of the byte accesses to the host. DESIGN CHOICE, log 20. -/
def expand : HostForm → List HostAccess
  | .wr r v => [.write .reg r.index v]
  | .rd r => [.read .reg r.index]
  | .wrb sp i bs => writeBytesAccesses sp i bs
  | .rdb sp i n => (List.range n).map fun k => .read sp (i + k)
  | .cmd i => [.write .reg Reg.cmd.index (encode i).toNat]
  | .frame bs => writeBytesAccesses .fb 0 bs ++ [.write .reg Reg.fbLen.index bs.length]
  | .key t => writeBytesAccesses .key 0 t ++ [.write .reg Reg.keyLen.index t.length, .write .reg Reg.keyPresent.index 1]
  | .noKey => [.write .reg Reg.keyPresent.index 0]

/-- "A host program is a finite sequence of host accesses" (R244). -/
def programAccesses (p : List HostForm) : List HostAccess := p.flatMap expand

/-- `s` with a program's accesses behind the events already pending. -/
def State.load (p : List HostForm) (s : State) : State :=
  { s with pending := s.pending ++ (programAccesses p).map .access }

end Sys2Proof.Machine
end

