-- ==== Sys2Proof/Machine/System.lean ====
section
/-! DEFINITION. Several instances (`00_scope.md` R7, `20_memory.md` R69, `60_exceptions.md` R212): a list of states, one
per live connection, sharing nothing. -/

namespace Sys2Proof.Machine

/-- A system right after reset (R212: "Each starts from reset"), one instance for each set of parameters. The instances are
numbered in order, for the free values only (log 18). -/
def systemReset (ps : List Params) : List State := ps.mapIdx fun k p => { State.resetWith p with inst := k }

/-- Instance `k` takes one step; an instance that does not exist takes none. Which instance steps next is the
platform's choice, given as `k` (R212). Log 13. -/
def systemStep (k : Nat) (sys : List State) : Host.Outcome (List State) Fault Refusal :=
  match sys[k]? with
  | none => .next sys
  | some s => match step s with
    | .next t => .next (sys.set k t)
    | .fault r => .fault r
    | .refused r => .refused r

end Sys2Proof.Machine
end

