-- ==== Sys2Proof/Safety.lean ====
section
/-! DEFINITION. The terms claims are stated in: the invariant of reachable states (`10_state.md` R45), the host's duties
(`70_reset_and_hazards.md` R236 to R241), what a run delivers (`43_reassembly.md` R187), and the spec's tables in the
words of the spec where a claim compares the machine with them. No step depends on anything here. -/

namespace Sys2Proof.Machine

/-- The tier byte 1 implies (R27, R79). -/
def tierOf (b1 : Byte) : BitVec 2 := if rawLength b1 < 126 then 0 else if rawLength b1 = 126 then 1 else 2

/-- The mask offset of a tier: 2, 4 or 10 (R29). -/
def moffOf (tier : BitVec 2) : BitVec 4 := if tier = 0 then 2 else if tier = 1 then 4 else 10

/-- What holds in every reachable state (R45), with the rules that hold of single registers (R26, R27, R32, R33, R80) and
of the buffers: canonical form, no byte outside a buffer (R50, R53), and every byte below a length written. -/
structure State.Inv (s : State) : Prop where
  params_ok   : s.params.ok
  fbLen_le    : s.fbLen ≤ s.params.fbCap
  keyLen_le   : s.keyLen ≤ s.params.keyCap
  accLen_le   : s.accLen ≤ s.params.accCap
  outLen_le   : s.outLen ≤ s.params.fbCap - 6
  err_le      : s.err.toNat ≤ 6
  fin_eq      : s.hdrFin = finBit s.hdrB0
  tier_eq     : s.hdrLtier = tierOf s.hdrB1
  moff_eq     : s.flag .lenValid = true → s.hdrMoff = moffOf s.hdrLtier
  plen_t7     : s.flag .lenValid = true → s.hdrLtier = 0 → s.hdrPlen.toNat = rawLength s.hdrB1
  plen_t16    : s.flag .lenValid = true → s.hdrLtier = 1 → s.hdrPlen.toNat < 65536
  hdr_len     : s.flag .hdrValid = true → s.flag .lenValid = true
  poff_eq     : s.flag .hdrValid = true → s.hdrPoff = s.hdrMoff + 4
  fb_wf       : s.fb.wf
  out_wf      : s.out.wf
  acc_wf      : s.acc.wf
  key_wf      : s.key.wf
  tok_wf      : s.tok.wf
  fb_in       : s.fb.within s.params.fbCap
  out_in      : s.out.within s.params.fbCap
  acc_in      : s.acc.within s.params.accCap
  key_in      : s.key.within s.params.keyCap
  tok_in      : s.tok.within 28
  out_written : ∀ i < s.outLen, (s.out.read i).isSome = true
  acc_written : ∀ i < s.accLen, (s.acc.read i).isSome = true
  tok_written : s.flag .tokValid = true → ∀ i < 28, (s.tok.read i).isSome = true
  tok_padded  : s.flag .tokValid = true → s.tok.read 27 = some padChar

/-- The word a host event writes to CMD, if it writes CMD (R21). -/
def State.issuedWord (s : State) : HostEvent → Option Byte
  | .access (.write .reg 0 v) => some (s.fit 8 v).1
  | _ => none

/-- The command the next event starts, if it starts one (R8). -/
def State.nextCommand (s : State) : Option Instr :=
  match s.pending with
  | [] => none
  | e :: _ => match s.issuedWord e with
    | none => none
    | some w => (decode w).toOption

/-- The host's duty of R236 at one step: no INGEST while a completed message has not been cleared. -/
def State.keepsClearDuty (s : State) : Prop := s.flag .complete = true → s.nextCommand ≠ some .ingest

/-- The header the registers hold, as `parseHdr` returns it (R139). -/
def State.latched (s : State) : HdrInfo :=
  { b0 := s.hdrB0, b1 := s.hdrB1, fin := s.hdrFin, tier := s.hdrLtier, plen := s.hdrPlen, moff := s.hdrMoff,
    mkey := s.mkey, poff := s.hdrPoff }

/-- What the host's duty of R239 keeps true between PARSE_HEADER and UNMASK: the latched header is the header of the
frame in FB. -/
def State.headerCurrent (s : State) : Prop := s.flag .hdrValid = true ∧ parseHdr s.frame = .ok s.latched

/-- The host's duty of R241: only one agent drives the instance. -/
def State.oneAgent (s : State) : Prop := HostEvent.secondAgent ∉ s.pending

/-- A run of `n` steps that neither faults nor refuses. -/
def SafeRun (n : Nat) (s : State) : Prop := ∃ t, Sys2Proof.core.run n s = .next t

/-- The payload INGEST appends in a state, empty where it fails (R187). -/
def State.ingestPayload (s : State) : List Byte :=
  match parseHdr s.frame with
  | .error _ => []
  | .ok r =>
    match unmaskFn s.frame r.poff.toNat r.plen.toNat r.mkey with
    | .error _ => []
    | .ok out => if s.accLen + r.plen.toNat > s.params.accCap then [] else out

/-- The message after one more step, where `c` is the message before it: INGEST appends its payload, CLEAR_ACC and reset
empty it, everything else leaves it (R186). -/
def State.contentAfter (s : State) (c : List Byte) : List Byte :=
  match s.pending with
  | [] => c
  | .reset :: _ => []
  | e :: _ => match (s.issuedWord e).map decode with
    | some (.ok .ingest) => c ++ s.ingestPayload
    | some (.ok .clearAcc) => []
    | _ => c

/-- The message after `n` steps, kept beside the run as a list (R187). -/
def runContent : Nat → State → List Byte → List Byte
  | 0, _, c => c
  | n + 1, s, c => match step s with
    | .next t => runContent n t (s.contentAfter c)
    | .fault _ => c
    | .refused _ => c

/-- `mask(p, k)[i] = p[i] xor k[i mod 4]` (R163). -/
def maskBytes (k : MaskKey) (p : List Byte) : List Byte := p.mapIdx fun i b => b ^^^ k.byteFor i

/-- The four bytes of a masking key in frame order (R31). -/
def MaskKey.bytes (k : MaskKey) : List Byte := [k.k0, k.k1, k.k2, k.k3]

/-- The header a sender writes for a payload of `len` bytes in one tier (R76 to R78): `b0` with the FIN bit, byte 1 with
its ignored bit `m`, the length region, the key. -/
def wireHeader (tier : BitVec 2) (b0 : Byte) (m : Bool) (len : Nat) (k : MaskKey) : List Byte :=
  let top : Byte := if m then 0x80 else 0x00
  if tier = 0 then [b0, top ||| BitVec.ofNat 8 len] ++ k.bytes
  else if tier = 1 then [b0, top ||| 126] ++ beBytes 2 len ++ k.bytes
  else [b0, top ||| 127] ++ beBytes 8 len ++ k.bytes

/-- The lengths a tier can carry (R80). -/
def tierAdmits (tier : BitVec 2) (len : Nat) : Prop :=
  (tier = 0 ∧ len < 126) ∨ (tier = 1 ∧ len < 65536) ∨ (tier = 2 ∧ len < 2 ^ 64)

/-- A client's frame: a header and the masked payload (R76 to R78, R163). -/
def clientFrame (tier : BitVec 2) (b0 : Byte) (m : Bool) (k : MaskKey) (p : List Byte) : List Byte :=
  wireHeader tier b0 m p.length k ++ maskBytes k p

/-- A byte of a range of R101's table. -/
def inRange (lo hi : Nat) (b : Byte) : Prop := lo ≤ b.toNat ∧ b.toNat ≤ hi

/-- One well-formed UTF-8 character, row by row as R101's table lists them. -/
inductive Utf8Char : List Byte → Prop where
  | one (a : Byte) : inRange 0x00 0x7F a → Utf8Char [a]
  | two (a b : Byte) : inRange 0xC2 0xDF a → inRange 0x80 0xBF b → Utf8Char [a, b]
  | threeE0 (a b c : Byte) : a.toNat = 0xE0 → inRange 0xA0 0xBF b → inRange 0x80 0xBF c → Utf8Char [a, b, c]
  | threeE1 (a b c : Byte) : inRange 0xE1 0xEC a → inRange 0x80 0xBF b → inRange 0x80 0xBF c → Utf8Char [a, b, c]
  | threeED (a b c : Byte) : a.toNat = 0xED → inRange 0x80 0x9F b → inRange 0x80 0xBF c → Utf8Char [a, b, c]
  | threeEE (a b c : Byte) : inRange 0xEE 0xEF a → inRange 0x80 0xBF b → inRange 0x80 0xBF c → Utf8Char [a, b, c]
  | fourF0 (a b c d : Byte) : a.toNat = 0xF0 → inRange 0x90 0xBF b → inRange 0x80 0xBF c → inRange 0x80 0xBF d →
      Utf8Char [a, b, c, d]
  | fourF1 (a b c d : Byte) : inRange 0xF1 0xF3 a → inRange 0x80 0xBF b → inRange 0x80 0xBF c → inRange 0x80 0xBF d →
      Utf8Char [a, b, c, d]
  | fourF4 (a b c d : Byte) : a.toNat = 0xF4 → inRange 0x80 0x8F b → inRange 0x80 0xBF c → inRange 0x80 0xBF d →
      Utf8Char [a, b, c, d]

end Sys2Proof.Machine
end

