-- ==== Sys2Proof/Certificates/Slice0/Obligations.lean ====
section
/-! DEFINITION. The statements for the provers. A statement about a command is about `exec`, which a step reaches through
`StepRunsTheDecodedCommand`. STATUS is written as 4-bit arithmetic: bit 0 LEN_VALID, bit 1 HDR_VALID, bit 2 COMPLETE,
bit 3 TOK_VALID (`10_state.md` R23). A host write also advances the model's own count `writes` (log 19). -/

open Sys2Proof Sys2Proof.Machine

/-! ### Command words -/

/-- R84: the opcode map, every word of it; a word that is no command is rejected under the name of its range (R85). -/
def Obligations.CommandWordsDecodeByTheOpcodeMap : Prop :=
  ∀ w : Byte,
    (decode w = .ok .deriveAccept ↔ w = 0x01) ∧ (decode w = .ok .decodeLen ↔ w = 0x02) ∧
    (decode w = .ok .parseHeader ↔ w = 0x03) ∧ (decode w = .ok .unmask ↔ w = 0x04) ∧
    (decode w = .ok .ingest ↔ w = 0x05) ∧ (decode w = .ok .clearAcc ↔ w = 0x06) ∧
    (decode w = .error .reservedZero ↔ w = 0x00) ∧
    (decode w = .error .reservedOp ↔ 0x07 ≤ w.toNat ∧ w.toNat ≤ 0x0F) ∧
    (decode w = .error .reservedBits ↔ 0x10 ≤ w.toNat)

/-- Decoding an encoded command gives it back, and a word that decodes is the command's encoding (R83, R84). -/
def Obligations.DecodeInvertsEncode : Prop :=
  (∀ i : Instr, i.wf = true → decode (encode i) = .ok i) ∧
  (∀ (w : Byte) (i : Instr), decode w = .ok i → encode i = w) ∧
  (∀ w : Byte, cmdWordWf w = true ↔ ∃ i, decode w = .ok i)

/-- R21: a CMD write stores the word and runs the command it decodes to, as one step: `exec` on the state with the event
taken off the queue and the word in CMD. -/
def Obligations.StepRunsTheDecodedCommand : Prop :=
  ∀ (s : State) (rest : List HostEvent) (w : Byte) (i : Instr),
    s.pending = .access (.write .reg 0 w.toNat) :: rest → decode w = .ok i →
    step s = exec i { s with pending := rest, cmd := w, writes := s.writes + 1 }

/-- R85: an illegal word is stored in CMD, ERR becomes 4 and nothing else changes. -/
def Obligations.IllegalWordStoresCmdAndErrOnly : Prop :=
  ∀ (s : State) (rest : List HostEvent) (w : Byte),
    s.pending = .access (.write .reg 0 w.toNat) :: rest →
    (w = 0x00 ∨ (0x07 ≤ w.toNat ∧ w.toNat ≤ 0x0F) ∨ w.extractLsb' 4 4 ≠ 0) →
    step s = .next { s with pending := rest, cmd := w, err := 4, writes := s.writes + 1 }

/-! ### The host's accesses -/

/-- R36: writes to read-only registers and to indices of 16 or more are ignored, such an index reads 0, and no host read
changes any state of the block (only the model's own record of reads, count of draws and queue). -/
def Obligations.ReadOnlyAndReservedRegisters : Prop :=
  ∀ (s : State) (rest : List HostEvent),
    (∀ i v, s.pending = .access (.write .reg i v) :: rest → (i = 1 ∨ i = 2 ∨ (4 ≤ i ∧ i ≤ 13) ∨ 16 ≤ i) →
      step s = .next { s with pending := rest, writes := s.writes + 1 }) ∧
    (∀ i, s.pending = .access (.read .reg i) :: rest → 16 ≤ i →
      step s = .next { s with pending := rest, observed := ⟨.reg, i, 0⟩ :: s.observed }) ∧
    (∀ sp i, s.pending = .access (.read sp i) :: rest →
      ∃ t, step s = .next t ∧ t = { s with pending := rest, observed := t.observed, draws := t.draws })

/-- R20, R57: a host read of a register returns it, index by index; index 11 returns MK packed big-endian. -/
def Obligations.RegisterReadsReturnTheirRegister : Prop :=
  ∀ (s : State) (rest : List HostEvent) (i : Nat), i < 16 → s.pending = .access (.read .reg i) :: rest →
    ∃ v, step s = .next { s with pending := rest, observed := ⟨.reg, i, v⟩ :: s.observed } ∧
      (i = 0 → v = s.cmd.toNat) ∧ (i = 1 → v = s.err.toNat) ∧ (i = 2 → v = s.status.toNat) ∧ (i = 3 → v = s.fbLen) ∧
      (i = 4 → v = s.hdrB0.toNat) ∧ (i = 5 → v = s.hdrB1.toNat) ∧ (i = 6 → v = s.hdrFin.toNat) ∧
      (i = 7 → v = s.hdrLtier.toNat) ∧ (i = 8 → v = s.hdrPlen.toNat) ∧ (i = 9 → v = s.hdrMoff.toNat) ∧
      (i = 10 → v = s.hdrPoff.toNat) ∧
      (i = 11 → v = s.mkey.k0.toNat * 2 ^ 24 + s.mkey.k1.toNat * 2 ^ 16 + s.mkey.k2.toNat * 2 ^ 8 + s.mkey.k3.toNat) ∧
      (i = 12 → v = s.outLen) ∧ (i = 13 → v = s.accLen) ∧ (i = 14 → v = s.keyLen) ∧ (i = 15 → v = s.keyPresent.toNat)

/-- R24, R34: a host write of FB_LEN or KEY_LEN, of any value, stores `min(v, capacity)`, a host read returns what is
stored, and no command writes either. -/
def Obligations.LengthWritesAreClamped : Prop :=
  (∀ (s : State) (rest : List HostEvent) (v : Nat),
    (s.pending = .access (.write .reg 3 v) :: rest →
      step s = .next { s with pending := rest, fbLen := min v s.params.fbCap, writes := s.writes + 1 }) ∧
    (s.pending = .access (.read .reg 3) :: rest →
      step s = .next { s with pending := rest, observed := ⟨.reg, 3, s.fbLen⟩ :: s.observed }) ∧
    (s.pending = .access (.write .reg 14 v) :: rest →
      step s = .next { s with pending := rest, keyLen := min v s.params.keyCap, writes := s.writes + 1 }) ∧
    (s.pending = .access (.read .reg 14) :: rest →
      step s = .next { s with pending := rest, observed := ⟨.reg, 14, s.keyLen⟩ :: s.observed })) ∧
  (∀ (i : Instr) (s t : State), exec i s = .next t → t.fbLen = s.fbLen ∧ t.keyLen = s.keyLen)

/-- R35: a host write of 0 or 1 to KEY_PRESENT stores it, a host read returns it, and with 0 DERIVE_ACCEPT raises
INVALID_HANDSHAKE_KEY. -/
def Obligations.KeyPresentTakesTheWrittenBit : Prop :=
  ∀ (s : State) (rest : List HostEvent) (b : BitVec 1),
    (s.pending = .access (.write .reg 15 b.toNat) :: rest →
      step s = .next { s with pending := rest, keyPresent := b, writes := s.writes + 1 }) ∧
    (s.pending = .access (.read .reg 15) :: rest →
      step s = .next { s with pending := rest, observed := ⟨.reg, 15, s.keyPresent.toNat⟩ :: s.observed }) ∧
    (s.keyPresent = 0 → ∃ t, exec .deriveAccept s = .next t ∧ t.err = ErrKind.code .invalidHandshakeKey)

/-- R37, R40, R52: a host write of one byte to FB or KEY below the size stores exactly that byte: the index reads as the
byte, every other index as before, nothing else changes. At or beyond the size it is ignored. -/
def Obligations.HostByteWritesStoreOneByte : Prop :=
  ∀ (s : State) (rest : List HostEvent) (i : Nat) (b : Byte),
    (s.pending = .access (.write .fb i b.toNat) :: rest → i < s.params.fbCap →
      ∃ t, step s = .next t ∧ (∀ a, t.fb.read a = if a = i then some b else s.fb.read a) ∧
        t = { s with pending := rest, fb := t.fb, writes := s.writes + 1 }) ∧
    (s.pending = .access (.write .key i b.toNat) :: rest → i < s.params.keyCap →
      ∃ t, step s = .next t ∧ (∀ a, t.key.read a = if a = i then some b else s.key.read a) ∧
        t = { s with pending := rest, key := t.key, writes := s.writes + 1 }) ∧
    (∀ v, s.pending = .access (.write .fb i v) :: rest → s.params.fbCap ≤ i →
      step s = .next { s with pending := rest, writes := s.writes + 1 }) ∧
    (∀ v, s.pending = .access (.write .key i v) :: rest → s.params.keyCap ≤ i →
      step s = .next { s with pending := rest, writes := s.writes + 1 })

/-- The host only reads OUT, ACC and TOK (R38, R39, R41, R50): the model ignores a write to them, its own reading of D27
(log 7). -/
def Obligations.WritesToReadOnlyBuffersAreIgnored : Prop :=
  ∀ (s : State) (rest : List HostEvent) (sp : Space) (i v : Nat), (sp = .out ∨ sp = .acc ∨ sp = .tok) →
    s.pending = .access (.write sp i v) :: rest →
    step s = .next { s with pending := rest, writes := s.writes + 1 }

/-- A host read of a byte returns what is stored where the rules specify it: below OUT_LEN in OUT, below ACC_LEN in ACC, in
TOK, and in all of FB and KEY; that the bytes of FB at or past FB_LEN and of KEY at or past KEY_LEN are read back is the
model's choice (log 6). A written byte of OUT or ACC at or past the length (R38, R39) reads as a free value that lasts until
the next write or command (R60; the model's, log 19), and a byte past the buffer's size (R52) or never written (R46) as a
free value drawn for this read (the model's, log 4). The statement holds whatever these values are. -/
def Obligations.HostByteReadsReturnStoredOrFreeBytes : Prop :=
  ∀ (s : State) (rest : List HostEvent) (sp : Space) (i : Nat), sp ≠ .reg →
    s.pending = .access (.read sp i) :: rest →
    (∀ b : Byte,
      ((sp = .fb ∧ i < s.params.fbCap ∧ s.fb.read i = some b) ∨ (sp = .key ∧ i < s.params.keyCap ∧ s.key.read i = some b) ∨
        (sp = .out ∧ i < s.params.fbCap ∧ i < s.outLen ∧ s.out.read i = some b) ∨
        (sp = .acc ∧ i < s.params.accCap ∧ i < s.accLen ∧ s.acc.read i = some b) ∨
        (sp = .tok ∧ i < 28 ∧ s.tok.read i = some b)) →
      step s = .next { s with pending := rest, observed := ⟨sp, i, b.toNat⟩ :: s.observed }) ∧
    (((sp = .out ∧ i < s.params.fbCap ∧ s.outLen ≤ i ∧ s.out.read i ≠ none) ∨
        (sp = .acc ∧ i < s.params.accCap ∧ s.accLen ≤ i ∧ s.acc.read i ≠ none)) →
      step s = .next { s with
        pending := rest
        observed := ⟨sp, i, (Config.staleByte s.inst s.writes sp i).toNat⟩ :: s.observed }) ∧
    (((sp = .fb ∧ (s.params.fbCap ≤ i ∨ s.fb.read i = none)) ∨ (sp = .key ∧ (s.params.keyCap ≤ i ∨ s.key.read i = none)) ∨
        (sp = .out ∧ (s.params.fbCap ≤ i ∨ s.out.read i = none)) ∨
        (sp = .acc ∧ (s.params.accCap ≤ i ∨ s.acc.read i = none)) ∨ (sp = .tok ∧ (28 ≤ i ∨ s.tok.read i = none))) →
      step s = .next { s with
        pending := rest
        draws := s.draws + 1
        observed := ⟨sp, i, (Config.freeByte s.inst s.draws).toNat⟩ :: s.observed })

/-- R60: two reads of one register or byte with only reads between them return the same value; the bytes excepted are those
past the buffer's size (R52) and those nothing has written (R46). -/
def Obligations.HostReadsAreIdempotent : Prop :=
  ∀ (s : State) (mid rest : List HostEvent) (sp : Space) (i : Nat),
    s.pending = .access (.read sp i) :: (mid ++ .access (.read sp i) :: rest) →
    (∀ e ∈ mid, ∃ sp' i', e = .access (.read sp' i')) →
    (sp = .reg ∨ (i < sp.size s.params ∧ (s.buffer sp).read i ≠ none)) →
    ∃ t v between, Sys2Proof.core.run (mid.length + 2) s = .next t ∧ between.length = mid.length ∧
      t = { s with pending := rest, observed := t.observed, draws := t.draws } ∧
      t.observed = ⟨sp, i, v⟩ :: (between ++ ⟨sp, i, v⟩ :: s.observed)

/-- R6, R60: a step whose event is neither a write to CMD nor the reset input changes no result register, no status, no
error and no result buffer: only FB_LEN, KEY_LEN, KEY_PRESENT, FB and KEY, which the host writes, can change. That a host
write to OUT, ACC or TOK is ignored is the model's choice (log 7). -/
def Obligations.OnlyCommandsAndResetWriteResults : Prop :=
  ∀ (s t : State) (e : HostEvent) (rest : List HostEvent), s.pending = e :: rest → step s = .next t →
    e ≠ .reset → (∀ v, e ≠ .access (.write .reg 0 v)) →
    t = { s with pending := rest, fbLen := t.fbLen, keyLen := t.keyLen, keyPresent := t.keyPresent, fb := t.fb,
                 key := t.key, observed := t.observed, draws := t.draws, writes := t.writes }

/-! ### The handshake key deriver -/

/-- R112: an absent key, then a key that is not UTF-8, fails with INVALID_HANDSHAKE_KEY and clears TOK_VALID; any other
key, the empty one included, puts the token into TOK and sets TOK_VALID. TOK outside [0, 28) is untouched. -/
def Obligations.DeriveAcceptFollowsItsRule : Prop :=
  ∀ s : State,
    (s.keyPresent = 0 → exec .deriveAccept s = .next { s with status := s.status &&& 0b0111, err := 3 }) ∧
    (s.keyPresent = 1 → utf8Valid s.keyBytes = false →
      exec .deriveAccept s = .next { s with status := s.status &&& 0b0111, err := 3 }) ∧
    (s.keyPresent = 1 → utf8Valid s.keyBytes = true →
      ∃ t, exec .deriveAccept s = .next t ∧ t.tokBytes = (base64 (sha1 (s.keyBytes ++ guid))).map some ∧
        (∀ a, 28 ≤ a → t.tok.read a = s.tok.read a) ∧
        t = { s with tok := t.tok, status := s.status ||| 0b1000, err := 0 })

/-- R114: DERIVE_ACCEPT is a pure function of (KEY_PRESENT, KEY_LEN, KEY[0..KEY_LEN-1]) and writes only TOK, TOK_VALID and
ERR: on any two states that agree on the key it ends alike, and on each it leaves everything else unchanged. -/
def Obligations.DeriveAcceptIsAPureFunctionOfTheKey : Prop :=
  ∀ s u : State, s.keyPresent = u.keyPresent → s.keyLen = u.keyLen → (∀ j < s.keyLen, s.keyByte j = u.keyByte j) →
    ∃ t v, exec .deriveAccept s = .next t ∧ exec .deriveAccept u = .next v ∧
      t.err = v.err ∧ t.flag .tokValid = v.flag .tokValid ∧ (t.err = 0 → t.tokBytes = v.tokBytes) ∧
      (∀ f, f ≠ .tokValid → t.flag f = s.flag f) ∧
      t = { s with tok := t.tok, status := t.status, err := t.err }

/-- R110: the token of every key is 28 bytes, the last '=', and the 27th the alphabet's character of a value whose low two
bits are zero. -/
def Obligations.TokenShape : Prop :=
  ∀ k : List Byte, (deriveAcceptToken k).length = 28 ∧ (deriveAcceptToken k)[27]? = some 0x3D ∧
    (∃ v : BitVec 6, v.extractLsb' 0 2 = 0 ∧ (deriveAcceptToken k)[26]? = some (alpha v)) ∧
    (∀ j < 27, ∃ v : BitVec 6, (deriveAcceptToken k)[j]? = some (alpha v))

/-- R101: a byte sequence is accepted exactly when it splits into characters of the nine rows of the table. -/
def Obligations.Utf8ValidExactlyWhenItSplitsIntoCharacters : Prop :=
  ∀ s : List Byte, utf8Valid s = true ↔ ∃ cs : List (List Byte), cs.flatten = s ∧ ∀ c ∈ cs, Utf8Char c

/-- R102: the padding is 0x80, the least number of zero bytes that reaches 56 modulo 64, and the 8-byte big-endian bit
count (a free value where the count does not fit, the model's choice of log 15); the result is whole 64-byte blocks. -/
def Obligations.Sha1PaddingIsTheLeast : Prop :=
  ∀ m : List Byte, ∃ (z : Nat) (f : List Byte),
    sha1Pad m = m ++ [0x80] ++ List.replicate z 0x00 ++ f ∧ f.length = 8 ∧
    (m.length + 1 + z) % 64 = 56 ∧ (∀ y < z, (m.length + 1 + y) % 64 ≠ 56) ∧
    (8 * m.length < 2 ^ 64 → be f = 8 * m.length) ∧ (sha1Pad m).length % 64 = 0

/-- R104: the message schedule: 80 words, the first 16 big-endian from the block, each later one by the recurrence. -/
def Obligations.Sha1ScheduleRecurrence : Prop :=
  ∀ M : List Byte, (sha1Schedule M).length = 80 ∧
    (∀ t < 16, (sha1Schedule M)[t]? = some (BitVec.ofNat 32
      ((byteAt M (4 * t)).toNat * 2 ^ 24 + (byteAt M (4 * t + 1)).toNat * 2 ^ 16 + (byteAt M (4 * t + 2)).toNat * 2 ^ 8 +
        (byteAt M (4 * t + 3)).toNat))) ∧
    (∀ t, 16 ≤ t → t < 80 → ∃ a b c d : Word32,
      (sha1Schedule M)[t - 3]? = some a ∧ (sha1Schedule M)[t - 8]? = some b ∧ (sha1Schedule M)[t - 14]? = some c ∧
      (sha1Schedule M)[t - 16]? = some d ∧ (sha1Schedule M)[t]? = some ((a ^^^ b ^^^ c ^^^ d).rotateLeft 1))

/-- R103, R105, R106, R107: the compression of a block is the 80 rounds in order, each with `f_t`, `K_t` and `W[t]`, added
to the hash value modulo 2^32; the digest is the five words after the last block of the padded message, from the initial
hash value through the blocks in order. -/
def Obligations.Sha1CompressesItsBlocksInOrder : Prop :=
  (∀ (h : Sha1State) (M : List Byte),
    let v := (List.range 80).foldl (fun (v : Sha1State) t =>
      let f : Word32 := if t ≤ 19 then (v.b &&& v.c) ^^^ (~~~v.b &&& v.d)
        else if 40 ≤ t ∧ t ≤ 59 then (v.b &&& v.c) ^^^ (v.b &&& v.d) ^^^ (v.c &&& v.d) else v.b ^^^ v.c ^^^ v.d
      let k : Word32 := if t ≤ 19 then 0x5A827999 else if t ≤ 39 then 0x6ED9EBA1 else if t ≤ 59 then 0x8F1BBCDC
        else 0xCA62C1D6
      ⟨v.a.rotateLeft 5 + f + v.e + k + (sha1Schedule M).getD t 0, v.a, v.b.rotateLeft 30, v.c, v.d⟩) h
    sha1Compress h M = ⟨h.a + v.a, h.b + v.b, h.c + v.c, h.d + v.d, h.e + v.e⟩) ∧
  (∀ m : List Byte, ∃ bs : List (List Byte), bs.flatten = sha1Pad m ∧ (∀ b ∈ bs, b.length = 64) ∧
    let h := bs.foldl sha1Compress ⟨0x67452301, 0xEFCDAB89, 0x98BADCFE, 0x10325476, 0xC3D2E1F0⟩
    ∃ d0 d1 d2 d3 d4 : List Byte, sha1 m = d0 ++ d1 ++ d2 ++ d3 ++ d4 ∧ d0.length = 4 ∧ d1.length = 4 ∧ d2.length = 4 ∧
      d3.length = 4 ∧ d4.length = 4 ∧ be d0 = h.a.toNat ∧ be d1 = h.b.toNat ∧ be d2 = h.c.toNat ∧ be d3 = h.d.toNat ∧
      be d4 = h.e.toNat)

/-- Base64 (R108, R109) loses nothing: two byte sequences with the same text are the same, and n bytes give
4·⌈n/3⌉ characters. -/
def Obligations.Base64IsInjective : Prop :=
  (∀ d e : List Byte, base64 d = base64 e → d = e) ∧ (∀ d : List Byte, (base64 d).length = 4 * ((d.length + 2) / 3))

/-! ### The frame header parser -/

/-- R137 with R131, R132, R133: what DECODE_LEN does on every frame buffer, tier by tier, and how it fails. -/
def Obligations.DecodeLenFollowsItsRule : Prop :=
  ∀ (s : State) (b0 b1 : Byte) (r : List Byte),
    (s.frame.length < 2 → exec .decodeLen s = .next { s with status := s.status &&& 0b1100, err := 1 }) ∧
    (s.frame = b0 :: b1 :: r →
      (b1.toNat % 128 < 126 →
        exec .decodeLen s = .next { s with
          hdrB0 := b0, hdrB1 := b1, hdrFin := BitVec.ofNat 1 (b0.toNat / 128), hdrLtier := 0,
          hdrPlen := BitVec.ofNat 64 (b1.toNat % 128), hdrMoff := 2,
          status := (s.status ||| 0b0001) &&& 0b1101, err := 0 }) ∧
      (b1.toNat % 128 = 126 → r.length < 2 →
        exec .decodeLen s = .next { s with status := s.status &&& 0b1100, err := 1 }) ∧
      (b1.toNat % 128 = 126 → ∀ x y q, r = x :: y :: q →
        exec .decodeLen s = .next { s with
          hdrB0 := b0, hdrB1 := b1, hdrFin := BitVec.ofNat 1 (b0.toNat / 128), hdrLtier := 1,
          hdrPlen := BitVec.ofNat 64 (x.toNat * 256 + y.toNat), hdrMoff := 4,
          status := (s.status ||| 0b0001) &&& 0b1101, err := 0 }) ∧
      (b1.toNat % 128 = 127 → r.length < 8 →
        exec .decodeLen s = .next { s with status := s.status &&& 0b1100, err := 1 }) ∧
      (b1.toNat % 128 = 127 → ∀ x0 x1 x2 x3 x4 x5 x6 x7 q, r = x0 :: x1 :: x2 :: x3 :: x4 :: x5 :: x6 :: x7 :: q →
        exec .decodeLen s = .next { s with
          hdrB0 := b0, hdrB1 := b1, hdrFin := BitVec.ofNat 1 (b0.toNat / 128), hdrLtier := 2,
          hdrPlen := x0 ++ x1 ++ x2 ++ x3 ++ x4 ++ x5 ++ x6 ++ x7, hdrMoff := 10,
          status := (s.status ||| 0b0001) &&& 0b1101, err := 0 }))

/-- R139 with R134: PARSE_HEADER latches what the length decode gives, the four bytes after the length region as the key
and the offset after them as payload offset, if they are all there, and otherwise fails with nothing latched. -/
def Obligations.ParseHeaderFollowsItsRule : Prop :=
  ∀ s : State,
    (∀ e, decodeLen s.frame = .error e →
      exec .parseHeader s = .next { s with status := s.status &&& 0b1100, err := 1 }) ∧
    (∀ r : LenInfo, decodeLen s.frame = .ok r →
      (s.frame.length < r.moff.toNat + 4 →
        exec .parseHeader s = .next { s with status := s.status &&& 0b1100, err := 1 }) ∧
      (∀ p q k0 k1 k2 k3, s.frame = p ++ k0 :: k1 :: k2 :: k3 :: q → p.length = r.moff.toNat →
        exec .parseHeader s = .next { s with
          hdrB0 := r.b0, hdrB1 := r.b1, hdrFin := r.fin, hdrLtier := r.tier, hdrPlen := r.plen, hdrMoff := r.moff,
          mkey := ⟨k0, k1, k2, k3⟩, hdrPoff := BitVec.ofNat 4 (r.moff.toNat + 4),
          status := s.status ||| 0b0011, err := 0 }))

/-- R136: the complete set of MALFORMED_FRAME conditions, and no other error. -/
def Obligations.MalformedFrameExactlyWhenShort : Prop :=
  ∀ fb : List Byte,
    (∀ e, decodeLen fb = .error e ↔ e = .malformedFrame ∧
      (fb.length < 2 ∨ ((byteAt fb 1).toNat % 128 = 126 ∧ fb.length < 4) ∨
        ((byteAt fb 1).toNat % 128 = 127 ∧ fb.length < 10))) ∧
    (∀ e, parseHdr fb = .error e ↔ e = .malformedFrame ∧
      (fb.length < 2 ∨ ((byteAt fb 1).toNat % 128 < 126 ∧ fb.length < 6) ∨
        ((byteAt fb 1).toNat % 128 = 126 ∧ fb.length < 8) ∨ ((byteAt fb 1).toNat % 128 = 127 ∧ fb.length < 14)))

/-- R141, R30: after a successful parse, by PARSE_HEADER or by INGEST, HDR_POFF is HDR_MOFF + 4, which is 6, 8 or 14, and at
most FB_LEN; equality is allowed. -/
def Obligations.ParsedPayloadOffsetIsInTheFrame : Prop :=
  (∀ (i : Instr) (s t : State), (i = .parseHeader ∨ i = .ingest) → exec i s = .next t → t.err = 0 →
    t.hdrPoff.toNat = t.hdrMoff.toNat + 4 ∧ (t.hdrPoff.toNat = 6 ∨ t.hdrPoff.toNat = 8 ∨ t.hdrPoff.toNat = 14) ∧
    t.hdrPoff.toNat ≤ t.fbLen) ∧
  (∀ (i : Instr) (n : Nat), (i = .parseHeader ∨ i = .ingest) → (n = 6 ∨ n = 8 ∨ n = 14) →
    ∃ s t : State, exec i s = .next t ∧ t.err = 0 ∧ t.fbLen = n ∧ t.hdrPoff.toNat = n)

/-- R145 and more: a header written in any tier, for any length the tier admits, minimal or not (R82), with any first
byte, either value of byte 1's ignored bit, any key and anything behind it, parses back to exactly these fields. -/
def Obligations.WireHeaderParsesBack : Prop :=
  ∀ (tier : BitVec 2) (b0 : Byte) (m : Bool) (len : Nat) (k : MaskKey) (tail : List Byte), tierAdmits tier len →
    ∃ r, parseHdr (wireHeader tier b0 m len k ++ tail) = .ok r ∧
      r.b0 = b0 ∧ r.b1.toNat = (if m then 128 else 0) + (if tier = 0 then len else if tier = 1 then 126 else 127) ∧
      r.fin.toNat = b0.toNat / 128 ∧ r.tier = tier ∧ r.plen.toNat = len ∧ r.mkey = k ∧
      r.moff.toNat + 4 = r.poff.toNat ∧ r.poff.toNat = (if tier = 0 then 6 else if tier = 1 then 8 else 14) ∧
      (wireHeader tier b0 m len k).length = r.poff.toNat

/-- R132: `fin` is bit 7 of byte 0, and bits 6:0 of byte 0 affect nothing but the latched byte; no more does bit 7 of byte
1 (R133, R143). -/
def Obligations.IgnoredHeaderBitsAffectNothing : Prop :=
  ∀ (b0 b0' b1 b1' : Byte) (q : List Byte), b0.toNat / 128 = b0'.toNat / 128 → b1.toNat % 128 = b1'.toNat % 128 →
    (∀ r, parseHdr (b0 :: b1 :: q) = .ok r → parseHdr (b0' :: b1' :: q) = .ok { r with b0 := b0', b1 := b1' }) ∧
    (∀ r, decodeLen (b0 :: b1 :: q) = .ok r →
      decodeLen (b0' :: b1' :: q) = .ok { r with b0 := b0', b1 := b1' } ∧ r.fin.toNat = b0.toNat / 128) ∧
    (∀ e, decodeLen (b0 :: b1 :: q) = .error e → decodeLen (b0' :: b1' :: q) = .error e)

/-- R144: a failed DECODE_LEN or PARSE_HEADER changes only LEN_VALID, HDR_VALID and ERR, and the command on any other FB
and FB_LEN then ends exactly as if it had been the first. -/
def Obligations.RetryEndsAsTheFirstTry : Prop :=
  ∀ (i : Instr) (s t : State), (i = .decodeLen ∨ i = .parseHeader) → exec i s = .next t → t.err ≠ 0 →
    t = { s with status := s.status &&& 0b1100, err := t.err } ∧
    ∀ (fb : Memory) (n : Nat), exec i { t with fb := fb, fbLen := n } = exec i { s with fb := fb, fbLen := n }

/-! ### The payload unmasker -/

/-- R162 with R160, R161: NO_HEADER first, then TRUNCATED_PAYLOAD with the sum taken in the naturals, and otherwise OUT
byte i is payload byte i XOR key byte i mod 4, with OUT at PLEN and beyond and everything else as before. -/
def Obligations.UnmaskFollowsItsRule : Prop :=
  ∀ s : State,
    (s.status.getLsbD 1 = false → exec .unmask s = .next { s with err := 5 }) ∧
    (s.status.getLsbD 1 = true → s.hdrPoff.toNat + s.hdrPlen.toNat > s.fbLen →
      exec .unmask s = .next { s with err := 2 }) ∧
    (s.status.getLsbD 1 = true → s.hdrPoff.toNat + s.hdrPlen.toNat ≤ s.fbLen →
      ∃ t, exec .unmask s = .next t ∧ t = { s with out := t.out, outLen := s.hdrPlen.toNat, err := 0 } ∧
        (∀ i < s.hdrPlen.toNat, t.out.read i = some (s.fbByte (s.hdrPoff.toNat + i) ^^^
          (if i % 4 = 0 then s.mkey.k0 else if i % 4 = 1 then s.mkey.k1 else if i % 4 = 2 then s.mkey.k2 else s.mkey.k3))) ∧
        (∀ a, s.hdrPlen.toNat ≤ a → t.out.read a = s.out.read a))

/-- R162: issuing UNMASK twice with no change in between gives the same OUT twice, and the same ERR. -/
def Obligations.UnmaskTwiceGivesTheSameOutput : Prop :=
  ∀ s : State, ∃ t u, exec .unmask s = .next t ∧ exec .unmask t = .next u ∧
    u.err = t.err ∧ u.outLen = t.outLen ∧ (∀ a, u.out.read a = t.out.read a)

/-- R163: what `unmaskFn` decodes from a frame that carries the masked payload, after any header bytes and before any
trailing bytes, is the payload. -/
def Obligations.UnmaskInvertsMask : Prop :=
  ∀ (h p tail : List Byte) (k : MaskKey),
    unmaskFn (h ++ maskBytes k p ++ tail) h.length p.length k = .ok p ∧ maskBytes k (maskBytes k p) = p

/-! ### The reassembly state machine -/

/-- R181 with R182, R190, R191: INGEST fails with MALFORMED_FRAME, then TRUNCATED_PAYLOAD, then ACC_OVERFLOW, changing
only LEN_VALID, HDR_VALID and ERR; otherwise it latches the header, writes OUT, appends to ACC at ACC_LEN, and sets
COMPLETE to FIN. OUT at PLEN and beyond, and ACC outside the appended bytes, are as before. -/
def Obligations.IngestFollowsItsRule : Prop :=
  ∀ s : State,
    (∀ e, parseHdr s.frame = .error e →
      exec .ingest s = .next { s with status := s.status &&& 0b1100, err := 1 }) ∧
    (∀ r : HdrInfo, parseHdr s.frame = .ok r →
      (r.poff.toNat + r.plen.toNat > s.fbLen →
        exec .ingest s = .next { s with status := s.status &&& 0b1100, err := 2 }) ∧
      (r.poff.toNat + r.plen.toNat ≤ s.fbLen → s.accLen + r.plen.toNat > s.params.accCap →
        exec .ingest s = .next { s with status := s.status &&& 0b1100, err := 6 }) ∧
      (r.poff.toNat + r.plen.toNat ≤ s.fbLen → s.accLen + r.plen.toNat ≤ s.params.accCap →
        ∃ t, exec .ingest s = .next t ∧
          t = { s with
            hdrB0 := r.b0, hdrB1 := r.b1, hdrFin := r.fin, hdrLtier := r.tier, hdrPlen := r.plen, hdrMoff := r.moff,
            mkey := r.mkey, hdrPoff := r.poff, out := t.out, outLen := r.plen.toNat, acc := t.acc,
            accLen := s.accLen + r.plen.toNat,
            status := if r.fin = 1 then s.status ||| 0b0111 else (s.status ||| 0b0011) &&& 0b1011, err := 0 } ∧
          (∀ i < r.plen.toNat, ∃ b, b = s.fbByte (r.poff.toNat + i) ^^^
              (if i % 4 = 0 then r.mkey.k0 else if i % 4 = 1 then r.mkey.k1 else if i % 4 = 2 then r.mkey.k2
                else r.mkey.k3) ∧
            t.out.read i = some b ∧ t.acc.read (s.accLen + i) = some b) ∧
          (∀ a, r.plen.toNat ≤ a → t.out.read a = s.out.read a) ∧
          (∀ a, a < s.accLen ∨ s.accLen + r.plen.toNat ≤ a → t.acc.read a = s.acc.read a)))

/-- D19, R180: an INGEST that succeeds leaves what PARSE_HEADER and then UNMASK leave, and beyond them only appends to ACC
and assigns COMPLETE. -/
def Obligations.IngestIsParseUnmaskAppend : Prop :=
  ∀ s t : State, exec .ingest s = .next t → t.err = 0 →
    ∃ p u, exec .parseHeader s = .next p ∧ exec .unmask p = .next u ∧
      t = { u with acc := t.acc, accLen := s.accLen + u.outLen,
                   status := if u.hdrFin = 1 then u.status ||| 0b0100 else u.status &&& 0b1011 } ∧
      t.accBytes = s.accBytes ++ u.outBytes

/-- R142: bytes at and past the frame end change nothing and cause no error: every command that succeeds with a frame in
FB, and an INGEST that ends in ACC_OVERFLOW, does the same with any bytes behind it. -/
def Obligations.BytesPastTheFrameEndAreNotRead : Prop :=
  ∀ (i : Instr) (s t : State) (fb : Memory) (n : Nat) (tail : List Byte),
    exec i s = .next t → (t.err = 0 ∨ t.err = 6) → ({ s with fb := fb, fbLen := n } : State).frame = s.frame ++ tail →
    exec i { s with fb := fb, fbLen := n } = .next { t with fb := fb, fbLen := n }

/-- R186: the transitions of the reassembly state machine, on COMPLETE and ACC[0..ACC_LEN-1]. -/
def Obligations.ReassemblyTransitions : Prop :=
  (∀ s t : State, exec .ingest s = .next t →
    (t.err = 0 → t.accBytes = s.accBytes ++ s.ingestPayload.map some ∧
      (t.status.getLsbD 2 = true ↔ (s.fbByte 0).toNat ≥ 128)) ∧
    (t.err ≠ 0 → t.accBytes = s.accBytes ∧ t.status.getLsbD 2 = s.status.getLsbD 2)) ∧
  (∀ s t : State, exec .clearAcc s = .next t → t.accBytes = [] ∧ t.status.getLsbD 2 = false) ∧
  (∀ (s t : State) (rest : List HostEvent), s.pending = .reset :: rest → step s = .next t →
    t.accBytes = [] ∧ t.status.getLsbD 2 = false) ∧
  (∀ (i : Instr) (s t : State), i ≠ .ingest → i ≠ .clearAcc → exec i s = .next t →
    t.accBytes = s.accBytes ∧ t.status.getLsbD 2 = s.status.getLsbD 2)

/-- R184: CLEAR_ACC always succeeds; afterwards no byte of ACC is specified. -/
def Obligations.ClearAccFollowsItsRule : Prop :=
  ∀ s : State, ∃ t, exec .clearAcc s = .next t ∧
    t = { s with accLen := 0, status := s.status &&& 0b1011, err := 0 } ∧ ∀ i, t.specifiedByte .acc i = none

/-- R187: over any run, from any state whose accumulator holds the message `c`, ACC[0..ACC_LEN-1] is `c`, or nothing since
the last reset or CLEAR_ACC, followed by the payloads of the INGESTs that succeeded since, in issue order. Two clauses are the model's choice: a CMD
write of a value that is no byte issues the command of a free byte (log 8), and a host write to ACC is ignored (log 7). -/
def Obligations.AccumulatorIsTheIngestedPayloads : Prop :=
  ∀ (n : Nat) (s t : State) (c : List Byte), s.accBytes = c.map some → Sys2Proof.core.run n s = .next t →
    t.accBytes = (runContent n s c).map some

/-- The source's round trip on the whole block (R163, R181, R88): a host program that loads a client's frame, in any tier
that admits the payload, and ingests it, from any state that has room, ends with the payload
appended to ACC, in OUT, and COMPLETE = FIN. -/
def Obligations.LoadedClientFrameIsIngested : Prop :=
  ∀ (s : State) (rest : List HostEvent) (tier : BitVec 2) (b0 : Byte) (m : Bool) (k : MaskKey) (p : List Byte),
    tierAdmits tier p.length → (clientFrame tier b0 m k p).length ≤ s.params.fbCap →
    s.accLen + p.length ≤ s.params.accCap →
    s.pending = (programAccesses [.frame (clientFrame tier b0 m k p), .cmd .ingest]).map .access ++ rest →
    ∃ t, Sys2Proof.core.run ((clientFrame tier b0 m k p).length + 2) s = .next t ∧ t.pending = rest ∧ t.err = 0 ∧
      t.accBytes = s.accBytes ++ p.map some ∧ t.outBytes = p.map some ∧
      (t.status.getLsbD 2 = true ↔ 128 ≤ b0.toNat) ∧ t.mkey = k ∧ t.hdrPlen.toNat = p.length

/-! ### Errors and STATUS -/

/-- R200, R201: every command ends, with ERR 0 or one of the codes it may raise. -/
def Obligations.EveryCommandEndsWithACodeItMayRaise : Prop :=
  ∀ s : State,
    (∃ t, exec .deriveAccept s = .next t ∧ (t.err = 0 ∨ t.err = 3)) ∧
    (∃ t, exec .decodeLen s = .next t ∧ (t.err = 0 ∨ t.err = 1)) ∧
    (∃ t, exec .parseHeader s = .next t ∧ (t.err = 0 ∨ t.err = 1)) ∧
    (∃ t, exec .unmask s = .next t ∧ (t.err = 0 ∨ t.err = 2 ∨ t.err = 5)) ∧
    (∃ t, exec .ingest s = .next t ∧ (t.err = 0 ∨ t.err = 1 ∨ t.err = 2 ∨ t.err = 6)) ∧
    (∃ t, exec .clearAcc s = .next t ∧ t.err = 0)

/-- R203: the state a failing command changes, command by command, the illegal word included. -/
def Obligations.FailingCommandsChangeOnlyTheListedState : Prop :=
  (∀ s t : State, exec .deriveAccept s = .next t → t.err ≠ 0 → t = { s with status := s.status &&& 0b0111, err := t.err }) ∧
  (∀ (i : Instr) (s t : State), (i = .decodeLen ∨ i = .parseHeader ∨ i = .ingest) → exec i s = .next t → t.err ≠ 0 →
    t = { s with status := s.status &&& 0b1100, err := t.err }) ∧
  (∀ s t : State, exec .unmask s = .next t → t.err ≠ 0 → t = { s with err := t.err }) ∧
  (∀ s t : State, exec .clearAcc s = .next t → t.err = 0) ∧
  (∀ (s t : State) (rest : List HostEvent) (w : Byte), s.pending = .access (.write .reg 0 w.toNat) :: rest →
    (∀ i, decode w ≠ .ok i) → step s = .next t →
    t = { s with pending := rest, cmd := w, err := t.err, writes := s.writes + 1 } ∧ t.err ≠ 0)

/-- R23: which command sets and clears which STATUS flag, and that HDR_VALID = 1 implies LEN_VALID = 1 is kept. -/
def Obligations.StatusFlagsFollowTheirTable : Prop :=
  ∀ (i : Instr) (s t : State), exec i s = .next t →
    ((i = .decodeLen ∨ i = .parseHeader ∨ i = .ingest) → (t.status.getLsbD 0 = true ↔ t.err = 0)) ∧
    ((i = .parseHeader ∨ i = .ingest) → (t.status.getLsbD 1 = true ↔ t.err = 0)) ∧
    (i = .decodeLen → t.status.getLsbD 1 = false) ∧
    ((i = .unmask ∨ i = .clearAcc ∨ i = .deriveAccept) →
      t.status.getLsbD 0 = s.status.getLsbD 0 ∧ t.status.getLsbD 1 = s.status.getLsbD 1) ∧
    (i = .ingest → t.err = 0 → (t.status.getLsbD 2 = true ↔ t.hdrFin = 1)) ∧
    (i = .ingest → t.err ≠ 0 → t.status.getLsbD 2 = s.status.getLsbD 2) ∧
    (i = .clearAcc → t.status.getLsbD 2 = false) ∧
    (i ≠ .ingest → i ≠ .clearAcc → t.status.getLsbD 2 = s.status.getLsbD 2) ∧
    (i = .deriveAccept → (t.status.getLsbD 3 = true ↔ t.err = 0)) ∧
    (i ≠ .deriveAccept → t.status.getLsbD 3 = s.status.getLsbD 3) ∧
    ((s.status.getLsbD 1 = true → s.status.getLsbD 0 = true) → t.status.getLsbD 1 = true → t.status.getLsbD 0 = true)

/-- R86, the writes column, as the frame of all six commands: what each leaves unchanged, every register by name, STATUS flag
by flag, and every byte of every buffer. The stored bytes are OUT[0..OUT_LEN-1] and ACC[ACC_LEN_before..ACC_LEN-1] of a success. -/
def Obligations.CommandsWriteOnlyTheirListedState : Prop :=
  ∀ (i : Instr) (s t : State), exec i s = .next t →
    t.params = s.params ∧ t.cmd = s.cmd ∧ t.fbLen = s.fbLen ∧ t.keyLen = s.keyLen ∧ t.keyPresent = s.keyPresent ∧
    t.pending = s.pending ∧ t.observed = s.observed ∧ t.draws = s.draws ∧ t.epoch = s.epoch ∧
    t.writes = s.writes ∧ t.inst = s.inst ∧
    (∀ a, t.fb.read a = s.fb.read a) ∧ (∀ a, t.key.read a = s.key.read a) ∧
    (i = .unmask → t.status = s.status) ∧
    (i ≠ .decodeLen → i ≠ .parseHeader → i ≠ .ingest →
      t.status.getLsbD 0 = s.status.getLsbD 0 ∧ t.status.getLsbD 1 = s.status.getLsbD 1) ∧
    (i ≠ .ingest → i ≠ .clearAcc → t.status.getLsbD 2 = s.status.getLsbD 2) ∧
    (i ≠ .deriveAccept → t.status.getLsbD 3 = s.status.getLsbD 3) ∧
    (i ≠ .decodeLen → i ≠ .parseHeader → i ≠ .ingest →
      t.hdrB0 = s.hdrB0 ∧ t.hdrB1 = s.hdrB1 ∧ t.hdrFin = s.hdrFin ∧ t.hdrLtier = s.hdrLtier ∧ t.hdrPlen = s.hdrPlen ∧
      t.hdrMoff = s.hdrMoff) ∧
    (i ≠ .parseHeader → i ≠ .ingest → t.hdrPoff = s.hdrPoff ∧ t.mkey = s.mkey) ∧
    (i ≠ .unmask → i ≠ .ingest → t.outLen = s.outLen ∧ ∀ a, t.out.read a = s.out.read a) ∧
    (∀ a, t.err ≠ 0 ∨ t.outLen ≤ a → t.out.read a = s.out.read a) ∧
    (i ≠ .ingest → i ≠ .clearAcc → t.accLen = s.accLen) ∧
    (i ≠ .ingest → ∀ a, t.acc.read a = s.acc.read a) ∧
    (∀ a, t.err ≠ 0 ∨ a < s.accLen ∨ t.accLen ≤ a → t.acc.read a = s.acc.read a) ∧
    (i ≠ .deriveAccept → ∀ a, t.tok.read a = s.tok.read a) ∧
    (∀ a, t.err ≠ 0 ∨ 28 ≤ a → t.tok.read a = s.tok.read a)

/-- R53: no command reads FB at FB_LEN or beyond or KEY at KEY_LEN or beyond: whatever stands there, it ends alike. None
writes OUT at FB_CAP or ACC at ACC_CAP or beyond, in a state that meets the invariant. -/
def Obligations.CommandsStayInsideTheirBuffers : Prop :=
  (∀ (i : Instr) (s t : State) (fb key : Memory), exec i s = .next t →
    (∀ j < s.fbLen, fb.read j = s.fb.read j) → (∀ j < s.keyLen, key.read j = s.key.read j) →
    exec i { s with fb := fb, key := key } = .next { t with fb := fb, key := key }) ∧
  (∀ (i : Instr) (s t : State), s.Inv → exec i s = .next t →
    (∀ a, s.params.fbCap ≤ a → t.out.read a = s.out.read a) ∧ (∀ a, s.params.accCap ≤ a → t.acc.read a = s.acc.read a))

/-! ### Reset, idling, agents, instances -/

/-- R230: the reset event gives every register its reset value and leaves no buffer byte specified. -/
def Obligations.ResetEventGivesTheResetValues : Prop :=
  ∀ (s : State) (rest : List HostEvent), s.pending = .reset :: rest →
    ∃ t, step s = .next t ∧ t.cmd = 0x00 ∧ t.err = 0 ∧ t.status = 0b0000 ∧ t.fbLen = 0 ∧ t.hdrB0 = 0x00 ∧ t.hdrB1 = 0x00 ∧
      t.hdrFin = 0 ∧ t.hdrLtier = 0 ∧ t.hdrPlen = 0 ∧ t.hdrMoff = 0 ∧ t.hdrPoff = 0 ∧ t.mkey = ⟨0x00, 0x00, 0x00, 0x00⟩ ∧
      t.outLen = 0 ∧ t.accLen = 0 ∧ t.keyLen = 0 ∧ t.keyPresent = 0 ∧ ∀ sp i, t.specifiedByte sp i = none

/-- R20, R230, R232: `State.reset` has the same values, and the commands on it end as R235 says: MALFORMED_FRAME for the
frame commands, NO_HEADER for UNMASK, INVALID_HANDSHAKE_KEY for DERIVE_ACCEPT. -/
def Obligations.CommandsRightAfterReset : Prop :=
  let s := State.reset
  s.cmd = 0x00 ∧ s.err = 0 ∧ s.status = 0b0000 ∧ s.fbLen = 0 ∧ s.hdrB0 = 0x00 ∧ s.hdrB1 = 0x00 ∧ s.hdrFin = 0 ∧
    s.hdrLtier = 0 ∧ s.hdrPlen = 0 ∧ s.hdrMoff = 0 ∧ s.hdrPoff = 0 ∧ s.mkey.packed = 0x00000000 ∧ s.outLen = 0 ∧
    s.accLen = 0 ∧ s.keyLen = 0 ∧ s.keyPresent = 0 ∧
    exec .decodeLen s = .next { s with err := 1 } ∧ exec .parseHeader s = .next { s with err := 1 } ∧
    exec .ingest s = .next { s with err := 1 } ∧ exec .unmask s = .next { s with err := 5 } ∧
    exec .deriveAccept s = .next { s with err := 3 } ∧ exec .clearAcc s = .next s

/-- The model's reading of R214 and R233 (log 10): with no host event pending the block keeps all its state. -/
def Obligations.IdleBlockKeepsItsState : Prop :=
  ∀ s : State, s.pending = [] → step s = .next s

/-- R208, R64: every step completes, except that an access by a second agent is refused by name; no step changes the
implementation parameters (log 3) or the number of the instance (log 18), which are the model's fields. -/
def Obligations.EveryStepCompletesUnlessASecondAgentDrives : Prop :=
  ∀ s : State, ((∃ rest, s.pending = .secondAgent :: rest) → step s = .refused .secondAgent) ∧
    ((∀ rest, s.pending ≠ .secondAgent :: rest) → ∃ t, step s = .next t ∧ t.params = s.params ∧ t.inst = s.inst)

/-- R241, R208 over whole runs: as long as only one agent drives the instance, every run completes, its events are taken
one a step, oldest first (R63), and the record of reads only grows, through a reset too (the model's fields, log 2 and
log 12). -/
def Obligations.OneAgentRunsComplete : Prop :=
  ∀ (n : Nat) (s : State), s.oneAgent →
    ∃ t, Sys2Proof.core.run n s = .next t ∧ t.pending = s.pending.drop n ∧ s.observed <:+ t.observed

/-- The state right after reset meets the invariant, for any capacities R9 allows, as one instance and in a system. -/
def Obligations.InvariantHoldsAtReset : Prop :=
  State.reset.Inv ∧ (∀ p : Params, p.ok → (State.resetWith p).Inv) ∧
  ∀ ps : List Params, (∀ p ∈ ps, p.ok) → ∀ s ∈ systemReset ps, s.Inv

/-- Every step keeps the invariant. -/
def Obligations.EveryStepKeepsTheInvariant : Prop :=
  ∀ s t : State, s.Inv → step s = .next t → t.Inv

/-- R45, bullet by bullet, in every state a host can reach from reset, whatever the capacities. -/
def Obligations.ReachableStatesMeetR45 : Prop :=
  ∀ (p : Params) (events : List HostEvent) (n : Nat) (t : State), p.ok →
    Sys2Proof.core.run n { State.resetWith p with pending := events } = .next t →
    (t.fbLen ≤ p.fbCap ∧ t.keyLen ≤ p.keyCap ∧ t.accLen ≤ p.accCap ∧ t.outLen ≤ p.fbCap - 6) ∧
    (t.status.getLsbD 0 = true →
      ((t.hdrLtier = 0 ∧ t.hdrMoff = 2 ∧ t.hdrB1.toNat % 128 < 126) ∨ (t.hdrLtier = 1 ∧ t.hdrMoff = 4 ∧ t.hdrB1.toNat % 128 = 126) ∨
        (t.hdrLtier = 2 ∧ t.hdrMoff = 10 ∧ t.hdrB1.toNat % 128 = 127)) ∧ t.hdrFin.toNat = t.hdrB0.toNat / 128) ∧
    (t.status.getLsbD 1 = true → t.status.getLsbD 0 = true ∧ t.hdrPoff.toNat = t.hdrMoff.toNat + 4) ∧
    (t.hdrLtier = 0 → t.status.getLsbD 0 = true → t.hdrPlen.toNat = t.hdrB1.toNat % 128 ∧ t.hdrB1.toNat % 128 ≤ 125) ∧
    t.err.toNat ≤ 6

/-- R9: in a state that meets the invariant the length registers fit their widths LW, AW and KW, and each of the three is the
least width that holds every value up to its capacity. -/
def Obligations.LengthRegistersFitTheirWidths : Prop :=
  ∀ s : State, s.Inv →
    s.fbLen < 2 ^ s.params.lw ∧ s.outLen < 2 ^ s.params.lw ∧ s.accLen < 2 ^ s.params.aw ∧ s.keyLen < 2 ^ s.params.kw ∧
    ∀ w, (s.params.fbCap < 2 ^ w ↔ s.params.lw ≤ w) ∧ (s.params.accCap < 2 ^ w ↔ s.params.aw ≤ w) ∧
      (s.params.keyCap < 2 ^ w ↔ s.params.kw ≤ w)

/-- R69: separate instances share nothing: a step of one leaves every other as it was, and what it does to its own state
does not depend on the others. -/
def Obligations.InstancesDoNotInterfere : Prop :=
  ∀ (sys sys' : List State) (k : Nat), systemStep k sys = .next sys' →
    (∀ j, j ≠ k → sys'[j]? = sys[j]?) ∧ sys'.length = sys.length ∧
    (∀ s, sys[k]? = some s → ∃ t, step s = .next t ∧ sys'[k]? = some t)

/-! ### Codec and host programs -/

/-- R73: the bit-string codec agrees with the block's integer arithmetic. -/
def Obligations.BitCodecAgreesWithIntegerArithmetic : Prop :=
  (∀ s : List Byte, bitsToInteger (bufferToBits s) = some (be s)) ∧
  (∀ b : Byte, bitsToInteger ((byteToBits b).drop 1) = some (rawLength b) ∧
    (byteToBits b)[0]? = some (if b.toNat ≥ 128 then '1' else '0'))

/-- R13: `BE` is the sum of the bytes times powers of 256, first byte most significant, and `beBytes` inverts it. -/
def Obligations.BigEndianIsThePowerSum : Prop :=
  (∀ bs : List Byte, be bs = ((List.range bs.length).map fun k => (byteAt bs k).toNat * 256 ^ (bs.length - 1 - k)).sum) ∧
  (∀ n v : Nat, be (beBytes n v) = v % 256 ^ n)

/-- R88: the program `FRAME` leaves the given bytes as the frame, and `KEY` as the key with KEY_PRESENT = 1, from any state
with room, and neither changes a result register, STATUS, ERR or a result buffer. -/
def Obligations.FrameAndKeyProgramsLoadTheirBytes : Prop :=
  ∀ (s : State) (rest : List HostEvent) (bs : List Byte),
    (s.pending = (programAccesses [.frame bs]).map .access ++ rest → bs.length ≤ s.params.fbCap →
      ∃ t, Sys2Proof.core.run (bs.length + 1) s = .next t ∧ t.frame = bs ∧
        (∀ a, bs.length ≤ a → t.fb.read a = s.fb.read a) ∧
        t = { s with pending := rest, fb := t.fb, fbLen := bs.length, writes := s.writes + bs.length + 1 }) ∧
    (s.pending = (programAccesses [.key bs]).map .access ++ rest → bs.length ≤ s.params.keyCap →
      ∃ t, Sys2Proof.core.run (bs.length + 2) s = .next t ∧ t.keyBytes = bs ∧
        (∀ a, bs.length ≤ a → t.key.read a = s.key.read a) ∧
        t = { s with
          pending := rest, key := t.key, keyLen := bs.length, keyPresent := 1, writes := s.writes + bs.length + 2 })

/-- R239: a host that keeps the duty gets the parsed frame's payload: if the latched header is the header of the frame in
FB, UNMASK ends as the parse and unmask of that frame do; and no write to FB or FB_LEN clears HDR_VALID or changes the
latched header. -/
def Obligations.UnmaskWithACurrentHeaderDecodesTheFrame : Prop :=
  (∀ (s : State) (r : HdrInfo), s.headerCurrent → parseHdr s.frame = .ok r → r.poff.toNat + r.plen.toNat ≤ s.fbLen →
    ∃ t, exec .unmask s = .next t ∧ t.err = 0 ∧
      t.outBytes = (List.range r.plen.toNat).map fun i =>
        some (s.fbByte (r.poff.toNat + i) ^^^ r.mkey.byteFor i)) ∧
  (∀ (s t : State) (rest : List HostEvent) (e : HostEvent),
    ((∃ i v, e = .access (.write .fb i v)) ∨ ∃ v, e = .access (.write .reg 3 v)) → s.pending = e :: rest →
    step s = .next t → t.latched = s.latched ∧ t.status = s.status)

/-- R108, R109: the alphabet in order, and which six bits each character of a group encodes; a last group of two bytes or of
one is padded with zero bytes, its characters without data replaced by '='. -/
def Obligations.Base64FollowsItsRule : Prop :=
  (∀ v : BitVec 6,
    ("ABCDEFGHIJKLMNOPQRSTUVWXYZabcdefghijklmnopqrstuvwxyz0123456789+/".toList[v.toNat]?).map
      (fun c => BitVec.ofNat 8 c.toNat) = some (alpha v)) ∧
  base64 [] = [] ∧
  (∀ (g0 g1 g2 : Byte) (r : List Byte), ∃ c0 c1 c2 c3 : BitVec 6,
    c0.toNat * 2 ^ 18 + c1.toNat * 2 ^ 12 + c2.toNat * 2 ^ 6 + c3.toNat =
      g0.toNat * 2 ^ 16 + g1.toNat * 2 ^ 8 + g2.toNat ∧
    base64 (g0 :: g1 :: g2 :: r) = alpha c0 :: alpha c1 :: alpha c2 :: alpha c3 :: base64 r ∧
    (g2 = 0 → base64 [g0, g1] = [alpha c0, alpha c1, alpha c2, 0x3D]) ∧
    (g1 = 0 → g2 = 0 → base64 [g0] = [alpha c0, alpha c1, 0x3D, 0x3D]))
end

