-- ==== Sys2Proof/Laws/Memory.lean ====
section
/-! SUPPORT. The laws of buffer memory (`20_memory.md` R52, R63): a read after a write, and that every operation keeps the
canonical form and the bounds. -/

namespace Sys2Proof.Machine

@[simp] theorem Memory.read_nil (x : Nat) : Memory.read [] x = none := rfl

theorem Memory.read_write_same (m : Memory) (x : Nat) (v : Byte) : (m.write x v).read x = some v := by
  induction m with
  | nil => simp [Memory.write, Memory.read]
  | cons c m ih =>
    obtain ⟨a, b⟩ := c
    simp only [Memory.write]
    split
    · simp [Memory.read]
    · split
      · simp [Memory.read]
      · simp [Memory.read, *]

theorem Memory.read_write_other (m : Memory) {x y : Nat} (v : Byte) (h : y ≠ x) :
    (m.write x v).read y = m.read y := by
  induction m with
  | nil => simp [Memory.write, Memory.read, h]
  | cons c m ih =>
    obtain ⟨a, b⟩ := c
    simp only [Memory.write]
    split
    · simp [Memory.read, h]
    · split
      · subst x; simp [Memory.read, h]
      · simp only [Memory.read, ih]

theorem Memory.read_write (m : Memory) (x y : Nat) (v : Byte) :
    (m.write x v).read y = if y = x then some v else m.read y := by
  split
  · subst y; exact m.read_write_same x v
  · exact m.read_write_other v ‹_›

/-- A cell of a written memory is the new cell or an old one. -/
theorem Memory.mem_write {m : Memory} {x : Nat} {v : Byte} {c : Host.Cell} (h : c ∈ m.write x v) :
    c = (x, v) ∨ c ∈ m := by
  induction m with
  | nil => simpa [Memory.write] using h
  | cons d m ih =>
    obtain ⟨a, b⟩ := d
    simp only [Memory.write] at h
    split at h
    · simpa using h
    · split at h
      · simp only [List.mem_cons] at h ⊢; tauto
      · simp only [List.mem_cons] at h ⊢
        rcases h with h | h
        · exact .inr (.inl h)
        · rcases ih h with h | h
          · exact .inl h
          · exact .inr (.inr h)

/-- A write keeps the canonical form. -/
theorem Memory.wf_write {m : Memory} (h : m.wf) (x : Nat) (v : Byte) : (m.write x v).wf := by
  induction m with
  | nil => simp [Memory.write, Memory.wf]
  | cons c m ih =>
    obtain ⟨a, b⟩ := c
    obtain ⟨h1, h2⟩ := List.pairwise_cons.mp h
    simp only [Memory.write]
    split
    · next hx =>
      refine List.pairwise_cons.mpr ⟨fun d hd => ?_, h⟩
      rcases List.mem_cons.mp hd with rfl | hd
      · exact hx
      · exact Nat.lt_trans hx (h1 d hd)
    · split
      · next hx => subst hx; exact List.pairwise_cons.mpr ⟨h1, h2⟩
      · refine List.pairwise_cons.mpr ⟨fun d hd => ?_, ih h2⟩
        rcases Memory.mem_write hd with rfl | hd
        · show a < x; omega
        · exact h1 d hd

/-- A write below a bound keeps the bound. -/
theorem Memory.within_write {m : Memory} {n : Nat} (h : m.within n) {x : Nat} (hx : x < n) (v : Byte) :
    (m.write x v).within n := by
  intro c hc
  rcases Memory.mem_write hc with rfl | hc
  · exact hx
  · exact h c hc

theorem Memory.wf_writeBytes {m : Memory} (h : m.wf) (j : Nat) (bs : List Byte) : (m.writeBytes j bs).wf := by
  induction bs generalizing m j with
  | nil => exact h
  | cons b bs ih => exact ih (Memory.wf_write h j b) (j + 1)

theorem Memory.within_writeBytes {m : Memory} {n : Nat} (h : m.within n) {j : Nat} {bs : List Byte}
    (hj : j + bs.length ≤ n) : (m.writeBytes j bs).within n := by
  induction bs generalizing m j with
  | nil => exact h
  | cons b bs ih =>
    simp only [List.length_cons] at hj
    exact ih (Memory.within_write h (by omega) b) (by omega)

/-- What a run of bytes leaves at every index: the run inside, the old byte outside. -/
theorem Memory.read_writeBytes (m : Memory) (j : Nat) (bs : List Byte) (y : Nat) :
    (m.writeBytes j bs).read y = if j ≤ y ∧ y < j + bs.length then bs[y - j]? else m.read y := by
  induction bs generalizing m j with
  | nil => simp only [Memory.writeBytes, List.length_nil]; split <;> [omega; rfl]
  | cons b bs ih =>
    simp only [Memory.writeBytes, ih, Memory.read_write, List.length_cons]
    by_cases h1 : y = j
    · subst h1; simp
    · by_cases h2 : j ≤ y
      · obtain ⟨k, rfl⟩ : ∃ k, y = j + 1 + k := ⟨y - (j + 1), by omega⟩
        simp only [h1, if_false]
        rw [show j + 1 + k - j = k + 1 by omega, show j + 1 + k - (j + 1) = k by omega, List.getElem?_cons_succ]
        by_cases h3 : k < bs.length
        · rw [if_pos (by omega), if_pos (by omega)]
        · rw [if_neg (by omega), if_neg (by omega)]
      · rw [if_neg (by omega), if_neg h1, if_neg (by omega)]

/-- Reading back a run of bytes written behind the first `j` (R183: appending). -/
theorem Memory.map_read_writeBytes (m : Memory) (j : Nat) (bs : List Byte) :
    (List.range (j + bs.length)).map (m.writeBytes j bs).read = (List.range j).map m.read ++ bs.map some := by
  apply List.ext_getElem?
  intro i
  by_cases h : i < j
  · rw [List.getElem?_append_left (by simpa using h)]
    simp [h, show i < j + bs.length by omega, Memory.read_writeBytes]
  · obtain ⟨k, rfl⟩ : ∃ k, i = j + k := ⟨i - j, by omega⟩
    rw [List.getElem?_append_right (by simp)]
    by_cases hk : k < bs.length
    · simp [hk, Memory.read_writeBytes]
    · simp [hk]

/-- A listed byte is the byte of a cell. -/
theorem Memory.mem_of_read {m : Memory} {x : Nat} {b : Byte} (h : m.read x = some b) : (x, b) ∈ m := by
  induction m with
  | nil => simp at h
  | cons c m ih =>
    obtain ⟨a, d⟩ := c
    simp only [Memory.read] at h
    split at h
    · next hx => subst hx; simp_all
    · exact List.mem_cons_of_mem _ (ih h)

/-- In a buffer of `n` bytes nothing is listed at or past `n`. -/
theorem Memory.read_within {m : Memory} {n x : Nat} (h : m.within n) (hx : n ≤ x) : m.read x = none := by
  cases hr : m.read x with
  | none => rfl
  | some b => exact absurd (h _ (Memory.mem_of_read hr)) (by simp only; omega)

end Sys2Proof.Machine
end

