-- ==== Sys2Proof/Laws/Bytes.lean ====
section
/-! SUPPORT. Small laws of byte sequences, big-endian values (`00_scope.md` R13) and header bits (`41_frame_header.md`
R132, R133), and of the frame and key bytes read from a state. -/

namespace Sys2Proof.Machine

/-- The value of a concatenation, high part first (R13: `{a, b}`). -/
theorem toNat_append_eq {n m : Nat} (x : BitVec n) (y : BitVec m) : (x ++ y).toNat = x.toNat * 2 ^ m + y.toNat := by
  rw [BitVec.toNat_append, ← Nat.shiftLeft_add_eq_or_of_lt y.isLt, Nat.shiftLeft_eq]

theorem rawLength_eq (b : Byte) : rawLength b = b.toNat % 128 := by
  simp [rawLength, BitVec.extractLsb'_toNat]

theorem finBit_eq (b : Byte) : finBit b = BitVec.ofNat 1 (b.toNat / 128) := by
  revert b; decide +kernel

theorem finBit_toNat (b : Byte) : (finBit b).toNat = b.toNat / 128 := by
  revert b; decide +kernel

@[simp] theorem be_nil : be [] = 0 := rfl

/-- One more byte at the end. -/
theorem be_concat (bs : List Byte) (b : Byte) : be (bs ++ [b]) = be bs * 256 + b.toNat := by
  simp [be]

/-- The first bytes weigh more. -/
theorem be_append (as bs : List Byte) : be (as ++ bs) = be as * 256 ^ bs.length + be bs := by
  induction bs using List.reverseRecOn with
  | nil => simp
  | append_singleton bs b ih =>
    rw [← List.append_assoc, be_concat, ih, be_concat, List.length_append, List.length_singleton]
    ring

theorem be_cons (b : Byte) (bs : List Byte) : be (b :: bs) = b.toNat * 256 ^ bs.length + be bs := by
  simpa [be] using be_append [b] bs

theorem be_lt (bs : List Byte) : be bs < 256 ^ bs.length := by
  induction bs with
  | nil => simp
  | cons b bs ih =>
    rw [be_cons, List.length_cons, Nat.pow_succ]
    have := b.isLt
    nlinarith [Nat.pow_pos (n := bs.length) (show 0 < 256 by omega)]

@[simp] theorem length_beBytes (n v : Nat) : (beBytes n v).length = n := by simp [beBytes]

/-- A byte in range is the list's element. -/
theorem byteAt_of_getElem? {bs : List Byte} {j : Nat} {b : Byte} (h : bs[j]? = some b) : byteAt bs j = b := by
  simp [byteAt, h]

theorem byteAt_append_left (as bs : List Byte) {j : Nat} (h : j < as.length) : byteAt (as ++ bs) j = byteAt as j := by
  simp [byteAt, List.getElem?_append_left h]

theorem byteAt_append_right (as bs : List Byte) (j : Nat) : byteAt (as ++ bs) (as.length + j) = byteAt bs j := by
  simp [byteAt, List.getElem?_append_right]

@[simp] theorem State.length_frame (s : State) : s.frame.length = s.fbLen := by simp [State.frame]

/-- Byte `j` of the frame is `FB[j]` (R130). -/
theorem State.byteAt_frame (s : State) {j : Nat} (h : j < s.fbLen) : byteAt s.frame j = s.fbByte j := by
  simp [byteAt, State.frame, h]

@[simp] theorem State.length_keyBytes (s : State) : s.keyBytes.length = s.keyLen := by simp [State.keyBytes]

/-- The frame depends only on FB_LEN and the bytes below it (R53, R130). -/
theorem State.frame_congr {s t : State} (h : s.fbLen = t.fbLen) (hb : ∀ j < s.fbLen, s.fbByte j = t.fbByte j) :
    s.frame = t.frame := by
  unfold State.frame
  rw [← h]
  exact List.map_congr_left fun j hj => hb j (List.mem_range.mp hj)

/-- The key depends only on KEY_LEN and the bytes below it (R53, R112). -/
theorem State.keyBytes_congr {s t : State} (h : s.keyLen = t.keyLen) (hb : ∀ j < s.keyLen, s.keyByte j = t.keyByte j) :
    s.keyBytes = t.keyBytes := by
  unfold State.keyBytes
  rw [← h]
  exact List.map_congr_left fun j hj => hb j (List.mem_range.mp hj)

end Sys2Proof.Machine
end

