-- ==== Sys2Proof/Laws/State.lean ====
section
/-! SUPPORT. What every named update of the state does to every field, and to every value computed from the state that it
leaves alone: one lemma each, true by rfl. The composed updates are rewritten to the basic ones. -/

namespace Sys2Proof.Machine

variable (s : State)

@[simp] theorem State.raise_eq (e : ErrKind) : s.raise e = s.setErr e.code := rfl
@[simp] theorem State.succeed_eq : s.succeed = s.setErr 0 := rfl
@[simp] theorem State.failFrame_eq (e : ErrKind) :
    s.failFrame e = ((s.setFlag .lenValid false).setFlag .hdrValid false).setErr e.code := rfl
@[simp] theorem State.failKey_eq : s.failKey = (s.setFlag .tokValid false).setErr 3 := rfl
@[simp] theorem State.latchHdr_eq (r : HdrInfo) :
    s.latchHdr r = (((s.latchLen r.toLenInfo).latchKey r.mkey r.poff).setFlag .lenValid true).setFlag .hdrValid true := rfl

/-! ### setErr -/

@[simp] theorem State.setErr_params (v : BitVec 4) : (s.setErr v).params = s.params := rfl
@[simp] theorem State.setErr_cmd (v : BitVec 4) : (s.setErr v).cmd = s.cmd := rfl
@[simp] theorem State.setErr_err (v : BitVec 4) : (s.setErr v).err = v := rfl
@[simp] theorem State.setErr_status (v : BitVec 4) : (s.setErr v).status = s.status := rfl
@[simp] theorem State.setErr_fbLen (v : BitVec 4) : (s.setErr v).fbLen = s.fbLen := rfl
@[simp] theorem State.setErr_hdrB0 (v : BitVec 4) : (s.setErr v).hdrB0 = s.hdrB0 := rfl
@[simp] theorem State.setErr_hdrB1 (v : BitVec 4) : (s.setErr v).hdrB1 = s.hdrB1 := rfl
@[simp] theorem State.setErr_hdrFin (v : BitVec 4) : (s.setErr v).hdrFin = s.hdrFin := rfl
@[simp] theorem State.setErr_hdrLtier (v : BitVec 4) : (s.setErr v).hdrLtier = s.hdrLtier := rfl
@[simp] theorem State.setErr_hdrPlen (v : BitVec 4) : (s.setErr v).hdrPlen = s.hdrPlen := rfl
@[simp] theorem State.setErr_hdrMoff (v : BitVec 4) : (s.setErr v).hdrMoff = s.hdrMoff := rfl
@[simp] theorem State.setErr_hdrPoff (v : BitVec 4) : (s.setErr v).hdrPoff = s.hdrPoff := rfl
@[simp] theorem State.setErr_mkey (v : BitVec 4) : (s.setErr v).mkey = s.mkey := rfl
@[simp] theorem State.setErr_outLen (v : BitVec 4) : (s.setErr v).outLen = s.outLen := rfl
@[simp] theorem State.setErr_accLen (v : BitVec 4) : (s.setErr v).accLen = s.accLen := rfl
@[simp] theorem State.setErr_keyLen (v : BitVec 4) : (s.setErr v).keyLen = s.keyLen := rfl
@[simp] theorem State.setErr_keyPresent (v : BitVec 4) : (s.setErr v).keyPresent = s.keyPresent := rfl
@[simp] theorem State.setErr_fb (v : BitVec 4) : (s.setErr v).fb = s.fb := rfl
@[simp] theorem State.setErr_out (v : BitVec 4) : (s.setErr v).out = s.out := rfl
@[simp] theorem State.setErr_acc (v : BitVec 4) : (s.setErr v).acc = s.acc := rfl
@[simp] theorem State.setErr_key (v : BitVec 4) : (s.setErr v).key = s.key := rfl
@[simp] theorem State.setErr_tok (v : BitVec 4) : (s.setErr v).tok = s.tok := rfl
@[simp] theorem State.setErr_pending (v : BitVec 4) : (s.setErr v).pending = s.pending := rfl
@[simp] theorem State.setErr_observed (v : BitVec 4) : (s.setErr v).observed = s.observed := rfl
@[simp] theorem State.setErr_draws (v : BitVec 4) : (s.setErr v).draws = s.draws := rfl
@[simp] theorem State.setErr_epoch (v : BitVec 4) : (s.setErr v).epoch = s.epoch := rfl
@[simp] theorem State.setErr_writes (v : BitVec 4) : (s.setErr v).writes = s.writes := rfl
@[simp] theorem State.setErr_inst (v : BitVec 4) : (s.setErr v).inst = s.inst := rfl
@[simp] theorem State.setErr_frame (v : BitVec 4) : (s.setErr v).frame = s.frame := rfl
@[simp] theorem State.setErr_keyBytes (v : BitVec 4) : (s.setErr v).keyBytes = s.keyBytes := rfl
@[simp] theorem State.setErr_outBytes (v : BitVec 4) : (s.setErr v).outBytes = s.outBytes := rfl
@[simp] theorem State.setErr_accBytes (v : BitVec 4) : (s.setErr v).accBytes = s.accBytes := rfl
@[simp] theorem State.setErr_tokBytes (v : BitVec 4) : (s.setErr v).tokBytes = s.tokBytes := rfl
@[simp] theorem State.setErr_flag (v : BitVec 4) (g : StatusFlag) : (s.setErr v).flag g = s.flag g := rfl

/-! ### setCmd -/

@[simp] theorem State.setCmd_params (w : Byte) : (s.setCmd w).params = s.params := rfl
@[simp] theorem State.setCmd_cmd (w : Byte) : (s.setCmd w).cmd = w := rfl
@[simp] theorem State.setCmd_err (w : Byte) : (s.setCmd w).err = s.err := rfl
@[simp] theorem State.setCmd_status (w : Byte) : (s.setCmd w).status = s.status := rfl
@[simp] theorem State.setCmd_fbLen (w : Byte) : (s.setCmd w).fbLen = s.fbLen := rfl
@[simp] theorem State.setCmd_hdrB0 (w : Byte) : (s.setCmd w).hdrB0 = s.hdrB0 := rfl
@[simp] theorem State.setCmd_hdrB1 (w : Byte) : (s.setCmd w).hdrB1 = s.hdrB1 := rfl
@[simp] theorem State.setCmd_hdrFin (w : Byte) : (s.setCmd w).hdrFin = s.hdrFin := rfl
@[simp] theorem State.setCmd_hdrLtier (w : Byte) : (s.setCmd w).hdrLtier = s.hdrLtier := rfl
@[simp] theorem State.setCmd_hdrPlen (w : Byte) : (s.setCmd w).hdrPlen = s.hdrPlen := rfl
@[simp] theorem State.setCmd_hdrMoff (w : Byte) : (s.setCmd w).hdrMoff = s.hdrMoff := rfl
@[simp] theorem State.setCmd_hdrPoff (w : Byte) : (s.setCmd w).hdrPoff = s.hdrPoff := rfl
@[simp] theorem State.setCmd_mkey (w : Byte) : (s.setCmd w).mkey = s.mkey := rfl
@[simp] theorem State.setCmd_outLen (w : Byte) : (s.setCmd w).outLen = s.outLen := rfl
@[simp] theorem State.setCmd_accLen (w : Byte) : (s.setCmd w).accLen = s.accLen := rfl
@[simp] theorem State.setCmd_keyLen (w : Byte) : (s.setCmd w).keyLen = s.keyLen := rfl
@[simp] theorem State.setCmd_keyPresent (w : Byte) : (s.setCmd w).keyPresent = s.keyPresent := rfl
@[simp] theorem State.setCmd_fb (w : Byte) : (s.setCmd w).fb = s.fb := rfl
@[simp] theorem State.setCmd_out (w : Byte) : (s.setCmd w).out = s.out := rfl
@[simp] theorem State.setCmd_acc (w : Byte) : (s.setCmd w).acc = s.acc := rfl
@[simp] theorem State.setCmd_key (w : Byte) : (s.setCmd w).key = s.key := rfl
@[simp] theorem State.setCmd_tok (w : Byte) : (s.setCmd w).tok = s.tok := rfl
@[simp] theorem State.setCmd_pending (w : Byte) : (s.setCmd w).pending = s.pending := rfl
@[simp] theorem State.setCmd_observed (w : Byte) : (s.setCmd w).observed = s.observed := rfl
@[simp] theorem State.setCmd_draws (w : Byte) : (s.setCmd w).draws = s.draws := rfl
@[simp] theorem State.setCmd_epoch (w : Byte) : (s.setCmd w).epoch = s.epoch := rfl
@[simp] theorem State.setCmd_writes (w : Byte) : (s.setCmd w).writes = s.writes := rfl
@[simp] theorem State.setCmd_inst (w : Byte) : (s.setCmd w).inst = s.inst := rfl
@[simp] theorem State.setCmd_frame (w : Byte) : (s.setCmd w).frame = s.frame := rfl
@[simp] theorem State.setCmd_keyBytes (w : Byte) : (s.setCmd w).keyBytes = s.keyBytes := rfl
@[simp] theorem State.setCmd_outBytes (w : Byte) : (s.setCmd w).outBytes = s.outBytes := rfl
@[simp] theorem State.setCmd_accBytes (w : Byte) : (s.setCmd w).accBytes = s.accBytes := rfl
@[simp] theorem State.setCmd_tokBytes (w : Byte) : (s.setCmd w).tokBytes = s.tokBytes := rfl
@[simp] theorem State.setCmd_flag (w : Byte) (g : StatusFlag) : (s.setCmd w).flag g = s.flag g := rfl

/-! ### setFlag -/

@[simp] theorem State.setFlag_params (f : StatusFlag) (b : Bool) : (s.setFlag f b).params = s.params := rfl
@[simp] theorem State.setFlag_cmd (f : StatusFlag) (b : Bool) : (s.setFlag f b).cmd = s.cmd := rfl
@[simp] theorem State.setFlag_err (f : StatusFlag) (b : Bool) : (s.setFlag f b).err = s.err := rfl
@[simp] theorem State.setFlag_status (f : StatusFlag) (b : Bool) : (s.setFlag f b).status = if b then s.status ||| f.mask else s.status &&& ~~~f.mask := rfl
@[simp] theorem State.setFlag_fbLen (f : StatusFlag) (b : Bool) : (s.setFlag f b).fbLen = s.fbLen := rfl
@[simp] theorem State.setFlag_hdrB0 (f : StatusFlag) (b : Bool) : (s.setFlag f b).hdrB0 = s.hdrB0 := rfl
@[simp] theorem State.setFlag_hdrB1 (f : StatusFlag) (b : Bool) : (s.setFlag f b).hdrB1 = s.hdrB1 := rfl
@[simp] theorem State.setFlag_hdrFin (f : StatusFlag) (b : Bool) : (s.setFlag f b).hdrFin = s.hdrFin := rfl
@[simp] theorem State.setFlag_hdrLtier (f : StatusFlag) (b : Bool) : (s.setFlag f b).hdrLtier = s.hdrLtier := rfl
@[simp] theorem State.setFlag_hdrPlen (f : StatusFlag) (b : Bool) : (s.setFlag f b).hdrPlen = s.hdrPlen := rfl
@[simp] theorem State.setFlag_hdrMoff (f : StatusFlag) (b : Bool) : (s.setFlag f b).hdrMoff = s.hdrMoff := rfl
@[simp] theorem State.setFlag_hdrPoff (f : StatusFlag) (b : Bool) : (s.setFlag f b).hdrPoff = s.hdrPoff := rfl
@[simp] theorem State.setFlag_mkey (f : StatusFlag) (b : Bool) : (s.setFlag f b).mkey = s.mkey := rfl
@[simp] theorem State.setFlag_outLen (f : StatusFlag) (b : Bool) : (s.setFlag f b).outLen = s.outLen := rfl
@[simp] theorem State.setFlag_accLen (f : StatusFlag) (b : Bool) : (s.setFlag f b).accLen = s.accLen := rfl
@[simp] theorem State.setFlag_keyLen (f : StatusFlag) (b : Bool) : (s.setFlag f b).keyLen = s.keyLen := rfl
@[simp] theorem State.setFlag_keyPresent (f : StatusFlag) (b : Bool) : (s.setFlag f b).keyPresent = s.keyPresent := rfl
@[simp] theorem State.setFlag_fb (f : StatusFlag) (b : Bool) : (s.setFlag f b).fb = s.fb := rfl
@[simp] theorem State.setFlag_out (f : StatusFlag) (b : Bool) : (s.setFlag f b).out = s.out := rfl
@[simp] theorem State.setFlag_acc (f : StatusFlag) (b : Bool) : (s.setFlag f b).acc = s.acc := rfl
@[simp] theorem State.setFlag_key (f : StatusFlag) (b : Bool) : (s.setFlag f b).key = s.key := rfl
@[simp] theorem State.setFlag_tok (f : StatusFlag) (b : Bool) : (s.setFlag f b).tok = s.tok := rfl
@[simp] theorem State.setFlag_pending (f : StatusFlag) (b : Bool) : (s.setFlag f b).pending = s.pending := rfl
@[simp] theorem State.setFlag_observed (f : StatusFlag) (b : Bool) : (s.setFlag f b).observed = s.observed := rfl
@[simp] theorem State.setFlag_draws (f : StatusFlag) (b : Bool) : (s.setFlag f b).draws = s.draws := rfl
@[simp] theorem State.setFlag_epoch (f : StatusFlag) (b : Bool) : (s.setFlag f b).epoch = s.epoch := rfl
@[simp] theorem State.setFlag_writes (f : StatusFlag) (b : Bool) : (s.setFlag f b).writes = s.writes := rfl
@[simp] theorem State.setFlag_inst (f : StatusFlag) (b : Bool) : (s.setFlag f b).inst = s.inst := rfl
@[simp] theorem State.setFlag_frame (f : StatusFlag) (b : Bool) : (s.setFlag f b).frame = s.frame := rfl
@[simp] theorem State.setFlag_keyBytes (f : StatusFlag) (b : Bool) : (s.setFlag f b).keyBytes = s.keyBytes := rfl
@[simp] theorem State.setFlag_outBytes (f : StatusFlag) (b : Bool) : (s.setFlag f b).outBytes = s.outBytes := rfl
@[simp] theorem State.setFlag_accBytes (f : StatusFlag) (b : Bool) : (s.setFlag f b).accBytes = s.accBytes := rfl
@[simp] theorem State.setFlag_tokBytes (f : StatusFlag) (b : Bool) : (s.setFlag f b).tokBytes = s.tokBytes := rfl

/-! ### writeOut -/

@[simp] theorem State.writeOut_params (bs : List Byte) : (s.writeOut bs).params = s.params := rfl
@[simp] theorem State.writeOut_cmd (bs : List Byte) : (s.writeOut bs).cmd = s.cmd := rfl
@[simp] theorem State.writeOut_err (bs : List Byte) : (s.writeOut bs).err = s.err := rfl
@[simp] theorem State.writeOut_status (bs : List Byte) : (s.writeOut bs).status = s.status := rfl
@[simp] theorem State.writeOut_fbLen (bs : List Byte) : (s.writeOut bs).fbLen = s.fbLen := rfl
@[simp] theorem State.writeOut_hdrB0 (bs : List Byte) : (s.writeOut bs).hdrB0 = s.hdrB0 := rfl
@[simp] theorem State.writeOut_hdrB1 (bs : List Byte) : (s.writeOut bs).hdrB1 = s.hdrB1 := rfl
@[simp] theorem State.writeOut_hdrFin (bs : List Byte) : (s.writeOut bs).hdrFin = s.hdrFin := rfl
@[simp] theorem State.writeOut_hdrLtier (bs : List Byte) : (s.writeOut bs).hdrLtier = s.hdrLtier := rfl
@[simp] theorem State.writeOut_hdrPlen (bs : List Byte) : (s.writeOut bs).hdrPlen = s.hdrPlen := rfl
@[simp] theorem State.writeOut_hdrMoff (bs : List Byte) : (s.writeOut bs).hdrMoff = s.hdrMoff := rfl
@[simp] theorem State.writeOut_hdrPoff (bs : List Byte) : (s.writeOut bs).hdrPoff = s.hdrPoff := rfl
@[simp] theorem State.writeOut_mkey (bs : List Byte) : (s.writeOut bs).mkey = s.mkey := rfl
@[simp] theorem State.writeOut_outLen (bs : List Byte) : (s.writeOut bs).outLen = bs.length := rfl
@[simp] theorem State.writeOut_accLen (bs : List Byte) : (s.writeOut bs).accLen = s.accLen := rfl
@[simp] theorem State.writeOut_keyLen (bs : List Byte) : (s.writeOut bs).keyLen = s.keyLen := rfl
@[simp] theorem State.writeOut_keyPresent (bs : List Byte) : (s.writeOut bs).keyPresent = s.keyPresent := rfl
@[simp] theorem State.writeOut_fb (bs : List Byte) : (s.writeOut bs).fb = s.fb := rfl
@[simp] theorem State.writeOut_out (bs : List Byte) : (s.writeOut bs).out = s.out.writeBytes 0 bs := rfl
@[simp] theorem State.writeOut_acc (bs : List Byte) : (s.writeOut bs).acc = s.acc := rfl
@[simp] theorem State.writeOut_key (bs : List Byte) : (s.writeOut bs).key = s.key := rfl
@[simp] theorem State.writeOut_tok (bs : List Byte) : (s.writeOut bs).tok = s.tok := rfl
@[simp] theorem State.writeOut_pending (bs : List Byte) : (s.writeOut bs).pending = s.pending := rfl
@[simp] theorem State.writeOut_observed (bs : List Byte) : (s.writeOut bs).observed = s.observed := rfl
@[simp] theorem State.writeOut_draws (bs : List Byte) : (s.writeOut bs).draws = s.draws := rfl
@[simp] theorem State.writeOut_epoch (bs : List Byte) : (s.writeOut bs).epoch = s.epoch := rfl
@[simp] theorem State.writeOut_writes (bs : List Byte) : (s.writeOut bs).writes = s.writes := rfl
@[simp] theorem State.writeOut_inst (bs : List Byte) : (s.writeOut bs).inst = s.inst := rfl
@[simp] theorem State.writeOut_frame (bs : List Byte) : (s.writeOut bs).frame = s.frame := rfl
@[simp] theorem State.writeOut_keyBytes (bs : List Byte) : (s.writeOut bs).keyBytes = s.keyBytes := rfl
@[simp] theorem State.writeOut_accBytes (bs : List Byte) : (s.writeOut bs).accBytes = s.accBytes := rfl
@[simp] theorem State.writeOut_tokBytes (bs : List Byte) : (s.writeOut bs).tokBytes = s.tokBytes := rfl
@[simp] theorem State.writeOut_flag (bs : List Byte) (g : StatusFlag) : (s.writeOut bs).flag g = s.flag g := rfl

/-! ### appendAcc -/

@[simp] theorem State.appendAcc_params (bs : List Byte) : (s.appendAcc bs).params = s.params := rfl
@[simp] theorem State.appendAcc_cmd (bs : List Byte) : (s.appendAcc bs).cmd = s.cmd := rfl
@[simp] theorem State.appendAcc_err (bs : List Byte) : (s.appendAcc bs).err = s.err := rfl
@[simp] theorem State.appendAcc_status (bs : List Byte) : (s.appendAcc bs).status = s.status := rfl
@[simp] theorem State.appendAcc_fbLen (bs : List Byte) : (s.appendAcc bs).fbLen = s.fbLen := rfl
@[simp] theorem State.appendAcc_hdrB0 (bs : List Byte) : (s.appendAcc bs).hdrB0 = s.hdrB0 := rfl
@[simp] theorem State.appendAcc_hdrB1 (bs : List Byte) : (s.appendAcc bs).hdrB1 = s.hdrB1 := rfl
@[simp] theorem State.appendAcc_hdrFin (bs : List Byte) : (s.appendAcc bs).hdrFin = s.hdrFin := rfl
@[simp] theorem State.appendAcc_hdrLtier (bs : List Byte) : (s.appendAcc bs).hdrLtier = s.hdrLtier := rfl
@[simp] theorem State.appendAcc_hdrPlen (bs : List Byte) : (s.appendAcc bs).hdrPlen = s.hdrPlen := rfl
@[simp] theorem State.appendAcc_hdrMoff (bs : List Byte) : (s.appendAcc bs).hdrMoff = s.hdrMoff := rfl
@[simp] theorem State.appendAcc_hdrPoff (bs : List Byte) : (s.appendAcc bs).hdrPoff = s.hdrPoff := rfl
@[simp] theorem State.appendAcc_mkey (bs : List Byte) : (s.appendAcc bs).mkey = s.mkey := rfl
@[simp] theorem State.appendAcc_outLen (bs : List Byte) : (s.appendAcc bs).outLen = s.outLen := rfl
@[simp] theorem State.appendAcc_accLen (bs : List Byte) : (s.appendAcc bs).accLen = s.accLen + bs.length := rfl
@[simp] theorem State.appendAcc_keyLen (bs : List Byte) : (s.appendAcc bs).keyLen = s.keyLen := rfl
@[simp] theorem State.appendAcc_keyPresent (bs : List Byte) : (s.appendAcc bs).keyPresent = s.keyPresent := rfl
@[simp] theorem State.appendAcc_fb (bs : List Byte) : (s.appendAcc bs).fb = s.fb := rfl
@[simp] theorem State.appendAcc_out (bs : List Byte) : (s.appendAcc bs).out = s.out := rfl
@[simp] theorem State.appendAcc_acc (bs : List Byte) : (s.appendAcc bs).acc = s.acc.writeBytes s.accLen bs := rfl
@[simp] theorem State.appendAcc_key (bs : List Byte) : (s.appendAcc bs).key = s.key := rfl
@[simp] theorem State.appendAcc_tok (bs : List Byte) : (s.appendAcc bs).tok = s.tok := rfl
@[simp] theorem State.appendAcc_pending (bs : List Byte) : (s.appendAcc bs).pending = s.pending := rfl
@[simp] theorem State.appendAcc_observed (bs : List Byte) : (s.appendAcc bs).observed = s.observed := rfl
@[simp] theorem State.appendAcc_draws (bs : List Byte) : (s.appendAcc bs).draws = s.draws := rfl
@[simp] theorem State.appendAcc_epoch (bs : List Byte) : (s.appendAcc bs).epoch = s.epoch := rfl
@[simp] theorem State.appendAcc_writes (bs : List Byte) : (s.appendAcc bs).writes = s.writes := rfl
@[simp] theorem State.appendAcc_inst (bs : List Byte) : (s.appendAcc bs).inst = s.inst := rfl
@[simp] theorem State.appendAcc_frame (bs : List Byte) : (s.appendAcc bs).frame = s.frame := rfl
@[simp] theorem State.appendAcc_keyBytes (bs : List Byte) : (s.appendAcc bs).keyBytes = s.keyBytes := rfl
@[simp] theorem State.appendAcc_outBytes (bs : List Byte) : (s.appendAcc bs).outBytes = s.outBytes := rfl
@[simp] theorem State.appendAcc_tokBytes (bs : List Byte) : (s.appendAcc bs).tokBytes = s.tokBytes := rfl
@[simp] theorem State.appendAcc_flag (bs : List Byte) (g : StatusFlag) : (s.appendAcc bs).flag g = s.flag g := rfl

/-! ### emptyAcc -/

@[simp] theorem State.emptyAcc_params : (s.emptyAcc).params = s.params := rfl
@[simp] theorem State.emptyAcc_cmd : (s.emptyAcc).cmd = s.cmd := rfl
@[simp] theorem State.emptyAcc_err : (s.emptyAcc).err = s.err := rfl
@[simp] theorem State.emptyAcc_status : (s.emptyAcc).status = s.status := rfl
@[simp] theorem State.emptyAcc_fbLen : (s.emptyAcc).fbLen = s.fbLen := rfl
@[simp] theorem State.emptyAcc_hdrB0 : (s.emptyAcc).hdrB0 = s.hdrB0 := rfl
@[simp] theorem State.emptyAcc_hdrB1 : (s.emptyAcc).hdrB1 = s.hdrB1 := rfl
@[simp] theorem State.emptyAcc_hdrFin : (s.emptyAcc).hdrFin = s.hdrFin := rfl
@[simp] theorem State.emptyAcc_hdrLtier : (s.emptyAcc).hdrLtier = s.hdrLtier := rfl
@[simp] theorem State.emptyAcc_hdrPlen : (s.emptyAcc).hdrPlen = s.hdrPlen := rfl
@[simp] theorem State.emptyAcc_hdrMoff : (s.emptyAcc).hdrMoff = s.hdrMoff := rfl
@[simp] theorem State.emptyAcc_hdrPoff : (s.emptyAcc).hdrPoff = s.hdrPoff := rfl
@[simp] theorem State.emptyAcc_mkey : (s.emptyAcc).mkey = s.mkey := rfl
@[simp] theorem State.emptyAcc_outLen : (s.emptyAcc).outLen = s.outLen := rfl
@[simp] theorem State.emptyAcc_accLen : (s.emptyAcc).accLen = 0 := rfl
@[simp] theorem State.emptyAcc_keyLen : (s.emptyAcc).keyLen = s.keyLen := rfl
@[simp] theorem State.emptyAcc_keyPresent : (s.emptyAcc).keyPresent = s.keyPresent := rfl
@[simp] theorem State.emptyAcc_fb : (s.emptyAcc).fb = s.fb := rfl
@[simp] theorem State.emptyAcc_out : (s.emptyAcc).out = s.out := rfl
@[simp] theorem State.emptyAcc_acc : (s.emptyAcc).acc = s.acc := rfl
@[simp] theorem State.emptyAcc_key : (s.emptyAcc).key = s.key := rfl
@[simp] theorem State.emptyAcc_tok : (s.emptyAcc).tok = s.tok := rfl
@[simp] theorem State.emptyAcc_pending : (s.emptyAcc).pending = s.pending := rfl
@[simp] theorem State.emptyAcc_observed : (s.emptyAcc).observed = s.observed := rfl
@[simp] theorem State.emptyAcc_draws : (s.emptyAcc).draws = s.draws := rfl
@[simp] theorem State.emptyAcc_epoch : (s.emptyAcc).epoch = s.epoch := rfl
@[simp] theorem State.emptyAcc_writes : (s.emptyAcc).writes = s.writes := rfl
@[simp] theorem State.emptyAcc_inst : (s.emptyAcc).inst = s.inst := rfl
@[simp] theorem State.emptyAcc_frame : (s.emptyAcc).frame = s.frame := rfl
@[simp] theorem State.emptyAcc_keyBytes : (s.emptyAcc).keyBytes = s.keyBytes := rfl
@[simp] theorem State.emptyAcc_outBytes : (s.emptyAcc).outBytes = s.outBytes := rfl
@[simp] theorem State.emptyAcc_tokBytes : (s.emptyAcc).tokBytes = s.tokBytes := rfl
@[simp] theorem State.emptyAcc_flag (g : StatusFlag) : (s.emptyAcc).flag g = s.flag g := rfl

/-! ### writeTok -/

@[simp] theorem State.writeTok_params (t : List Byte) : (s.writeTok t).params = s.params := rfl
@[simp] theorem State.writeTok_cmd (t : List Byte) : (s.writeTok t).cmd = s.cmd := rfl
@[simp] theorem State.writeTok_err (t : List Byte) : (s.writeTok t).err = s.err := rfl
@[simp] theorem State.writeTok_status (t : List Byte) : (s.writeTok t).status = s.status := rfl
@[simp] theorem State.writeTok_fbLen (t : List Byte) : (s.writeTok t).fbLen = s.fbLen := rfl
@[simp] theorem State.writeTok_hdrB0 (t : List Byte) : (s.writeTok t).hdrB0 = s.hdrB0 := rfl
@[simp] theorem State.writeTok_hdrB1 (t : List Byte) : (s.writeTok t).hdrB1 = s.hdrB1 := rfl
@[simp] theorem State.writeTok_hdrFin (t : List Byte) : (s.writeTok t).hdrFin = s.hdrFin := rfl
@[simp] theorem State.writeTok_hdrLtier (t : List Byte) : (s.writeTok t).hdrLtier = s.hdrLtier := rfl
@[simp] theorem State.writeTok_hdrPlen (t : List Byte) : (s.writeTok t).hdrPlen = s.hdrPlen := rfl
@[simp] theorem State.writeTok_hdrMoff (t : List Byte) : (s.writeTok t).hdrMoff = s.hdrMoff := rfl
@[simp] theorem State.writeTok_hdrPoff (t : List Byte) : (s.writeTok t).hdrPoff = s.hdrPoff := rfl
@[simp] theorem State.writeTok_mkey (t : List Byte) : (s.writeTok t).mkey = s.mkey := rfl
@[simp] theorem State.writeTok_outLen (t : List Byte) : (s.writeTok t).outLen = s.outLen := rfl
@[simp] theorem State.writeTok_accLen (t : List Byte) : (s.writeTok t).accLen = s.accLen := rfl
@[simp] theorem State.writeTok_keyLen (t : List Byte) : (s.writeTok t).keyLen = s.keyLen := rfl
@[simp] theorem State.writeTok_keyPresent (t : List Byte) : (s.writeTok t).keyPresent = s.keyPresent := rfl
@[simp] theorem State.writeTok_fb (t : List Byte) : (s.writeTok t).fb = s.fb := rfl
@[simp] theorem State.writeTok_out (t : List Byte) : (s.writeTok t).out = s.out := rfl
@[simp] theorem State.writeTok_acc (t : List Byte) : (s.writeTok t).acc = s.acc := rfl
@[simp] theorem State.writeTok_key (t : List Byte) : (s.writeTok t).key = s.key := rfl
@[simp] theorem State.writeTok_tok (t : List Byte) : (s.writeTok t).tok = s.tok.writeBytes 0 t := rfl
@[simp] theorem State.writeTok_pending (t : List Byte) : (s.writeTok t).pending = s.pending := rfl
@[simp] theorem State.writeTok_observed (t : List Byte) : (s.writeTok t).observed = s.observed := rfl
@[simp] theorem State.writeTok_draws (t : List Byte) : (s.writeTok t).draws = s.draws := rfl
@[simp] theorem State.writeTok_epoch (t : List Byte) : (s.writeTok t).epoch = s.epoch := rfl
@[simp] theorem State.writeTok_writes (t : List Byte) : (s.writeTok t).writes = s.writes := rfl
@[simp] theorem State.writeTok_inst (t : List Byte) : (s.writeTok t).inst = s.inst := rfl
@[simp] theorem State.writeTok_frame (t : List Byte) : (s.writeTok t).frame = s.frame := rfl
@[simp] theorem State.writeTok_keyBytes (t : List Byte) : (s.writeTok t).keyBytes = s.keyBytes := rfl
@[simp] theorem State.writeTok_outBytes (t : List Byte) : (s.writeTok t).outBytes = s.outBytes := rfl
@[simp] theorem State.writeTok_accBytes (t : List Byte) : (s.writeTok t).accBytes = s.accBytes := rfl
@[simp] theorem State.writeTok_flag (t : List Byte) (g : StatusFlag) : (s.writeTok t).flag g = s.flag g := rfl

/-! ### latchLen -/

@[simp] theorem State.latchLen_params (r : LenInfo) : (s.latchLen r).params = s.params := rfl
@[simp] theorem State.latchLen_cmd (r : LenInfo) : (s.latchLen r).cmd = s.cmd := rfl
@[simp] theorem State.latchLen_err (r : LenInfo) : (s.latchLen r).err = s.err := rfl
@[simp] theorem State.latchLen_status (r : LenInfo) : (s.latchLen r).status = s.status := rfl
@[simp] theorem State.latchLen_fbLen (r : LenInfo) : (s.latchLen r).fbLen = s.fbLen := rfl
@[simp] theorem State.latchLen_hdrB0 (r : LenInfo) : (s.latchLen r).hdrB0 = r.b0 := rfl
@[simp] theorem State.latchLen_hdrB1 (r : LenInfo) : (s.latchLen r).hdrB1 = r.b1 := rfl
@[simp] theorem State.latchLen_hdrFin (r : LenInfo) : (s.latchLen r).hdrFin = r.fin := rfl
@[simp] theorem State.latchLen_hdrLtier (r : LenInfo) : (s.latchLen r).hdrLtier = r.tier := rfl
@[simp] theorem State.latchLen_hdrPlen (r : LenInfo) : (s.latchLen r).hdrPlen = r.plen := rfl
@[simp] theorem State.latchLen_hdrMoff (r : LenInfo) : (s.latchLen r).hdrMoff = r.moff := rfl
@[simp] theorem State.latchLen_hdrPoff (r : LenInfo) : (s.latchLen r).hdrPoff = s.hdrPoff := rfl
@[simp] theorem State.latchLen_mkey (r : LenInfo) : (s.latchLen r).mkey = s.mkey := rfl
@[simp] theorem State.latchLen_outLen (r : LenInfo) : (s.latchLen r).outLen = s.outLen := rfl
@[simp] theorem State.latchLen_accLen (r : LenInfo) : (s.latchLen r).accLen = s.accLen := rfl
@[simp] theorem State.latchLen_keyLen (r : LenInfo) : (s.latchLen r).keyLen = s.keyLen := rfl
@[simp] theorem State.latchLen_keyPresent (r : LenInfo) : (s.latchLen r).keyPresent = s.keyPresent := rfl
@[simp] theorem State.latchLen_fb (r : LenInfo) : (s.latchLen r).fb = s.fb := rfl
@[simp] theorem State.latchLen_out (r : LenInfo) : (s.latchLen r).out = s.out := rfl
@[simp] theorem State.latchLen_acc (r : LenInfo) : (s.latchLen r).acc = s.acc := rfl
@[simp] theorem State.latchLen_key (r : LenInfo) : (s.latchLen r).key = s.key := rfl
@[simp] theorem State.latchLen_tok (r : LenInfo) : (s.latchLen r).tok = s.tok := rfl
@[simp] theorem State.latchLen_pending (r : LenInfo) : (s.latchLen r).pending = s.pending := rfl
@[simp] theorem State.latchLen_observed (r : LenInfo) : (s.latchLen r).observed = s.observed := rfl
@[simp] theorem State.latchLen_draws (r : LenInfo) : (s.latchLen r).draws = s.draws := rfl
@[simp] theorem State.latchLen_epoch (r : LenInfo) : (s.latchLen r).epoch = s.epoch := rfl
@[simp] theorem State.latchLen_writes (r : LenInfo) : (s.latchLen r).writes = s.writes := rfl
@[simp] theorem State.latchLen_inst (r : LenInfo) : (s.latchLen r).inst = s.inst := rfl
@[simp] theorem State.latchLen_frame (r : LenInfo) : (s.latchLen r).frame = s.frame := rfl
@[simp] theorem State.latchLen_keyBytes (r : LenInfo) : (s.latchLen r).keyBytes = s.keyBytes := rfl
@[simp] theorem State.latchLen_outBytes (r : LenInfo) : (s.latchLen r).outBytes = s.outBytes := rfl
@[simp] theorem State.latchLen_accBytes (r : LenInfo) : (s.latchLen r).accBytes = s.accBytes := rfl
@[simp] theorem State.latchLen_tokBytes (r : LenInfo) : (s.latchLen r).tokBytes = s.tokBytes := rfl
@[simp] theorem State.latchLen_flag (r : LenInfo) (g : StatusFlag) : (s.latchLen r).flag g = s.flag g := rfl

/-! ### latchKey -/

@[simp] theorem State.latchKey_params (k : MaskKey) (p : BitVec 4) : (s.latchKey k p).params = s.params := rfl
@[simp] theorem State.latchKey_cmd (k : MaskKey) (p : BitVec 4) : (s.latchKey k p).cmd = s.cmd := rfl
@[simp] theorem State.latchKey_err (k : MaskKey) (p : BitVec 4) : (s.latchKey k p).err = s.err := rfl
@[simp] theorem State.latchKey_status (k : MaskKey) (p : BitVec 4) : (s.latchKey k p).status = s.status := rfl
@[simp] theorem State.latchKey_fbLen (k : MaskKey) (p : BitVec 4) : (s.latchKey k p).fbLen = s.fbLen := rfl
@[simp] theorem State.latchKey_hdrB0 (k : MaskKey) (p : BitVec 4) : (s.latchKey k p).hdrB0 = s.hdrB0 := rfl
@[simp] theorem State.latchKey_hdrB1 (k : MaskKey) (p : BitVec 4) : (s.latchKey k p).hdrB1 = s.hdrB1 := rfl
@[simp] theorem State.latchKey_hdrFin (k : MaskKey) (p : BitVec 4) : (s.latchKey k p).hdrFin = s.hdrFin := rfl
@[simp] theorem State.latchKey_hdrLtier (k : MaskKey) (p : BitVec 4) : (s.latchKey k p).hdrLtier = s.hdrLtier := rfl
@[simp] theorem State.latchKey_hdrPlen (k : MaskKey) (p : BitVec 4) : (s.latchKey k p).hdrPlen = s.hdrPlen := rfl
@[simp] theorem State.latchKey_hdrMoff (k : MaskKey) (p : BitVec 4) : (s.latchKey k p).hdrMoff = s.hdrMoff := rfl
@[simp] theorem State.latchKey_hdrPoff (k : MaskKey) (p : BitVec 4) : (s.latchKey k p).hdrPoff = p := rfl
@[simp] theorem State.latchKey_mkey (k : MaskKey) (p : BitVec 4) : (s.latchKey k p).mkey = k := rfl
@[simp] theorem State.latchKey_outLen (k : MaskKey) (p : BitVec 4) : (s.latchKey k p).outLen = s.outLen := rfl
@[simp] theorem State.latchKey_accLen (k : MaskKey) (p : BitVec 4) : (s.latchKey k p).accLen = s.accLen := rfl
@[simp] theorem State.latchKey_keyLen (k : MaskKey) (p : BitVec 4) : (s.latchKey k p).keyLen = s.keyLen := rfl
@[simp] theorem State.latchKey_keyPresent (k : MaskKey) (p : BitVec 4) : (s.latchKey k p).keyPresent = s.keyPresent := rfl
@[simp] theorem State.latchKey_fb (k : MaskKey) (p : BitVec 4) : (s.latchKey k p).fb = s.fb := rfl
@[simp] theorem State.latchKey_out (k : MaskKey) (p : BitVec 4) : (s.latchKey k p).out = s.out := rfl
@[simp] theorem State.latchKey_acc (k : MaskKey) (p : BitVec 4) : (s.latchKey k p).acc = s.acc := rfl
@[simp] theorem State.latchKey_key (k : MaskKey) (p : BitVec 4) : (s.latchKey k p).key = s.key := rfl
@[simp] theorem State.latchKey_tok (k : MaskKey) (p : BitVec 4) : (s.latchKey k p).tok = s.tok := rfl
@[simp] theorem State.latchKey_pending (k : MaskKey) (p : BitVec 4) : (s.latchKey k p).pending = s.pending := rfl
@[simp] theorem State.latchKey_observed (k : MaskKey) (p : BitVec 4) : (s.latchKey k p).observed = s.observed := rfl
@[simp] theorem State.latchKey_draws (k : MaskKey) (p : BitVec 4) : (s.latchKey k p).draws = s.draws := rfl
@[simp] theorem State.latchKey_epoch (k : MaskKey) (p : BitVec 4) : (s.latchKey k p).epoch = s.epoch := rfl
@[simp] theorem State.latchKey_writes (k : MaskKey) (p : BitVec 4) : (s.latchKey k p).writes = s.writes := rfl
@[simp] theorem State.latchKey_inst (k : MaskKey) (p : BitVec 4) : (s.latchKey k p).inst = s.inst := rfl
@[simp] theorem State.latchKey_frame (k : MaskKey) (p : BitVec 4) : (s.latchKey k p).frame = s.frame := rfl
@[simp] theorem State.latchKey_keyBytes (k : MaskKey) (p : BitVec 4) : (s.latchKey k p).keyBytes = s.keyBytes := rfl
@[simp] theorem State.latchKey_outBytes (k : MaskKey) (p : BitVec 4) : (s.latchKey k p).outBytes = s.outBytes := rfl
@[simp] theorem State.latchKey_accBytes (k : MaskKey) (p : BitVec 4) : (s.latchKey k p).accBytes = s.accBytes := rfl
@[simp] theorem State.latchKey_tokBytes (k : MaskKey) (p : BitVec 4) : (s.latchKey k p).tokBytes = s.tokBytes := rfl
@[simp] theorem State.latchKey_flag (k : MaskKey) (p : BitVec 4) (g : StatusFlag) : (s.latchKey k p).flag g = s.flag g := rfl

/-! ### setFbLen -/

@[simp] theorem State.setFbLen_params (v : Nat) : (s.setFbLen v).params = s.params := rfl
@[simp] theorem State.setFbLen_cmd (v : Nat) : (s.setFbLen v).cmd = s.cmd := rfl
@[simp] theorem State.setFbLen_err (v : Nat) : (s.setFbLen v).err = s.err := rfl
@[simp] theorem State.setFbLen_status (v : Nat) : (s.setFbLen v).status = s.status := rfl
@[simp] theorem State.setFbLen_fbLen (v : Nat) : (s.setFbLen v).fbLen = min v s.params.fbCap := rfl
@[simp] theorem State.setFbLen_hdrB0 (v : Nat) : (s.setFbLen v).hdrB0 = s.hdrB0 := rfl
@[simp] theorem State.setFbLen_hdrB1 (v : Nat) : (s.setFbLen v).hdrB1 = s.hdrB1 := rfl
@[simp] theorem State.setFbLen_hdrFin (v : Nat) : (s.setFbLen v).hdrFin = s.hdrFin := rfl
@[simp] theorem State.setFbLen_hdrLtier (v : Nat) : (s.setFbLen v).hdrLtier = s.hdrLtier := rfl
@[simp] theorem State.setFbLen_hdrPlen (v : Nat) : (s.setFbLen v).hdrPlen = s.hdrPlen := rfl
@[simp] theorem State.setFbLen_hdrMoff (v : Nat) : (s.setFbLen v).hdrMoff = s.hdrMoff := rfl
@[simp] theorem State.setFbLen_hdrPoff (v : Nat) : (s.setFbLen v).hdrPoff = s.hdrPoff := rfl
@[simp] theorem State.setFbLen_mkey (v : Nat) : (s.setFbLen v).mkey = s.mkey := rfl
@[simp] theorem State.setFbLen_outLen (v : Nat) : (s.setFbLen v).outLen = s.outLen := rfl
@[simp] theorem State.setFbLen_accLen (v : Nat) : (s.setFbLen v).accLen = s.accLen := rfl
@[simp] theorem State.setFbLen_keyLen (v : Nat) : (s.setFbLen v).keyLen = s.keyLen := rfl
@[simp] theorem State.setFbLen_keyPresent (v : Nat) : (s.setFbLen v).keyPresent = s.keyPresent := rfl
@[simp] theorem State.setFbLen_fb (v : Nat) : (s.setFbLen v).fb = s.fb := rfl
@[simp] theorem State.setFbLen_out (v : Nat) : (s.setFbLen v).out = s.out := rfl
@[simp] theorem State.setFbLen_acc (v : Nat) : (s.setFbLen v).acc = s.acc := rfl
@[simp] theorem State.setFbLen_key (v : Nat) : (s.setFbLen v).key = s.key := rfl
@[simp] theorem State.setFbLen_tok (v : Nat) : (s.setFbLen v).tok = s.tok := rfl
@[simp] theorem State.setFbLen_pending (v : Nat) : (s.setFbLen v).pending = s.pending := rfl
@[simp] theorem State.setFbLen_observed (v : Nat) : (s.setFbLen v).observed = s.observed := rfl
@[simp] theorem State.setFbLen_draws (v : Nat) : (s.setFbLen v).draws = s.draws := rfl
@[simp] theorem State.setFbLen_epoch (v : Nat) : (s.setFbLen v).epoch = s.epoch := rfl
@[simp] theorem State.setFbLen_writes (v : Nat) : (s.setFbLen v).writes = s.writes := rfl
@[simp] theorem State.setFbLen_inst (v : Nat) : (s.setFbLen v).inst = s.inst := rfl
@[simp] theorem State.setFbLen_keyBytes (v : Nat) : (s.setFbLen v).keyBytes = s.keyBytes := rfl
@[simp] theorem State.setFbLen_outBytes (v : Nat) : (s.setFbLen v).outBytes = s.outBytes := rfl
@[simp] theorem State.setFbLen_accBytes (v : Nat) : (s.setFbLen v).accBytes = s.accBytes := rfl
@[simp] theorem State.setFbLen_tokBytes (v : Nat) : (s.setFbLen v).tokBytes = s.tokBytes := rfl
@[simp] theorem State.setFbLen_flag (v : Nat) (g : StatusFlag) : (s.setFbLen v).flag g = s.flag g := rfl

/-! ### setKeyLen -/

@[simp] theorem State.setKeyLen_params (v : Nat) : (s.setKeyLen v).params = s.params := rfl
@[simp] theorem State.setKeyLen_cmd (v : Nat) : (s.setKeyLen v).cmd = s.cmd := rfl
@[simp] theorem State.setKeyLen_err (v : Nat) : (s.setKeyLen v).err = s.err := rfl
@[simp] theorem State.setKeyLen_status (v : Nat) : (s.setKeyLen v).status = s.status := rfl
@[simp] theorem State.setKeyLen_fbLen (v : Nat) : (s.setKeyLen v).fbLen = s.fbLen := rfl
@[simp] theorem State.setKeyLen_hdrB0 (v : Nat) : (s.setKeyLen v).hdrB0 = s.hdrB0 := rfl
@[simp] theorem State.setKeyLen_hdrB1 (v : Nat) : (s.setKeyLen v).hdrB1 = s.hdrB1 := rfl
@[simp] theorem State.setKeyLen_hdrFin (v : Nat) : (s.setKeyLen v).hdrFin = s.hdrFin := rfl
@[simp] theorem State.setKeyLen_hdrLtier (v : Nat) : (s.setKeyLen v).hdrLtier = s.hdrLtier := rfl
@[simp] theorem State.setKeyLen_hdrPlen (v : Nat) : (s.setKeyLen v).hdrPlen = s.hdrPlen := rfl
@[simp] theorem State.setKeyLen_hdrMoff (v : Nat) : (s.setKeyLen v).hdrMoff = s.hdrMoff := rfl
@[simp] theorem State.setKeyLen_hdrPoff (v : Nat) : (s.setKeyLen v).hdrPoff = s.hdrPoff := rfl
@[simp] theorem State.setKeyLen_mkey (v : Nat) : (s.setKeyLen v).mkey = s.mkey := rfl
@[simp] theorem State.setKeyLen_outLen (v : Nat) : (s.setKeyLen v).outLen = s.outLen := rfl
@[simp] theorem State.setKeyLen_accLen (v : Nat) : (s.setKeyLen v).accLen = s.accLen := rfl
@[simp] theorem State.setKeyLen_keyLen (v : Nat) : (s.setKeyLen v).keyLen = min v s.params.keyCap := rfl
@[simp] theorem State.setKeyLen_keyPresent (v : Nat) : (s.setKeyLen v).keyPresent = s.keyPresent := rfl
@[simp] theorem State.setKeyLen_fb (v : Nat) : (s.setKeyLen v).fb = s.fb := rfl
@[simp] theorem State.setKeyLen_out (v : Nat) : (s.setKeyLen v).out = s.out := rfl
@[simp] theorem State.setKeyLen_acc (v : Nat) : (s.setKeyLen v).acc = s.acc := rfl
@[simp] theorem State.setKeyLen_key (v : Nat) : (s.setKeyLen v).key = s.key := rfl
@[simp] theorem State.setKeyLen_tok (v : Nat) : (s.setKeyLen v).tok = s.tok := rfl
@[simp] theorem State.setKeyLen_pending (v : Nat) : (s.setKeyLen v).pending = s.pending := rfl
@[simp] theorem State.setKeyLen_observed (v : Nat) : (s.setKeyLen v).observed = s.observed := rfl
@[simp] theorem State.setKeyLen_draws (v : Nat) : (s.setKeyLen v).draws = s.draws := rfl
@[simp] theorem State.setKeyLen_epoch (v : Nat) : (s.setKeyLen v).epoch = s.epoch := rfl
@[simp] theorem State.setKeyLen_writes (v : Nat) : (s.setKeyLen v).writes = s.writes := rfl
@[simp] theorem State.setKeyLen_inst (v : Nat) : (s.setKeyLen v).inst = s.inst := rfl
@[simp] theorem State.setKeyLen_frame (v : Nat) : (s.setKeyLen v).frame = s.frame := rfl
@[simp] theorem State.setKeyLen_outBytes (v : Nat) : (s.setKeyLen v).outBytes = s.outBytes := rfl
@[simp] theorem State.setKeyLen_accBytes (v : Nat) : (s.setKeyLen v).accBytes = s.accBytes := rfl
@[simp] theorem State.setKeyLen_tokBytes (v : Nat) : (s.setKeyLen v).tokBytes = s.tokBytes := rfl
@[simp] theorem State.setKeyLen_flag (v : Nat) (g : StatusFlag) : (s.setKeyLen v).flag g = s.flag g := rfl

/-! ### setKeyPresent -/

@[simp] theorem State.setKeyPresent_params (b : BitVec 1) : (s.setKeyPresent b).params = s.params := rfl
@[simp] theorem State.setKeyPresent_cmd (b : BitVec 1) : (s.setKeyPresent b).cmd = s.cmd := rfl
@[simp] theorem State.setKeyPresent_err (b : BitVec 1) : (s.setKeyPresent b).err = s.err := rfl
@[simp] theorem State.setKeyPresent_status (b : BitVec 1) : (s.setKeyPresent b).status = s.status := rfl
@[simp] theorem State.setKeyPresent_fbLen (b : BitVec 1) : (s.setKeyPresent b).fbLen = s.fbLen := rfl
@[simp] theorem State.setKeyPresent_hdrB0 (b : BitVec 1) : (s.setKeyPresent b).hdrB0 = s.hdrB0 := rfl
@[simp] theorem State.setKeyPresent_hdrB1 (b : BitVec 1) : (s.setKeyPresent b).hdrB1 = s.hdrB1 := rfl
@[simp] theorem State.setKeyPresent_hdrFin (b : BitVec 1) : (s.setKeyPresent b).hdrFin = s.hdrFin := rfl
@[simp] theorem State.setKeyPresent_hdrLtier (b : BitVec 1) : (s.setKeyPresent b).hdrLtier = s.hdrLtier := rfl
@[simp] theorem State.setKeyPresent_hdrPlen (b : BitVec 1) : (s.setKeyPresent b).hdrPlen = s.hdrPlen := rfl
@[simp] theorem State.setKeyPresent_hdrMoff (b : BitVec 1) : (s.setKeyPresent b).hdrMoff = s.hdrMoff := rfl
@[simp] theorem State.setKeyPresent_hdrPoff (b : BitVec 1) : (s.setKeyPresent b).hdrPoff = s.hdrPoff := rfl
@[simp] theorem State.setKeyPresent_mkey (b : BitVec 1) : (s.setKeyPresent b).mkey = s.mkey := rfl
@[simp] theorem State.setKeyPresent_outLen (b : BitVec 1) : (s.setKeyPresent b).outLen = s.outLen := rfl
@[simp] theorem State.setKeyPresent_accLen (b : BitVec 1) : (s.setKeyPresent b).accLen = s.accLen := rfl
@[simp] theorem State.setKeyPresent_keyLen (b : BitVec 1) : (s.setKeyPresent b).keyLen = s.keyLen := rfl
@[simp] theorem State.setKeyPresent_keyPresent (b : BitVec 1) : (s.setKeyPresent b).keyPresent = b := rfl
@[simp] theorem State.setKeyPresent_fb (b : BitVec 1) : (s.setKeyPresent b).fb = s.fb := rfl
@[simp] theorem State.setKeyPresent_out (b : BitVec 1) : (s.setKeyPresent b).out = s.out := rfl
@[simp] theorem State.setKeyPresent_acc (b : BitVec 1) : (s.setKeyPresent b).acc = s.acc := rfl
@[simp] theorem State.setKeyPresent_key (b : BitVec 1) : (s.setKeyPresent b).key = s.key := rfl
@[simp] theorem State.setKeyPresent_tok (b : BitVec 1) : (s.setKeyPresent b).tok = s.tok := rfl
@[simp] theorem State.setKeyPresent_pending (b : BitVec 1) : (s.setKeyPresent b).pending = s.pending := rfl
@[simp] theorem State.setKeyPresent_observed (b : BitVec 1) : (s.setKeyPresent b).observed = s.observed := rfl
@[simp] theorem State.setKeyPresent_draws (b : BitVec 1) : (s.setKeyPresent b).draws = s.draws := rfl
@[simp] theorem State.setKeyPresent_epoch (b : BitVec 1) : (s.setKeyPresent b).epoch = s.epoch := rfl
@[simp] theorem State.setKeyPresent_writes (b : BitVec 1) : (s.setKeyPresent b).writes = s.writes := rfl
@[simp] theorem State.setKeyPresent_inst (b : BitVec 1) : (s.setKeyPresent b).inst = s.inst := rfl
@[simp] theorem State.setKeyPresent_frame (b : BitVec 1) : (s.setKeyPresent b).frame = s.frame := rfl
@[simp] theorem State.setKeyPresent_keyBytes (b : BitVec 1) : (s.setKeyPresent b).keyBytes = s.keyBytes := rfl
@[simp] theorem State.setKeyPresent_outBytes (b : BitVec 1) : (s.setKeyPresent b).outBytes = s.outBytes := rfl
@[simp] theorem State.setKeyPresent_accBytes (b : BitVec 1) : (s.setKeyPresent b).accBytes = s.accBytes := rfl
@[simp] theorem State.setKeyPresent_tokBytes (b : BitVec 1) : (s.setKeyPresent b).tokBytes = s.tokBytes := rfl
@[simp] theorem State.setKeyPresent_flag (b : BitVec 1) (g : StatusFlag) : (s.setKeyPresent b).flag g = s.flag g := rfl

/-! ### storeFb -/

@[simp] theorem State.storeFb_params (i : Nat) (b : Byte) : (s.storeFb i b).params = s.params := rfl
@[simp] theorem State.storeFb_cmd (i : Nat) (b : Byte) : (s.storeFb i b).cmd = s.cmd := rfl
@[simp] theorem State.storeFb_err (i : Nat) (b : Byte) : (s.storeFb i b).err = s.err := rfl
@[simp] theorem State.storeFb_status (i : Nat) (b : Byte) : (s.storeFb i b).status = s.status := rfl
@[simp] theorem State.storeFb_fbLen (i : Nat) (b : Byte) : (s.storeFb i b).fbLen = s.fbLen := rfl
@[simp] theorem State.storeFb_hdrB0 (i : Nat) (b : Byte) : (s.storeFb i b).hdrB0 = s.hdrB0 := rfl
@[simp] theorem State.storeFb_hdrB1 (i : Nat) (b : Byte) : (s.storeFb i b).hdrB1 = s.hdrB1 := rfl
@[simp] theorem State.storeFb_hdrFin (i : Nat) (b : Byte) : (s.storeFb i b).hdrFin = s.hdrFin := rfl
@[simp] theorem State.storeFb_hdrLtier (i : Nat) (b : Byte) : (s.storeFb i b).hdrLtier = s.hdrLtier := rfl
@[simp] theorem State.storeFb_hdrPlen (i : Nat) (b : Byte) : (s.storeFb i b).hdrPlen = s.hdrPlen := rfl
@[simp] theorem State.storeFb_hdrMoff (i : Nat) (b : Byte) : (s.storeFb i b).hdrMoff = s.hdrMoff := rfl
@[simp] theorem State.storeFb_hdrPoff (i : Nat) (b : Byte) : (s.storeFb i b).hdrPoff = s.hdrPoff := rfl
@[simp] theorem State.storeFb_mkey (i : Nat) (b : Byte) : (s.storeFb i b).mkey = s.mkey := rfl
@[simp] theorem State.storeFb_outLen (i : Nat) (b : Byte) : (s.storeFb i b).outLen = s.outLen := rfl
@[simp] theorem State.storeFb_accLen (i : Nat) (b : Byte) : (s.storeFb i b).accLen = s.accLen := rfl
@[simp] theorem State.storeFb_keyLen (i : Nat) (b : Byte) : (s.storeFb i b).keyLen = s.keyLen := rfl
@[simp] theorem State.storeFb_keyPresent (i : Nat) (b : Byte) : (s.storeFb i b).keyPresent = s.keyPresent := rfl
@[simp] theorem State.storeFb_fb (i : Nat) (b : Byte) : (s.storeFb i b).fb = s.fb.write i b := rfl
@[simp] theorem State.storeFb_out (i : Nat) (b : Byte) : (s.storeFb i b).out = s.out := rfl
@[simp] theorem State.storeFb_acc (i : Nat) (b : Byte) : (s.storeFb i b).acc = s.acc := rfl
@[simp] theorem State.storeFb_key (i : Nat) (b : Byte) : (s.storeFb i b).key = s.key := rfl
@[simp] theorem State.storeFb_tok (i : Nat) (b : Byte) : (s.storeFb i b).tok = s.tok := rfl
@[simp] theorem State.storeFb_pending (i : Nat) (b : Byte) : (s.storeFb i b).pending = s.pending := rfl
@[simp] theorem State.storeFb_observed (i : Nat) (b : Byte) : (s.storeFb i b).observed = s.observed := rfl
@[simp] theorem State.storeFb_draws (i : Nat) (b : Byte) : (s.storeFb i b).draws = s.draws := rfl
@[simp] theorem State.storeFb_epoch (i : Nat) (b : Byte) : (s.storeFb i b).epoch = s.epoch := rfl
@[simp] theorem State.storeFb_writes (i : Nat) (b : Byte) : (s.storeFb i b).writes = s.writes := rfl
@[simp] theorem State.storeFb_inst (i : Nat) (b : Byte) : (s.storeFb i b).inst = s.inst := rfl
@[simp] theorem State.storeFb_keyBytes (i : Nat) (b : Byte) : (s.storeFb i b).keyBytes = s.keyBytes := rfl
@[simp] theorem State.storeFb_outBytes (i : Nat) (b : Byte) : (s.storeFb i b).outBytes = s.outBytes := rfl
@[simp] theorem State.storeFb_accBytes (i : Nat) (b : Byte) : (s.storeFb i b).accBytes = s.accBytes := rfl
@[simp] theorem State.storeFb_tokBytes (i : Nat) (b : Byte) : (s.storeFb i b).tokBytes = s.tokBytes := rfl
@[simp] theorem State.storeFb_flag (i : Nat) (b : Byte) (g : StatusFlag) : (s.storeFb i b).flag g = s.flag g := rfl

/-! ### storeKey -/

@[simp] theorem State.storeKey_params (i : Nat) (b : Byte) : (s.storeKey i b).params = s.params := rfl
@[simp] theorem State.storeKey_cmd (i : Nat) (b : Byte) : (s.storeKey i b).cmd = s.cmd := rfl
@[simp] theorem State.storeKey_err (i : Nat) (b : Byte) : (s.storeKey i b).err = s.err := rfl
@[simp] theorem State.storeKey_status (i : Nat) (b : Byte) : (s.storeKey i b).status = s.status := rfl
@[simp] theorem State.storeKey_fbLen (i : Nat) (b : Byte) : (s.storeKey i b).fbLen = s.fbLen := rfl
@[simp] theorem State.storeKey_hdrB0 (i : Nat) (b : Byte) : (s.storeKey i b).hdrB0 = s.hdrB0 := rfl
@[simp] theorem State.storeKey_hdrB1 (i : Nat) (b : Byte) : (s.storeKey i b).hdrB1 = s.hdrB1 := rfl
@[simp] theorem State.storeKey_hdrFin (i : Nat) (b : Byte) : (s.storeKey i b).hdrFin = s.hdrFin := rfl
@[simp] theorem State.storeKey_hdrLtier (i : Nat) (b : Byte) : (s.storeKey i b).hdrLtier = s.hdrLtier := rfl
@[simp] theorem State.storeKey_hdrPlen (i : Nat) (b : Byte) : (s.storeKey i b).hdrPlen = s.hdrPlen := rfl
@[simp] theorem State.storeKey_hdrMoff (i : Nat) (b : Byte) : (s.storeKey i b).hdrMoff = s.hdrMoff := rfl
@[simp] theorem State.storeKey_hdrPoff (i : Nat) (b : Byte) : (s.storeKey i b).hdrPoff = s.hdrPoff := rfl
@[simp] theorem State.storeKey_mkey (i : Nat) (b : Byte) : (s.storeKey i b).mkey = s.mkey := rfl
@[simp] theorem State.storeKey_outLen (i : Nat) (b : Byte) : (s.storeKey i b).outLen = s.outLen := rfl
@[simp] theorem State.storeKey_accLen (i : Nat) (b : Byte) : (s.storeKey i b).accLen = s.accLen := rfl
@[simp] theorem State.storeKey_keyLen (i : Nat) (b : Byte) : (s.storeKey i b).keyLen = s.keyLen := rfl
@[simp] theorem State.storeKey_keyPresent (i : Nat) (b : Byte) : (s.storeKey i b).keyPresent = s.keyPresent := rfl
@[simp] theorem State.storeKey_fb (i : Nat) (b : Byte) : (s.storeKey i b).fb = s.fb := rfl
@[simp] theorem State.storeKey_out (i : Nat) (b : Byte) : (s.storeKey i b).out = s.out := rfl
@[simp] theorem State.storeKey_acc (i : Nat) (b : Byte) : (s.storeKey i b).acc = s.acc := rfl
@[simp] theorem State.storeKey_key (i : Nat) (b : Byte) : (s.storeKey i b).key = s.key.write i b := rfl
@[simp] theorem State.storeKey_tok (i : Nat) (b : Byte) : (s.storeKey i b).tok = s.tok := rfl
@[simp] theorem State.storeKey_pending (i : Nat) (b : Byte) : (s.storeKey i b).pending = s.pending := rfl
@[simp] theorem State.storeKey_observed (i : Nat) (b : Byte) : (s.storeKey i b).observed = s.observed := rfl
@[simp] theorem State.storeKey_draws (i : Nat) (b : Byte) : (s.storeKey i b).draws = s.draws := rfl
@[simp] theorem State.storeKey_epoch (i : Nat) (b : Byte) : (s.storeKey i b).epoch = s.epoch := rfl
@[simp] theorem State.storeKey_writes (i : Nat) (b : Byte) : (s.storeKey i b).writes = s.writes := rfl
@[simp] theorem State.storeKey_inst (i : Nat) (b : Byte) : (s.storeKey i b).inst = s.inst := rfl
@[simp] theorem State.storeKey_frame (i : Nat) (b : Byte) : (s.storeKey i b).frame = s.frame := rfl
@[simp] theorem State.storeKey_outBytes (i : Nat) (b : Byte) : (s.storeKey i b).outBytes = s.outBytes := rfl
@[simp] theorem State.storeKey_accBytes (i : Nat) (b : Byte) : (s.storeKey i b).accBytes = s.accBytes := rfl
@[simp] theorem State.storeKey_tokBytes (i : Nat) (b : Byte) : (s.storeKey i b).tokBytes = s.tokBytes := rfl
@[simp] theorem State.storeKey_flag (i : Nat) (b : Byte) (g : StatusFlag) : (s.storeKey i b).flag g = s.flag g := rfl

/-! ### observe -/

@[simp] theorem State.observe_params (sp : Space) (i v : Nat) : (s.observe sp i v).params = s.params := rfl
@[simp] theorem State.observe_cmd (sp : Space) (i v : Nat) : (s.observe sp i v).cmd = s.cmd := rfl
@[simp] theorem State.observe_err (sp : Space) (i v : Nat) : (s.observe sp i v).err = s.err := rfl
@[simp] theorem State.observe_status (sp : Space) (i v : Nat) : (s.observe sp i v).status = s.status := rfl
@[simp] theorem State.observe_fbLen (sp : Space) (i v : Nat) : (s.observe sp i v).fbLen = s.fbLen := rfl
@[simp] theorem State.observe_hdrB0 (sp : Space) (i v : Nat) : (s.observe sp i v).hdrB0 = s.hdrB0 := rfl
@[simp] theorem State.observe_hdrB1 (sp : Space) (i v : Nat) : (s.observe sp i v).hdrB1 = s.hdrB1 := rfl
@[simp] theorem State.observe_hdrFin (sp : Space) (i v : Nat) : (s.observe sp i v).hdrFin = s.hdrFin := rfl
@[simp] theorem State.observe_hdrLtier (sp : Space) (i v : Nat) : (s.observe sp i v).hdrLtier = s.hdrLtier := rfl
@[simp] theorem State.observe_hdrPlen (sp : Space) (i v : Nat) : (s.observe sp i v).hdrPlen = s.hdrPlen := rfl
@[simp] theorem State.observe_hdrMoff (sp : Space) (i v : Nat) : (s.observe sp i v).hdrMoff = s.hdrMoff := rfl
@[simp] theorem State.observe_hdrPoff (sp : Space) (i v : Nat) : (s.observe sp i v).hdrPoff = s.hdrPoff := rfl
@[simp] theorem State.observe_mkey (sp : Space) (i v : Nat) : (s.observe sp i v).mkey = s.mkey := rfl
@[simp] theorem State.observe_outLen (sp : Space) (i v : Nat) : (s.observe sp i v).outLen = s.outLen := rfl
@[simp] theorem State.observe_accLen (sp : Space) (i v : Nat) : (s.observe sp i v).accLen = s.accLen := rfl
@[simp] theorem State.observe_keyLen (sp : Space) (i v : Nat) : (s.observe sp i v).keyLen = s.keyLen := rfl
@[simp] theorem State.observe_keyPresent (sp : Space) (i v : Nat) : (s.observe sp i v).keyPresent = s.keyPresent := rfl
@[simp] theorem State.observe_fb (sp : Space) (i v : Nat) : (s.observe sp i v).fb = s.fb := rfl
@[simp] theorem State.observe_out (sp : Space) (i v : Nat) : (s.observe sp i v).out = s.out := rfl
@[simp] theorem State.observe_acc (sp : Space) (i v : Nat) : (s.observe sp i v).acc = s.acc := rfl
@[simp] theorem State.observe_key (sp : Space) (i v : Nat) : (s.observe sp i v).key = s.key := rfl
@[simp] theorem State.observe_tok (sp : Space) (i v : Nat) : (s.observe sp i v).tok = s.tok := rfl
@[simp] theorem State.observe_pending (sp : Space) (i v : Nat) : (s.observe sp i v).pending = s.pending := rfl
@[simp] theorem State.observe_observed (sp : Space) (i v : Nat) : (s.observe sp i v).observed = ⟨sp, i, v⟩ :: s.observed := rfl
@[simp] theorem State.observe_draws (sp : Space) (i v : Nat) : (s.observe sp i v).draws = s.draws := rfl
@[simp] theorem State.observe_epoch (sp : Space) (i v : Nat) : (s.observe sp i v).epoch = s.epoch := rfl
@[simp] theorem State.observe_writes (sp : Space) (i v : Nat) : (s.observe sp i v).writes = s.writes := rfl
@[simp] theorem State.observe_inst (sp : Space) (i v : Nat) : (s.observe sp i v).inst = s.inst := rfl
@[simp] theorem State.observe_frame (sp : Space) (i v : Nat) : (s.observe sp i v).frame = s.frame := rfl
@[simp] theorem State.observe_keyBytes (sp : Space) (i v : Nat) : (s.observe sp i v).keyBytes = s.keyBytes := rfl
@[simp] theorem State.observe_outBytes (sp : Space) (i v : Nat) : (s.observe sp i v).outBytes = s.outBytes := rfl
@[simp] theorem State.observe_accBytes (sp : Space) (i v : Nat) : (s.observe sp i v).accBytes = s.accBytes := rfl
@[simp] theorem State.observe_tokBytes (sp : Space) (i v : Nat) : (s.observe sp i v).tokBytes = s.tokBytes := rfl
@[simp] theorem State.observe_flag (sp : Space) (i v : Nat) (g : StatusFlag) : (s.observe sp i v).flag g = s.flag g := rfl

/-! ### countWrite -/

@[simp] theorem State.countWrite_params : (s.countWrite).params = s.params := rfl
@[simp] theorem State.countWrite_cmd : (s.countWrite).cmd = s.cmd := rfl
@[simp] theorem State.countWrite_err : (s.countWrite).err = s.err := rfl
@[simp] theorem State.countWrite_status : (s.countWrite).status = s.status := rfl
@[simp] theorem State.countWrite_fbLen : (s.countWrite).fbLen = s.fbLen := rfl
@[simp] theorem State.countWrite_hdrB0 : (s.countWrite).hdrB0 = s.hdrB0 := rfl
@[simp] theorem State.countWrite_hdrB1 : (s.countWrite).hdrB1 = s.hdrB1 := rfl
@[simp] theorem State.countWrite_hdrFin : (s.countWrite).hdrFin = s.hdrFin := rfl
@[simp] theorem State.countWrite_hdrLtier : (s.countWrite).hdrLtier = s.hdrLtier := rfl
@[simp] theorem State.countWrite_hdrPlen : (s.countWrite).hdrPlen = s.hdrPlen := rfl
@[simp] theorem State.countWrite_hdrMoff : (s.countWrite).hdrMoff = s.hdrMoff := rfl
@[simp] theorem State.countWrite_hdrPoff : (s.countWrite).hdrPoff = s.hdrPoff := rfl
@[simp] theorem State.countWrite_mkey : (s.countWrite).mkey = s.mkey := rfl
@[simp] theorem State.countWrite_outLen : (s.countWrite).outLen = s.outLen := rfl
@[simp] theorem State.countWrite_accLen : (s.countWrite).accLen = s.accLen := rfl
@[simp] theorem State.countWrite_keyLen : (s.countWrite).keyLen = s.keyLen := rfl
@[simp] theorem State.countWrite_keyPresent : (s.countWrite).keyPresent = s.keyPresent := rfl
@[simp] theorem State.countWrite_fb : (s.countWrite).fb = s.fb := rfl
@[simp] theorem State.countWrite_out : (s.countWrite).out = s.out := rfl
@[simp] theorem State.countWrite_acc : (s.countWrite).acc = s.acc := rfl
@[simp] theorem State.countWrite_key : (s.countWrite).key = s.key := rfl
@[simp] theorem State.countWrite_tok : (s.countWrite).tok = s.tok := rfl
@[simp] theorem State.countWrite_pending : (s.countWrite).pending = s.pending := rfl
@[simp] theorem State.countWrite_observed : (s.countWrite).observed = s.observed := rfl
@[simp] theorem State.countWrite_draws : (s.countWrite).draws = s.draws := rfl
@[simp] theorem State.countWrite_epoch : (s.countWrite).epoch = s.epoch := rfl
@[simp] theorem State.countWrite_writes : (s.countWrite).writes = s.writes + 1 := rfl
@[simp] theorem State.countWrite_inst : (s.countWrite).inst = s.inst := rfl
@[simp] theorem State.countWrite_frame : (s.countWrite).frame = s.frame := rfl
@[simp] theorem State.countWrite_keyBytes : (s.countWrite).keyBytes = s.keyBytes := rfl
@[simp] theorem State.countWrite_outBytes : (s.countWrite).outBytes = s.outBytes := rfl
@[simp] theorem State.countWrite_accBytes : (s.countWrite).accBytes = s.accBytes := rfl
@[simp] theorem State.countWrite_tokBytes : (s.countWrite).tokBytes = s.tokBytes := rfl
@[simp] theorem State.countWrite_flag (g : StatusFlag) : (s.countWrite).flag g = s.flag g := rfl

/-! ### draw_snd -/

@[simp] theorem State.draw_snd_params : (s.draw.2).params = s.params := rfl
@[simp] theorem State.draw_snd_cmd : (s.draw.2).cmd = s.cmd := rfl
@[simp] theorem State.draw_snd_err : (s.draw.2).err = s.err := rfl
@[simp] theorem State.draw_snd_status : (s.draw.2).status = s.status := rfl
@[simp] theorem State.draw_snd_fbLen : (s.draw.2).fbLen = s.fbLen := rfl
@[simp] theorem State.draw_snd_hdrB0 : (s.draw.2).hdrB0 = s.hdrB0 := rfl
@[simp] theorem State.draw_snd_hdrB1 : (s.draw.2).hdrB1 = s.hdrB1 := rfl
@[simp] theorem State.draw_snd_hdrFin : (s.draw.2).hdrFin = s.hdrFin := rfl
@[simp] theorem State.draw_snd_hdrLtier : (s.draw.2).hdrLtier = s.hdrLtier := rfl
@[simp] theorem State.draw_snd_hdrPlen : (s.draw.2).hdrPlen = s.hdrPlen := rfl
@[simp] theorem State.draw_snd_hdrMoff : (s.draw.2).hdrMoff = s.hdrMoff := rfl
@[simp] theorem State.draw_snd_hdrPoff : (s.draw.2).hdrPoff = s.hdrPoff := rfl
@[simp] theorem State.draw_snd_mkey : (s.draw.2).mkey = s.mkey := rfl
@[simp] theorem State.draw_snd_outLen : (s.draw.2).outLen = s.outLen := rfl
@[simp] theorem State.draw_snd_accLen : (s.draw.2).accLen = s.accLen := rfl
@[simp] theorem State.draw_snd_keyLen : (s.draw.2).keyLen = s.keyLen := rfl
@[simp] theorem State.draw_snd_keyPresent : (s.draw.2).keyPresent = s.keyPresent := rfl
@[simp] theorem State.draw_snd_fb : (s.draw.2).fb = s.fb := rfl
@[simp] theorem State.draw_snd_out : (s.draw.2).out = s.out := rfl
@[simp] theorem State.draw_snd_acc : (s.draw.2).acc = s.acc := rfl
@[simp] theorem State.draw_snd_key : (s.draw.2).key = s.key := rfl
@[simp] theorem State.draw_snd_tok : (s.draw.2).tok = s.tok := rfl
@[simp] theorem State.draw_snd_pending : (s.draw.2).pending = s.pending := rfl
@[simp] theorem State.draw_snd_observed : (s.draw.2).observed = s.observed := rfl
@[simp] theorem State.draw_snd_draws : (s.draw.2).draws = s.draws + 1 := rfl
@[simp] theorem State.draw_snd_epoch : (s.draw.2).epoch = s.epoch := rfl
@[simp] theorem State.draw_snd_writes : (s.draw.2).writes = s.writes := rfl
@[simp] theorem State.draw_snd_inst : (s.draw.2).inst = s.inst := rfl
@[simp] theorem State.draw_snd_frame : (s.draw.2).frame = s.frame := rfl
@[simp] theorem State.draw_snd_keyBytes : (s.draw.2).keyBytes = s.keyBytes := rfl
@[simp] theorem State.draw_snd_outBytes : (s.draw.2).outBytes = s.outBytes := rfl
@[simp] theorem State.draw_snd_accBytes : (s.draw.2).accBytes = s.accBytes := rfl
@[simp] theorem State.draw_snd_tokBytes : (s.draw.2).tokBytes = s.tokBytes := rfl
@[simp] theorem State.draw_snd_flag (g : StatusFlag) : (s.draw.2).flag g = s.flag g := rfl

/-! ### advance -/

@[simp] theorem State.advance_params (r : List HostEvent) : (s.advance r).params = s.params := rfl
@[simp] theorem State.advance_cmd (r : List HostEvent) : (s.advance r).cmd = s.cmd := rfl
@[simp] theorem State.advance_err (r : List HostEvent) : (s.advance r).err = s.err := rfl
@[simp] theorem State.advance_status (r : List HostEvent) : (s.advance r).status = s.status := rfl
@[simp] theorem State.advance_fbLen (r : List HostEvent) : (s.advance r).fbLen = s.fbLen := rfl
@[simp] theorem State.advance_hdrB0 (r : List HostEvent) : (s.advance r).hdrB0 = s.hdrB0 := rfl
@[simp] theorem State.advance_hdrB1 (r : List HostEvent) : (s.advance r).hdrB1 = s.hdrB1 := rfl
@[simp] theorem State.advance_hdrFin (r : List HostEvent) : (s.advance r).hdrFin = s.hdrFin := rfl
@[simp] theorem State.advance_hdrLtier (r : List HostEvent) : (s.advance r).hdrLtier = s.hdrLtier := rfl
@[simp] theorem State.advance_hdrPlen (r : List HostEvent) : (s.advance r).hdrPlen = s.hdrPlen := rfl
@[simp] theorem State.advance_hdrMoff (r : List HostEvent) : (s.advance r).hdrMoff = s.hdrMoff := rfl
@[simp] theorem State.advance_hdrPoff (r : List HostEvent) : (s.advance r).hdrPoff = s.hdrPoff := rfl
@[simp] theorem State.advance_mkey (r : List HostEvent) : (s.advance r).mkey = s.mkey := rfl
@[simp] theorem State.advance_outLen (r : List HostEvent) : (s.advance r).outLen = s.outLen := rfl
@[simp] theorem State.advance_accLen (r : List HostEvent) : (s.advance r).accLen = s.accLen := rfl
@[simp] theorem State.advance_keyLen (r : List HostEvent) : (s.advance r).keyLen = s.keyLen := rfl
@[simp] theorem State.advance_keyPresent (r : List HostEvent) : (s.advance r).keyPresent = s.keyPresent := rfl
@[simp] theorem State.advance_fb (r : List HostEvent) : (s.advance r).fb = s.fb := rfl
@[simp] theorem State.advance_out (r : List HostEvent) : (s.advance r).out = s.out := rfl
@[simp] theorem State.advance_acc (r : List HostEvent) : (s.advance r).acc = s.acc := rfl
@[simp] theorem State.advance_key (r : List HostEvent) : (s.advance r).key = s.key := rfl
@[simp] theorem State.advance_tok (r : List HostEvent) : (s.advance r).tok = s.tok := rfl
@[simp] theorem State.advance_pending (r : List HostEvent) : (s.advance r).pending = r := rfl
@[simp] theorem State.advance_observed (r : List HostEvent) : (s.advance r).observed = s.observed := rfl
@[simp] theorem State.advance_draws (r : List HostEvent) : (s.advance r).draws = s.draws := rfl
@[simp] theorem State.advance_epoch (r : List HostEvent) : (s.advance r).epoch = s.epoch := rfl
@[simp] theorem State.advance_writes (r : List HostEvent) : (s.advance r).writes = s.writes := rfl
@[simp] theorem State.advance_inst (r : List HostEvent) : (s.advance r).inst = s.inst := rfl
@[simp] theorem State.advance_frame (r : List HostEvent) : (s.advance r).frame = s.frame := rfl
@[simp] theorem State.advance_keyBytes (r : List HostEvent) : (s.advance r).keyBytes = s.keyBytes := rfl
@[simp] theorem State.advance_outBytes (r : List HostEvent) : (s.advance r).outBytes = s.outBytes := rfl
@[simp] theorem State.advance_accBytes (r : List HostEvent) : (s.advance r).accBytes = s.accBytes := rfl
@[simp] theorem State.advance_tokBytes (r : List HostEvent) : (s.advance r).tokBytes = s.tokBytes := rfl
@[simp] theorem State.advance_flag (r : List HostEvent) (g : StatusFlag) : (s.advance r).flag g = s.flag g := rfl

/-! ### pushCmdWrite -/

@[simp] theorem State.pushCmdWrite_params (w : Nat) : (s.pushCmdWrite w).params = s.params := rfl
@[simp] theorem State.pushCmdWrite_cmd (w : Nat) : (s.pushCmdWrite w).cmd = s.cmd := rfl
@[simp] theorem State.pushCmdWrite_err (w : Nat) : (s.pushCmdWrite w).err = s.err := rfl
@[simp] theorem State.pushCmdWrite_status (w : Nat) : (s.pushCmdWrite w).status = s.status := rfl
@[simp] theorem State.pushCmdWrite_fbLen (w : Nat) : (s.pushCmdWrite w).fbLen = s.fbLen := rfl
@[simp] theorem State.pushCmdWrite_hdrB0 (w : Nat) : (s.pushCmdWrite w).hdrB0 = s.hdrB0 := rfl
@[simp] theorem State.pushCmdWrite_hdrB1 (w : Nat) : (s.pushCmdWrite w).hdrB1 = s.hdrB1 := rfl
@[simp] theorem State.pushCmdWrite_hdrFin (w : Nat) : (s.pushCmdWrite w).hdrFin = s.hdrFin := rfl
@[simp] theorem State.pushCmdWrite_hdrLtier (w : Nat) : (s.pushCmdWrite w).hdrLtier = s.hdrLtier := rfl
@[simp] theorem State.pushCmdWrite_hdrPlen (w : Nat) : (s.pushCmdWrite w).hdrPlen = s.hdrPlen := rfl
@[simp] theorem State.pushCmdWrite_hdrMoff (w : Nat) : (s.pushCmdWrite w).hdrMoff = s.hdrMoff := rfl
@[simp] theorem State.pushCmdWrite_hdrPoff (w : Nat) : (s.pushCmdWrite w).hdrPoff = s.hdrPoff := rfl
@[simp] theorem State.pushCmdWrite_mkey (w : Nat) : (s.pushCmdWrite w).mkey = s.mkey := rfl
@[simp] theorem State.pushCmdWrite_outLen (w : Nat) : (s.pushCmdWrite w).outLen = s.outLen := rfl
@[simp] theorem State.pushCmdWrite_accLen (w : Nat) : (s.pushCmdWrite w).accLen = s.accLen := rfl
@[simp] theorem State.pushCmdWrite_keyLen (w : Nat) : (s.pushCmdWrite w).keyLen = s.keyLen := rfl
@[simp] theorem State.pushCmdWrite_keyPresent (w : Nat) : (s.pushCmdWrite w).keyPresent = s.keyPresent := rfl
@[simp] theorem State.pushCmdWrite_fb (w : Nat) : (s.pushCmdWrite w).fb = s.fb := rfl
@[simp] theorem State.pushCmdWrite_out (w : Nat) : (s.pushCmdWrite w).out = s.out := rfl
@[simp] theorem State.pushCmdWrite_acc (w : Nat) : (s.pushCmdWrite w).acc = s.acc := rfl
@[simp] theorem State.pushCmdWrite_key (w : Nat) : (s.pushCmdWrite w).key = s.key := rfl
@[simp] theorem State.pushCmdWrite_tok (w : Nat) : (s.pushCmdWrite w).tok = s.tok := rfl
@[simp] theorem State.pushCmdWrite_pending (w : Nat) : (s.pushCmdWrite w).pending = .access (.write .reg 0 w) :: s.pending := rfl
@[simp] theorem State.pushCmdWrite_observed (w : Nat) : (s.pushCmdWrite w).observed = s.observed := rfl
@[simp] theorem State.pushCmdWrite_draws (w : Nat) : (s.pushCmdWrite w).draws = s.draws := rfl
@[simp] theorem State.pushCmdWrite_epoch (w : Nat) : (s.pushCmdWrite w).epoch = s.epoch := rfl
@[simp] theorem State.pushCmdWrite_writes (w : Nat) : (s.pushCmdWrite w).writes = s.writes := rfl
@[simp] theorem State.pushCmdWrite_inst (w : Nat) : (s.pushCmdWrite w).inst = s.inst := rfl
@[simp] theorem State.pushCmdWrite_frame (w : Nat) : (s.pushCmdWrite w).frame = s.frame := rfl
@[simp] theorem State.pushCmdWrite_keyBytes (w : Nat) : (s.pushCmdWrite w).keyBytes = s.keyBytes := rfl
@[simp] theorem State.pushCmdWrite_outBytes (w : Nat) : (s.pushCmdWrite w).outBytes = s.outBytes := rfl
@[simp] theorem State.pushCmdWrite_accBytes (w : Nat) : (s.pushCmdWrite w).accBytes = s.accBytes := rfl
@[simp] theorem State.pushCmdWrite_tokBytes (w : Nat) : (s.pushCmdWrite w).tokBytes = s.tokBytes := rfl
@[simp] theorem State.pushCmdWrite_flag (w : Nat) (g : StatusFlag) : (s.pushCmdWrite w).flag g = s.flag g := rfl

end Sys2Proof.Machine
end

