-- ==== Sys2Proof/Laws/Flags.lean ====
section
/-! SUPPORT. The flags of STATUS (`10_state.md` R23): assigning one flag gives it the value and leaves the others. -/

namespace Sys2Proof.Machine

/-- The four bits of a 4-bit value decide it. -/
theorem assignBit_getLsbD (x : BitVec 4) (f g : StatusFlag) (b : Bool) :
    (if b then x ||| f.mask else x &&& ~~~f.mask).getLsbD g.bit = if g = f then b else x.getLsbD g.bit := by
  revert x
  cases f <;> cases g <;> cases b <;> decide

@[simp] theorem State.flag_setFlag (s : State) (f g : StatusFlag) (b : Bool) :
    (s.setFlag f b).flag g = if g = f then b else s.flag g :=
  assignBit_getLsbD s.status f g b

/-- A flag is cleared by the complement of its mask, as a 4-bit constant. -/
theorem StatusFlag.mask_val :
    StatusFlag.lenValid.mask = 0b0001 ∧ StatusFlag.hdrValid.mask = 0b0010 ∧ StatusFlag.complete.mask = 0b0100 ∧
      StatusFlag.tokValid.mask = 0b1000 := by decide

/-- Setting or clearing one flag, as 4-bit arithmetic on STATUS. -/
theorem State.setFlag_val (s : State) :
    s.setFlag .lenValid true = { s with status := s.status ||| 0b0001 } ∧
    s.setFlag .lenValid false = { s with status := s.status &&& 0b1110 } ∧
    s.setFlag .hdrValid true = { s with status := s.status ||| 0b0010 } ∧
    s.setFlag .hdrValid false = { s with status := s.status &&& 0b1101 } ∧
    s.setFlag .complete true = { s with status := s.status ||| 0b0100 } ∧
    s.setFlag .complete false = { s with status := s.status &&& 0b1011 } ∧
    s.setFlag .tokValid true = { s with status := s.status ||| 0b1000 } ∧
    s.setFlag .tokValid false = { s with status := s.status &&& 0b0111 } :=
  ⟨rfl, rfl, rfl, rfl, rfl, rfl, rfl, rfl⟩

/-- How a failing frame command ends, as 4-bit arithmetic (R203). -/
theorem State.failFrame_val (s : State) (e : ErrKind) :
    s.failFrame e = { s with status := s.status &&& 0b1100, err := e.code } := by
  have h : ∀ x : BitVec 4, (x &&& 0b1110) &&& 0b1101 = x &&& 0b1100 := by decide
  show ({ s with status := (s.status &&& 0b1110) &&& 0b1101, err := e.code } : State) = _
  rw [h]

/-- How a failing DERIVE_ACCEPT ends, as 4-bit arithmetic (R203). -/
theorem State.failKey_val (s : State) : s.failKey = { s with status := s.status &&& 0b0111, err := 3 } := rfl

end Sys2Proof.Machine
end

