-- ==== Sys2Proof/Laws/Commands.lean ====
section
/-! SUPPORT. What each pure function and each command can do, said once: later proofs cite these and unfold no command. -/

namespace Sys2Proof.Machine

/-- `decodeLen` fails with MALFORMED_FRAME or returns a record: `n >= moff`, and the fields of one tier (R131). -/
theorem decodeLen_cases (fb : List Byte) :
    decodeLen fb = .error .malformedFrame ∨
    ∃ r, decodeLen fb = .ok r ∧ 2 ≤ fb.length ∧ r.moff.toNat ≤ fb.length ∧ r.b0 = byteAt fb 0 ∧ r.b1 = byteAt fb 1 ∧
      r.fin = finBit r.b0 ∧
      ((rawLength r.b1 < 126 ∧ r.tier = 0 ∧ r.moff = 2 ∧ r.plen = BitVec.ofNat 64 (rawLength r.b1)) ∨
       (rawLength r.b1 = 126 ∧ r.tier = 1 ∧ r.moff = 4 ∧ r.plen = BitVec.ofNat 64 (be [byteAt fb 2, byteAt fb 3])) ∨
       (rawLength r.b1 = 127 ∧ r.tier = 2 ∧ r.moff = 10 ∧
        r.plen = BitVec.ofNat 64 (be [byteAt fb 2, byteAt fb 3, byteAt fb 4, byteAt fb 5, byteAt fb 6, byteAt fb 7,
          byteAt fb 8, byteAt fb 9]))) := by
  have hlt : rawLength (byteAt fb 1) < 128 := by rw [rawLength_eq]; omega
  simp only [decodeLen]
  split
  · exact .inl rfl
  · split
    · next h2 h => exact .inr ⟨_, rfl, by omega, by show 2 ≤ _; omega, rfl, rfl, rfl, .inl ⟨h, rfl, rfl, rfl⟩⟩
    · split
      · next h126 =>
        split
        · exact .inl rfl
        · exact .inr ⟨_, rfl, by omega, by show 4 ≤ _; omega, rfl, rfl, rfl, .inr (.inl ⟨h126, rfl, rfl, rfl⟩)⟩
      · split
        · exact .inl rfl
        · exact .inr ⟨_, rfl, by omega, by show 10 ≤ _; omega, rfl, rfl, rfl,
            .inr (.inr ⟨by show rawLength (byteAt fb 1) = 127; omega, rfl, rfl, rfl⟩)⟩

/-- A header of tier T7 (R76, R131). -/
theorem decodeLen_t7 (b0 b1 : Byte) (q : List Byte) (h : rawLength b1 < 126) :
    decodeLen (b0 :: b1 :: q) = .ok ⟨b0, b1, finBit b0, 0, BitVec.ofNat 64 (rawLength b1), 2⟩ := by
  simp [decodeLen, byteAt, h]

/-- A header of tier T16 (R77, R131). -/
theorem decodeLen_t16 (b0 b1 x y : Byte) (q : List Byte) (h : rawLength b1 = 126) :
    decodeLen (b0 :: b1 :: x :: y :: q) = .ok ⟨b0, b1, finBit b0, 1, BitVec.ofNat 64 (be [x, y]), 4⟩ := by
  simp [decodeLen, byteAt, h]

/-- A header of tier T64 (R78, R131). -/
theorem decodeLen_t64 (b0 b1 x0 x1 x2 x3 x4 x5 x6 x7 : Byte) (q : List Byte) (h : rawLength b1 = 127) :
    decodeLen (b0 :: b1 :: x0 :: x1 :: x2 :: x3 :: x4 :: x5 :: x6 :: x7 :: q) =
      .ok ⟨b0, b1, finBit b0, 2, BitVec.ofNat 64 (be [x0, x1, x2, x3, x4, x5, x6, x7]), 10⟩ := by
  simp [decodeLen, byteAt, h]

/-- The only error of `decodeLen` (R136). -/
theorem decodeLen_error {fb : List Byte} {e : ErrKind} (h : decodeLen fb = .error e) : e = .malformedFrame := by
  rcases decodeLen_cases fb with h' | ⟨r, h', -⟩ <;> rw [h] at h' <;> simp_all

/-- `parseHdr` fails with MALFORMED_FRAME or extends `decodeLen`'s record, the key all there (R134). -/
theorem parseHdr_cases (fb : List Byte) :
    parseHdr fb = .error .malformedFrame ∨
    ∃ r, parseHdr fb = .ok r ∧ decodeLen fb = .ok r.toLenInfo ∧ r.moff.toNat + 4 ≤ fb.length ∧
      r.mkey = ⟨byteAt fb r.moff.toNat, byteAt fb (r.moff.toNat + 1), byteAt fb (r.moff.toNat + 2),
        byteAt fb (r.moff.toNat + 3)⟩ ∧ r.poff = r.moff + 4 := by
  simp only [parseHdr]
  split
  · next e h => rw [decodeLen_error h]; exact .inl rfl
  · next r h =>
    split
    · exact .inl rfl
    · exact .inr ⟨_, rfl, h, by show r.moff.toNat + 4 ≤ _; omega, rfl, rfl⟩

theorem parseHdr_error {fb : List Byte} {e : ErrKind} (h : parseHdr fb = .error e) : e = .malformedFrame := by
  rcases parseHdr_cases fb with h' | ⟨r, h', -⟩ <;> rw [h] at h' <;> simp_all

/-- The offsets of a parsed header: POFF is MOFF + 4, which is 6, 8 or 14 (R30). -/
theorem parseHdr_poff {fb : List Byte} {r : HdrInfo} (h : parseHdr fb = .ok r) :
    r.poff.toNat = r.moff.toNat + 4 ∧ (r.poff.toNat = 6 ∨ r.poff.toNat = 8 ∨ r.poff.toNat = 14) ∧
      r.poff.toNat ≤ fb.length := by
  rcases parseHdr_cases fb with h' | ⟨r', h', hd, hlen, -, hp⟩
  · rw [h] at h'; simp at h'
  · rw [h] at h'; injection h' with h'; subst h'
    rcases decodeLen_cases fb with hd' | ⟨q, hd', -, -, -, -, -, hq⟩
    · rw [hd] at hd'; simp at hd'
    · rw [hd] at hd'; injection hd' with hd'
      rcases hq with ⟨-, -, hm, -⟩ | ⟨-, -, hm, -⟩ | ⟨-, -, hm, -⟩ <;> rw [← hd'] at hm <;>
        (rw [hm] at hlen; simp [hp, hm] at hlen ⊢; omega)

/-- `unmaskFn` succeeds exactly when the frame end is in the buffer, and what it returns then (R160). -/
theorem unmaskFn_ok {fb : List Byte} {poff plen : Nat} (mk : MaskKey) (h : poff + plen ≤ fb.length) :
    unmaskFn fb poff plen mk = .ok ((List.range plen).map fun i => byteAt fb (poff + i) ^^^ mk.byteFor i) := by
  simp [unmaskFn, Nat.not_lt.mpr h]

theorem unmaskFn_error {fb : List Byte} {poff plen : Nat} (mk : MaskKey) (h : fb.length < poff + plen) :
    unmaskFn fb poff plen mk = .error .truncatedPayload := by
  simp [unmaskFn, h]

/-- What DERIVE_ACCEPT does (R112). -/
theorem execDeriveAccept_cases (s : State) :
    ((s.keyPresent = 0 ∨ utf8Valid s.keyBytes = false) ∧ execDeriveAccept s = .next s.failKey) ∨
    (s.keyPresent ≠ 0 ∧ utf8Valid s.keyBytes = true ∧ execDeriveAccept s =
      .next ((s.writeTok (deriveAcceptToken s.keyBytes)).setFlag .tokValid true).succeed) := by
  unfold execDeriveAccept
  by_cases h1 : s.keyPresent = 0
  · exact .inl ⟨.inl h1, by rw [if_pos h1]⟩
  · cases h2 : utf8Valid s.keyBytes
    · exact .inl ⟨.inr rfl, by rw [if_neg h1]; rfl⟩
    · exact .inr ⟨h1, rfl, by rw [if_neg h1]; rfl⟩

/-- What DECODE_LEN does (R137). -/
theorem execDecodeLen_cases (s : State) :
    (decodeLen s.frame = .error .malformedFrame ∧ execDecodeLen s = .next (s.failFrame .malformedFrame)) ∨
    ∃ r, decodeLen s.frame = .ok r ∧
      execDecodeLen s = .next (((s.latchLen r).setFlag .lenValid true).setFlag .hdrValid false).succeed := by
  unfold execDecodeLen
  rcases decodeLen_cases s.frame with h | ⟨r, h, -⟩ <;> rw [h]
  · exact .inl ⟨rfl, rfl⟩
  · exact .inr ⟨r, rfl, rfl⟩

/-- What PARSE_HEADER does (R139). -/
theorem execParseHeader_cases (s : State) :
    (parseHdr s.frame = .error .malformedFrame ∧ execParseHeader s = .next (s.failFrame .malformedFrame)) ∨
    ∃ r, parseHdr s.frame = .ok r ∧ execParseHeader s = .next (s.latchHdr r).succeed := by
  unfold execParseHeader
  rcases parseHdr_cases s.frame with h | ⟨r, h, -⟩ <;> rw [h]
  · exact .inl ⟨rfl, rfl⟩
  · exact .inr ⟨r, rfl, rfl⟩

/-- The bytes a payload decodes to (R161). -/
def State.payload (s : State) (poff plen : Nat) (mk : MaskKey) : List Byte :=
  (List.range plen).map fun i => byteAt s.frame (poff + i) ^^^ mk.byteFor i

@[simp] theorem State.length_payload (s : State) (poff plen : Nat) (mk : MaskKey) :
    (s.payload poff plen mk).length = plen := by simp [State.payload]

/-- Latching a whole header, as 4-bit arithmetic on STATUS (R139). -/
theorem State.latchHdr_val (s : State) (r : HdrInfo) :
    s.latchHdr r = { s with
      hdrB0 := r.b0, hdrB1 := r.b1, hdrFin := r.fin, hdrLtier := r.tier, hdrPlen := r.plen, hdrMoff := r.moff,
      mkey := r.mkey, hdrPoff := r.poff, status := s.status ||| 0b0011 } := by
  have h : ∀ x : BitVec 4, ((x ||| 0b0001) ||| 0b0010) = x ||| 0b0011 := by decide
  show ({ s with
    hdrB0 := r.b0, hdrB1 := r.b1, hdrFin := r.fin, hdrLtier := r.tier, hdrPlen := r.plen, hdrMoff := r.moff,
    mkey := r.mkey, hdrPoff := r.poff, status := (s.status ||| 0b0001) ||| 0b0010 } : State) = _
  rw [h]

/-- The key byte of a payload index, by the four residues (R31). -/
theorem MaskKey.byteFor_eq (k : MaskKey) (i : Nat) :
    k.byteFor i = if i % 4 = 0 then k.k0 else if i % 4 = 1 then k.k1 else if i % 4 = 2 then k.k2 else k.k3 := by
  unfold MaskKey.byteFor
  have : i % 4 < 4 := Nat.mod_lt _ (by omega)
  generalize i % 4 = j at *
  interval_cases j <;> rfl

/-- Payload byte `i` of a payload that lies inside the frame (R161). -/
theorem State.getElem?_payload (s : State) {poff plen i : Nat} (k : MaskKey) (h : poff + plen ≤ s.fbLen)
    (hi : i < plen) : (s.payload poff plen k)[i]? = some (s.fbByte (poff + i) ^^^ k.byteFor i) := by
  simp [State.payload, hi, s.byteAt_frame (show poff + i < s.fbLen by omega)]

/-- What UNMASK does (R162). -/
theorem execUnmask_cases (s : State) :
    (s.flag .hdrValid = false ∧ execUnmask s = .next (s.raise .noHeader)) ∨
    (s.flag .hdrValid = true ∧ s.fbLen < s.hdrPoff.toNat + s.hdrPlen.toNat ∧
      execUnmask s = .next (s.raise .truncatedPayload)) ∨
    (s.flag .hdrValid = true ∧ s.hdrPoff.toNat + s.hdrPlen.toNat ≤ s.fbLen ∧
      execUnmask s = .next (s.writeOut (s.payload s.hdrPoff.toNat s.hdrPlen.toNat s.mkey)).succeed) := by
  unfold execUnmask
  cases hv : s.flag .hdrValid
  · exact .inl ⟨rfl, rfl⟩
  · by_cases h : s.fbLen < s.hdrPoff.toNat + s.hdrPlen.toNat
    · rw [unmaskFn_error _ (by simpa using h)]; exact .inr (.inl ⟨rfl, h, rfl⟩)
    · rw [unmaskFn_ok _ (by simpa using h)]; exact .inr (.inr ⟨rfl, by omega, rfl⟩)

/-- What INGEST does (R181, R190). -/
theorem execIngest_cases (s : State) :
    (parseHdr s.frame = .error .malformedFrame ∧ execIngest s = .next (s.failFrame .malformedFrame)) ∨
    ∃ r, parseHdr s.frame = .ok r ∧
      ((s.fbLen < r.poff.toNat + r.plen.toNat ∧ execIngest s = .next (s.failFrame .truncatedPayload)) ∨
       (r.poff.toNat + r.plen.toNat ≤ s.fbLen ∧ s.params.accCap < s.accLen + r.plen.toNat ∧
        execIngest s = .next (s.failFrame .accOverflow)) ∨
       (r.poff.toNat + r.plen.toNat ≤ s.fbLen ∧ s.accLen + r.plen.toNat ≤ s.params.accCap ∧
        execIngest s = .next ((((s.latchHdr r).writeOut (s.payload r.poff.toNat r.plen.toNat r.mkey)).appendAcc
          (s.payload r.poff.toNat r.plen.toNat r.mkey)).setFlag .complete (r.fin == 1)).succeed)) := by
  unfold execIngest
  rcases parseHdr_cases s.frame with h | ⟨r, h, -⟩ <;> rw [h]
  · exact .inl ⟨rfl, rfl⟩
  · refine .inr ⟨r, rfl, ?_⟩
    dsimp only
    by_cases h1 : s.fbLen < r.poff.toNat + r.plen.toNat
    · rw [unmaskFn_error _ (by simpa using h1)]; exact .inl ⟨h1, rfl⟩
    · rw [unmaskFn_ok _ (by simpa using h1)]
      by_cases h2 : s.params.accCap < s.accLen + r.plen.toNat
      · exact .inr (.inl ⟨by omega, h2, by simp only [gt_iff_lt, if_pos h2]⟩)
      · exact .inr (.inr ⟨by omega, by omega, by simp only [gt_iff_lt, if_neg h2]; rfl⟩)

/-- A successful INGEST, as 4-bit arithmetic on STATUS (R181). -/
def State.ingested (r : HdrInfo) (s : State) : State :=
  let p := s.payload r.poff.toNat r.plen.toNat r.mkey
  { s with
    hdrB0 := r.b0, hdrB1 := r.b1, hdrFin := r.fin, hdrLtier := r.tier, hdrPlen := r.plen, hdrMoff := r.moff,
    mkey := r.mkey, hdrPoff := r.poff, out := s.out.writeBytes 0 p, outLen := r.plen.toNat,
    acc := s.acc.writeBytes s.accLen p, accLen := s.accLen + r.plen.toNat,
    status := if r.fin = 1 then s.status ||| 0b0111 else (s.status ||| 0b0011) &&& 0b1011, err := 0 }

/-- The last updates of INGEST give that state. -/
theorem State.ingested_val (s : State) (r : HdrInfo) :
    ((((s.latchHdr r).writeOut (s.payload r.poff.toNat r.plen.toNat r.mkey)).appendAcc
      (s.payload r.poff.toNat r.plen.toNat r.mkey)).setFlag .complete (r.fin == 1)).succeed = s.ingested r := by
  have h : ∀ x : BitVec 4, ((x ||| 0b0011) ||| 0b0100) = x ||| 0b0111 := by decide
  have hb : ∀ b : BitVec 1, b = 0 ∨ b = 1 := by decide
  rw [State.latchHdr_val]
  rcases hb r.fin with hf | hf <;>
    simp only [State.ingested, hf, State.writeOut, State.appendAcc, State.succeed_eq, State.setErr, State.length_payload]
  · rw [show (((0 : BitVec 1) == 1)) = false from rfl, (State.setFlag_val _).2.2.2.2.2.1, if_neg (by decide)]
  · rw [show (((1 : BitVec 1) == 1)) = true from rfl, (State.setFlag_val _).2.2.2.2.1]
    simp only [h, if_true]

/-- ACC and OUT after a successful INGEST (R183). -/
theorem State.accBytes_ingested (s : State) (r : HdrInfo) :
    (s.ingested r).accBytes = s.accBytes ++ (s.payload r.poff.toNat r.plen.toNat r.mkey).map some := by
  have h := Memory.map_read_writeBytes s.acc s.accLen (s.payload r.poff.toNat r.plen.toNat r.mkey)
  rw [State.length_payload] at h; exact h

theorem State.outBytes_ingested (s : State) (r : HdrInfo) :
    (s.ingested r).outBytes = (s.payload r.poff.toNat r.plen.toNat r.mkey).map some := by
  have h := Memory.map_read_writeBytes s.out 0 (s.payload r.poff.toNat r.plen.toNat r.mkey)
  rw [State.length_payload, Nat.zero_add] at h; exact h

/-- Every way a command ends: the command, the state before, the state after. The token is a variable with an equation,
so that no proof computes it. -/
inductive CommandEffect : Instr → State → State → Prop where
  | noToken (s : State) (h : s.keyPresent = 0 ∨ utf8Valid s.keyBytes = false) :
      CommandEffect .deriveAccept s { s with status := s.status &&& 0b0111, err := 3 }
  | token (s : State) (t : List Byte) (hp : s.keyPresent ≠ 0) (hu : utf8Valid s.keyBytes = true)
      (ht : t = deriveAcceptToken s.keyBytes) :
      CommandEffect .deriveAccept s { s with tok := s.tok.writeBytes 0 t, status := s.status ||| 0b1000, err := 0 }
  | noLen (s : State) (h : decodeLen s.frame = .error .malformedFrame) :
      CommandEffect .decodeLen s { s with status := s.status &&& 0b1100, err := 1 }
  | len (s : State) (r : LenInfo) (h : decodeLen s.frame = .ok r) :
      CommandEffect .decodeLen s { s with
        hdrB0 := r.b0, hdrB1 := r.b1, hdrFin := r.fin, hdrLtier := r.tier, hdrPlen := r.plen, hdrMoff := r.moff,
        status := (s.status ||| 0b0001) &&& 0b1101, err := 0 }
  | noHdr (s : State) (h : parseHdr s.frame = .error .malformedFrame) :
      CommandEffect .parseHeader s { s with status := s.status &&& 0b1100, err := 1 }
  | hdr (s : State) (r : HdrInfo) (h : parseHdr s.frame = .ok r) :
      CommandEffect .parseHeader s { s with
        hdrB0 := r.b0, hdrB1 := r.b1, hdrFin := r.fin, hdrLtier := r.tier, hdrPlen := r.plen, hdrMoff := r.moff,
        mkey := r.mkey, hdrPoff := r.poff, status := s.status ||| 0b0011, err := 0 }
  | noLatch (s : State) (h : s.flag .hdrValid = false) : CommandEffect .unmask s { s with err := 5 }
  | truncated (s : State) (hv : s.flag .hdrValid = true) (h : s.fbLen < s.hdrPoff.toNat + s.hdrPlen.toNat) :
      CommandEffect .unmask s { s with err := 2 }
  | unmasked (s : State) (hv : s.flag .hdrValid = true) (h : s.hdrPoff.toNat + s.hdrPlen.toNat ≤ s.fbLen) :
      CommandEffect .unmask s { s with
        out := s.out.writeBytes 0 (s.payload s.hdrPoff.toNat s.hdrPlen.toNat s.mkey), outLen := s.hdrPlen.toNat, err := 0 }
  | ingestShort (s : State) (h : parseHdr s.frame = .error .malformedFrame) :
      CommandEffect .ingest s { s with status := s.status &&& 0b1100, err := 1 }
  | ingestTruncated (s : State) (r : HdrInfo) (hr : parseHdr s.frame = .ok r) (h : s.fbLen < r.poff.toNat + r.plen.toNat) :
      CommandEffect .ingest s { s with status := s.status &&& 0b1100, err := 2 }
  | ingestOverflow (s : State) (r : HdrInfo) (hr : parseHdr s.frame = .ok r) (h : r.poff.toNat + r.plen.toNat ≤ s.fbLen)
      (ha : s.params.accCap < s.accLen + r.plen.toNat) :
      CommandEffect .ingest s { s with status := s.status &&& 0b1100, err := 6 }
  | ingested (s : State) (r : HdrInfo) (hr : parseHdr s.frame = .ok r) (h : r.poff.toNat + r.plen.toNat ≤ s.fbLen)
      (ha : s.accLen + r.plen.toNat ≤ s.params.accCap) : CommandEffect .ingest s (s.ingested r)
  | cleared (s : State) : CommandEffect .clearAcc s { s with accLen := 0, status := s.status &&& 0b1011, err := 0 }

/-- What any command can do. -/
theorem exec_cases {i : Instr} {s t : State} (h : exec i s = .next t) : CommandEffect i s t := by
  cases i
  · rw [show exec .deriveAccept s = execDeriveAccept s from rfl] at h
    rcases execDeriveAccept_cases s with ⟨hf, e⟩ | ⟨hp, hu, e⟩ <;> rw [e] at h
    · injection h with h; subst h; exact .noToken s hf
    · obtain ⟨tk, ht⟩ : ∃ tk, tk = deriveAcceptToken s.keyBytes := ⟨_, rfl⟩
      rw [← ht] at h
      injection h with h; subst h; exact .token s tk hp hu ht
  · rw [show exec .decodeLen s = execDecodeLen s from rfl] at h
    rcases execDecodeLen_cases s with ⟨hf, e⟩ | ⟨r, hr, e⟩ <;> rw [e] at h <;> injection h with h <;> subst h
    · rw [State.failFrame_val]; exact .noLen s hf
    · exact .len s r hr
  · rw [show exec .parseHeader s = execParseHeader s from rfl] at h
    rcases execParseHeader_cases s with ⟨hf, e⟩ | ⟨r, hr, e⟩ <;> rw [e] at h <;> injection h with h <;> subst h
    · rw [State.failFrame_val]; exact .noHdr s hf
    · rw [State.latchHdr_val]; exact .hdr s r hr
  · rw [show exec .unmask s = execUnmask s from rfl] at h
    rcases execUnmask_cases s with ⟨hv, e⟩ | ⟨hv, hn, e⟩ | ⟨hv, hn, e⟩ <;> rw [e] at h <;> injection h with h <;> subst h
    · exact .noLatch s hv
    · exact .truncated s hv hn
    · simpa [State.writeOut, State.setErr] using CommandEffect.unmasked s hv hn
  · rw [show exec .ingest s = execIngest s from rfl] at h
    rcases execIngest_cases s with ⟨hf, e⟩ | ⟨r, hr, ⟨hn, e⟩ | ⟨hn, ha, e⟩ | ⟨hn, ha, e⟩⟩ <;> rw [e] at h <;>
      injection h with h <;> subst h
    · rw [State.failFrame_val]; exact .ingestShort s hf
    · rw [State.failFrame_val]; exact .ingestTruncated s r hr hn
    · rw [State.failFrame_val]; exact .ingestOverflow s r hr hn ha
    · rw [State.ingested_val]; exact .ingested s r hr hn ha
  · injection h with h; subst h; exact .cleared s

end Sys2Proof.Machine
end

