-- ==== Sys2Proof/Laws/Handshake.lean ====
section
/-! SUPPORT. Small laws of SHA-1 and base64 (`40_handshake.md` R102 to R110): equations that cut the functions into parts, so
that no proof computes a digest, and the lengths. -/

namespace Sys2Proof.Machine

/-- The blocks of a whole number of blocks make up the message again (R102). -/
theorem flatten_sha1BlocksOf (n : Nat) (m : List Byte) (h : m.length = 64 * n) :
    (sha1BlocksOf n m).flatten = m ∧ ∀ b ∈ sha1BlocksOf n m, b.length = 64 := by
  induction n generalizing m with
  | zero => simp_all [sha1BlocksOf]
  | succ n ih =>
    obtain ⟨h1, h2⟩ := ih (m.drop 64) (by simp; omega)
    refine ⟨by simp [sha1BlocksOf, h1], fun b hb => ?_⟩
    rcases List.mem_cons.mp hb with rfl | hb
    · simp; omega
    · exact h2 b hb

theorem sha1_eq (m : List Byte) :
    sha1 m = sha1Digest (sha1Hash (sha1BlocksOf ((sha1Pad m).length / 64) (sha1Pad m))) := rfl

theorem sha1Digest_eq (h : Sha1State) :
    sha1Digest h = beBytes 4 h.a.toNat ++ beBytes 4 h.b.toNat ++ beBytes 4 h.c.toNat ++ beBytes 4 h.d.toNat ++
      beBytes 4 h.e.toNat := by rw [sha1Digest]

/-- The rotation of R104 is the rotation of bit vectors. -/
theorem rotl_eq (n : Nat) (x : Word32) (h : n < 32) : rotl n x = x.rotateLeft n := by
  rw [rotl, BitVec.rotateLeft_def, Nat.mod_eq_of_lt h]

@[simp] theorem length_sha1Digest (h : Sha1State) : (sha1Digest h).length = 20 := by simp [sha1Digest_eq]

@[simp] theorem length_sha1 (m : List Byte) : (sha1 m).length = 20 := by rw [sha1_eq, length_sha1Digest]

@[simp] theorem length_base64Group (a b c : Byte) : (base64Group a b c).length = 4 := by simp [base64Group]

/-- One full group (R109). -/
theorem base64_cons3 (a b c : Byte) (r : List Byte) : base64 (a :: b :: c :: r) = base64Group a b c ++ base64 r := by
  rw [base64]

end Sys2Proof.Machine
end

