-- ==== Sys2Proof/Laws/PerInstr.lean ====
section
/-! SUPPORT. Statements made per command. `EncodesBack`: the command's word decodes to the command (`30_encoding.md`
R84) and the command is well formed (R86). -/

namespace Sys2Proof.Laws.EncodesBack

def Statement (i : Instr) : Prop := decode (encode i) = .ok i ∧ i.wf = true

theorem deriveAccept : Statement .deriveAccept := ⟨rfl, rfl⟩
theorem decodeLen : Statement .decodeLen := ⟨rfl, rfl⟩
theorem parseHeader : Statement .parseHeader := ⟨rfl, rfl⟩
theorem unmask : Statement .unmask := ⟨rfl, rfl⟩
theorem ingest : Statement .ingest := ⟨rfl, rfl⟩
theorem clearAcc : Statement .clearAcc := ⟨rfl, rfl⟩

end Sys2Proof.Laws.EncodesBack
end

