-- ==== Sys2Proof/Laws/Step.lean ====
section
/-! SUPPORT. What one step can do, said once (`20_memory.md` R60, R63): `step_cases`. -/

namespace Sys2Proof.Machine

/-- The effects of a host event on a state whose queue it has left. -/
inductive HostEffect (s : State) : HostEvent → State → Prop where
  /-- A read records a value, which may have been drawn (R36, R60). -/
  | read (sp : Space) (i v : Nat) (u : State) (hu : u = s ∨ u = s.draw.2) :
      HostEffect s (.access (.read sp i)) (u.observe sp i v)
  /-- A write that is ignored; never one to CMD (R36, R52). -/
  | ignored (sp : Space) (i v : Nat) (h : sp ≠ .reg ∨ i ≠ 0) : HostEffect s (.access (.write sp i v)) s.countWrite
  | fbLen (v : Nat) : HostEffect s (.access (.write .reg 3 v)) (s.countWrite.setFbLen v)
  | keyLen (v : Nat) : HostEffect s (.access (.write .reg 14 v)) (s.countWrite.setKeyLen v)
  | keyPresent (v : Nat) :
      HostEffect s (.access (.write .reg 15 v)) ((s.countWrite.fit 1 v).2.setKeyPresent (s.countWrite.fit 1 v).1)
  | storeFb (i v : Nat) (h : i < s.params.fbCap) :
      HostEffect s (.access (.write .fb i v)) ((s.countWrite.fit 8 v).2.storeFb i (s.countWrite.fit 8 v).1)
  | storeKey (i v : Nat) (h : i < s.params.keyCap) :
      HostEffect s (.access (.write .key i v)) ((s.countWrite.fit 8 v).2.storeKey i (s.countWrite.fit 8 v).1)
  /-- An illegal command word (R85). -/
  | illegal (v : Nat) (r : CmdReject) (h : decode (s.countWrite.fit 8 v).1 = .error r) :
      HostEffect s (.access (.write .reg 0 v))
        (((s.countWrite.fit 8 v).2.setCmd (s.countWrite.fit 8 v).1).raise .illegalCmd)
  /-- A command (R21). -/
  | command (v : Nat) (i : Instr) (t : State) (h : decode (s.countWrite.fit 8 v).1 = .ok i)
      (ht : exec i ((s.countWrite.fit 8 v).2.setCmd (s.countWrite.fit 8 v).1) = .next t) :
      HostEffect s (.access (.write .reg 0 v)) t
  /-- The reset event (R230). -/
  | reset : HostEffect s .reset s.resetBlock

/-- A value that fits leaves the state; one that does not has drawn a free value. -/
theorem State.fit_snd (s : State) (n v : Nat) : (s.fit n v).2 = s ∨ (s.fit n v).2 = s.draw.2 := by
  unfold State.fit; split
  · exact .inl rfl
  · exact .inr rfl

/-- A byte fits a byte. -/
@[simp] theorem State.fit_byte (s : State) (b : Byte) : s.fit 8 b.toNat = (b, s) := by
  simp [State.fit, b.isLt]

/-- The only index of the REG space that names CMD is 0 (R20). -/
theorem Reg.ofIndex_index {i : Nat} {r : Reg} (h : Reg.ofIndex i = some r) : i = r.index := by
  unfold Reg.ofIndex at h
  split at h <;> first | (injection h with h; subst h; rfl) | simp at h

/-- Every command answers a next state. -/
theorem exec_next (i : Instr) (s : State) : ∃ t, exec i s = .next t := by
  cases i <;> exact ⟨_, rfl⟩

/-- Everything a host event can do. -/
theorem hostEvent_cases {e : HostEvent} {s t : State} (h : hostEvent e s = .next t) : HostEffect s e t := by
  cases e with
  | reset => injection h with h; subst h; exact .reset
  | secondAgent => simp [hostEvent] at h
  | access a =>
    cases a with
    | read sp i =>
      injection h with h; subst h
      cases sp <;> simp only [State.hostRead]
      · exact .read _ _ _ _ (.inl rfl)
      all_goals (split; exacts [.read _ _ _ _ (.inl rfl), .read _ _ _ _ (.inr rfl)])
    | write sp i v =>
      cases sp with
      | reg =>
        simp only [hostEvent, hostAccess, hostWriteReg] at h
        cases hr : Reg.ofIndex i with
        | none =>
          rw [hr] at h; injection h with h; subst h
          exact .ignored _ _ _ (.inr (by rintro rfl; simp [Reg.ofIndex] at hr))
        | some r =>
          have hi := Reg.ofIndex_index hr
          subst hi
          rw [hr] at h
          cases r
          case cmd =>
            simp only [issue] at h
            split at h
            · next hd => exact .command v _ t hd h
            · next hd => injection h with h; subst h; exact .illegal v _ hd
          case fbLen => injection h with h; subst h; exact .fbLen v
          case keyLen => injection h with h; subst h; exact .keyLen v
          case keyPresent => injection h with h; subst h; exact .keyPresent v
          all_goals (injection h with h; subst h; exact .ignored _ _ _ (.inr (by decide)))
      | fb =>
        injection h with h; subst h
        simp only [State.hostStore]
        split
        · next hi => exact .storeFb i v hi
        · exact .ignored _ _ _ (.inl (by decide))
      | key =>
        injection h with h; subst h
        simp only [State.hostStore]
        split
        · next hi => exact .storeKey i v hi
        · exact .ignored _ _ _ (.inl (by decide))
      | out => injection h with h; subst h; exact .ignored _ _ _ (.inl (by decide))
      | acc => injection h with h; subst h; exact .ignored _ _ _ (.inl (by decide))
      | tok => injection h with h; subst h; exact .ignored _ _ _ (.inl (by decide))

/-- Everything a step can do: nothing when no event is pending, else the effect of the oldest event. -/
theorem step_cases {s t : State} (h : step s = .next t) :
    (s.pending = [] ∧ t = s) ∨ ∃ e rest, s.pending = e :: rest ∧ HostEffect (s.advance rest) e t := by
  simp only [step, stepPending] at h
  split at h
  · next hp => injection h with h; exact .inl ⟨hp, h.symm⟩
  · next e rest hp => exact .inr ⟨e, rest, hp, hostEvent_cases h⟩

/-- A step with an event at the head of the queue is that event (R63). -/
theorem step_of_pending {s : State} {e : HostEvent} {rest : List HostEvent} (h : s.pending = e :: rest) :
    step s = hostEvent e (s.advance rest) := by
  simp [step, stepPending, h]

/-- A run of one more step. -/
theorem run_succ (n : Nat) (s : State) :
    Sys2Proof.core.run (n + 1) s = match step s with
      | .next t => Sys2Proof.core.run n t
      | .fault r => .fault r
      | .refused r => .refused r := by
  simp only [Host.Core.run, Sys2Proof.core]
  cases step s <;> rfl

theorem run_succ_of_next {n : Nat} {s t : State} (h : step s = .next t) :
    Sys2Proof.core.run (n + 1) s = Sys2Proof.core.run n t := by rw [run_succ, h]

end Sys2Proof.Machine
end

