-- ==== Sys2Proof/Tests/Slice0.lean ====
section
/-! SUPPORT. The model's own tests. The expected values stand in the spec: its encoding tables (`30_encoding.md`) and its
vectors V1 to V54 (`95_test_vectors.md`), named beside each test. After them, for every obligation with hypotheses, a
witness that meets the hypotheses of each of its clauses. -/

namespace Sys2Proof.Tests

open Sys2Proof.Machine

/-! ### Small states -/

/-- The capacities of `95_test_vectors.md`. -/
def caps : Params := ⟨16, 8, 24⟩

/-- Just after reset, with events pending. -/
def queue (es : List HostEvent) : State := { State.resetWith caps with pending := es }

/-- Just after reset, with a frame loaded. -/
def framed (bs : List Byte) : State :=
  { State.resetWith caps with fb := Memory.writeBytes [] 0 bs, fbLen := bs.length }

/-- Just after reset, with a key loaded. -/
def keyed (bs : List Byte) : State :=
  { State.resetWith caps with key := Memory.writeBytes [] 0 bs, keyLen := bs.length, keyPresent := 1 }

/-- `s` with `bs` accumulated. -/
def holding (bs : List Byte) (s : State) : State :=
  { s with acc := Memory.writeBytes [] 0 bs, accLen := bs.length }

/-- The outcome is a next state with a property. -/
def after (o : Result) (f : State → Bool) : Bool :=
  match o with
  | .next t => f t
  | .fault _ => false
  | .refused _ => false

theorem next_of_after {o : Result} {f : State → Bool} (h : after o f = true) : ∃ t, o = .next t ∧ f t = true := by
  cases o with
  | next t => exact ⟨t, rfl, h⟩
  | fault r => cases r
  | refused r => simp [after] at h

/-- The frame of V12: "Hello", FIN = 1. -/
def hello : List Byte := [0x81, 0x85, 0x37, 0xFA, 0x21, 0x3D, 0x7F, 0x9F, 0x4D, 0x51, 0x58]

/-- After V12: PARSE_HEADER on that frame. -/
def helloParsed : State :=
  { framed hello with
    hdrB0 := 0x81, hdrB1 := 0x85, hdrFin := 1, hdrPlen := 5, hdrMoff := 2, hdrPoff := 6,
    mkey := ⟨0x37, 0xFA, 0x21, 0x3D⟩, status := 0b0011 }

/-- Its payload cut short: V23. -/
def helloShort : State := { helloParsed with fbLen := 10 }

/-- The frame of V30: "AB", FIN = 0. -/
def frameAB : List Byte := [0x01, 0x82, 0x11, 0x22, 0x33, 0x44, 0x50, 0x60]

/-- The header of V30, latched. -/
def parsedAB : State :=
  { framed frameAB with
    hdrB0 := 0x01, hdrB1 := 0x82, hdrPlen := 2, hdrMoff := 2, hdrPoff := 6, mkey := ⟨0x11, 0x22, 0x33, 0x44⟩,
    status := 0b0011 }

/-- After V30: INGEST of that frame. -/
def ingestedAB : State :=
  { holding [0x41, 0x42] parsedAB with out := Memory.writeBytes [] 0 [0x41, 0x42], outLen := 2 }

/-- With ACC empty again and OUT_LEN 1: OUT and ACC hold written bytes past their lengths. -/
def cleared : State := { ingestedAB with accLen := 0, outLen := 1 }

/-- That frame before a second INGEST, with an ACC of `c` bytes that holds two. -/
def appending (c : Nat) : State := { holding [0x41, 0x42] (framed frameAB) with params := ⟨16, c, 24⟩ }

/-! ### Well-formed syntax: each check refuses an ill-formed term -/

theorem test_wf_reserved_bits : cmdWordWf 0x15 = false := by decide
theorem test_wf_op_zero : cmdWordWf 0x00 = false := by decide
theorem test_wf_op_seven : cmdWordWf 0x07 = false := by decide
theorem test_wf_op_six : cmdWordWf 0x06 = true := by decide
theorem test_wf_fb_cap_too_small : ¬ Params.ok ⟨13, 0, 24⟩ := by decide
theorem test_wf_key_cap_too_small : ¬ Params.ok ⟨14, 0, 23⟩ := by decide
theorem test_wf_value_too_wide : Reg.cmd.valueFits caps 256 = false := by decide
theorem test_wf_length_takes_any_value : Reg.fbLen.valueFits caps 1000 = true := by decide
theorem test_wf_read_past_tok : (HostAccess.read .tok 28).wf caps = false := by decide
theorem test_wf_write_err : (HostAccess.write .reg 1 0).wf caps = false := by decide
theorem test_wf_write_reserved_index : (HostAccess.write .reg 16 0).wf caps = false := by decide
theorem test_wf_write_out : (HostAccess.write .out 0 0).wf caps = false := by decide
theorem test_wf_write_past_fb : (HostAccess.write .fb 16 0).wf caps = false := by decide
theorem test_wf_write_no_byte : (HostAccess.write .fb 0 256).wf caps = false := by decide
theorem test_wf_wr_status : (HostForm.wr .status 0).wf caps = false := by decide
theorem test_wf_wrb_acc : (HostForm.wrb .acc 0 [0]).wf caps = false := by decide
theorem test_wf_wrb_past_end : (HostForm.wrb .fb 15 [0, 0]).wf caps = false := by decide
theorem test_wf_rdb_past_end : (HostForm.rdb .tok 0 29).wf caps = false := by decide
theorem test_wf_frame_too_long : (HostForm.frame (List.replicate 17 0)).wf caps = false := by decide
theorem test_wf_key_not_ascii : (HostForm.key [0x80]).wf caps = false := by decide
theorem test_wf_every_command (i : Instr) : i.wf = true := by cases i <;> rfl

/-! ### Decoding: every word of R84's table, bit by bit (bits 7:4 are 0, bits 3:0 are OP) -/

theorem test_decode_derive_accept : decode 0b00000001 = .ok .deriveAccept := rfl
theorem test_decode_decode_len : decode 0b00000010 = .ok .decodeLen := rfl
theorem test_decode_parse_header : decode 0b00000011 = .ok .parseHeader := rfl
theorem test_decode_unmask : decode 0b00000100 = .ok .unmask := rfl
theorem test_decode_ingest : decode 0b00000101 = .ok .ingest := rfl
theorem test_decode_clear_acc : decode 0b00000110 = .ok .clearAcc := rfl
theorem test_decode_zero : decode 0b00000000 = .error .reservedZero := rfl
theorem test_decode_seven : decode 0b00000111 = .error .reservedOp := rfl
theorem test_decode_reserved_bits : decode 0b00010101 = .error .reservedBits := rfl
theorem test_decode_table_word : decodeTableWord 8 0x05 = some .ingest := rfl
theorem test_decode_no_longer_word : decodeTableWord 16 0x0105 = none := rfl

/-! ### Commands -/

/-- V1. -/
theorem test_derive_accept_v1 :
    after (exec .deriveAccept (keyed
      [0x64, 0x47, 0x68, 0x6C, 0x49, 0x48, 0x4E, 0x68, 0x62, 0x58, 0x42, 0x73, 0x5A, 0x53, 0x42, 0x75, 0x62, 0x32, 0x35,
       0x6A, 0x5A, 0x51, 0x3D, 0x3D]))
      (fun t => t.err == 0 && t.status == 0b1000 &&
        t.tokBytes == ("s3pPLMBiTxaQ9kYGzzhZRbK+xOo=".toList.map fun c => some (BitVec.ofNat 8 c.toNat))) = true := by
  decide +kernel

/-- V47: an overlong form. -/
theorem test_derive_accept_v47 :
    after (exec .deriveAccept (keyed [0xC0, 0x80])) (fun t => t.err == 3 && t.status == 0 && t.tok == []) = true := by
  decide +kernel

/-- V6. -/
theorem test_decode_len_v6 :
    after (exec .decodeLen (framed [0x00, 0x7E, 0x7F, 0xFF]))
      (fun t => t.err == 0 && t.hdrPlen == 32767 && t.hdrLtier == 1 && t.hdrMoff == 4 && t.status == 0b0001) = true := by
  decide +kernel

/-- V15a: T64 needs 10 bytes. -/
theorem test_decode_len_v15a :
    after (exec .decodeLen (framed [0x00, 0xFF, 0, 0, 0, 0, 0, 0, 0])) (fun t => t.err == 1 && t.hdrB1 == 0) = true := by
  decide +kernel

/-- V12. -/
theorem test_parse_header_v12 :
    after (exec .parseHeader (framed hello))
      (fun t => t.err == 0 && t.hdrB0 == 0x81 && t.hdrB1 == 0x85 && t.hdrFin == 1 && t.hdrLtier == 0 && t.hdrPlen == 5 &&
        t.hdrMoff == 2 && t.hdrPoff == 6 && t.mkey.packed == 0x37FA213D && t.status == 0b0011) = true := by
  decide +kernel

/-- V14b: T16 needs 8 bytes. -/
theorem test_parse_header_v14b :
    after (exec .parseHeader (framed [0x80, 0xFE, 0x01, 0x00, 0xA1, 0xB2, 0xC3]))
      (fun t => t.err == 1 && t.status == 0) = true := by
  decide +kernel

/-- V20. -/
theorem test_unmask_v20 :
    after (exec .unmask helloParsed)
      (fun t => t.err == 0 && t.outLen == 5 && t.outBytes == [some 0x48, some 0x65, some 0x6C, some 0x6C, some 0x6F] &&
        t.status == 0b0011) = true := by
  decide +kernel

/-- V25: no wrap in 14 + 2^64 - 1. -/
theorem test_unmask_v25 :
    after (exec .unmask { framed [0x80, 0xFF, 0xFF, 0xFF, 0xFF, 0xFF, 0xFF, 0xFF, 0xFF, 0xFF, 1, 2, 3, 4] with
      hdrPlen := 0xFFFFFFFFFFFFFFFF, hdrPoff := 14, status := 0b0011 }) (fun t => t.err == 2 && t.outLen == 0) = true := by
  decide +kernel

/-- V31, on the ACC of V30: appending, and the order of the payload's bytes. -/
theorem test_ingest_v31 :
    after (exec .ingest (holding [0x41, 0x42] (framed [0x80, 0x82, 0x01, 0x02, 0x03, 0x04, 0x42, 0x46])))
      (fun t => t.err == 0 && t.accLen == 4 && t.accBytes == [some 0x41, some 0x42, some 0x43, some 0x44] &&
        t.status == 0b0111 && t.mkey.packed == 0x01020304) = true := by
  decide +kernel

/-- V34: 2 + 3 > 4. -/
theorem test_ingest_v34 :
    after (exec .ingest { holding [0x41, 0x42] (framed [0x80, 0x83, 0, 0, 0, 0, 0x58, 0x59, 0x5A]) with
      params := ⟨16, 4, 24⟩, status := 0b0011 })
      (fun t => t.err == 6 && t.accLen == 2 && t.status == 0 && t.hdrPlen == 0 && t.outLen == 0) = true := by
  decide +kernel

/-- V36: after V31. -/
theorem test_clear_acc_v36 :
    after (exec .clearAcc { holding [0x41, 0x42, 0x43, 0x44] parsedAB with status := 0b0111 })
      (fun t => t.err == 0 && t.accLen == 0 && t.status == 0b0011 && t.hdrPlen == 2) = true := by
  decide +kernel

/-! ### Host accesses and reset -/

/-- V52: the low nibble is INGEST's, bits 7:4 are not 0. -/
theorem test_illegal_word_v52 :
    after (step { ingestedAB with pending := [.access (.write .reg 0 0x15)] })
      (fun t => t.err == 4 && t.cmd == 0x15 && t.accLen == 2 && t.status == 0b0011) = true := by
  decide +kernel

/-- V53: a write of FB_CAP + 5. -/
theorem test_fb_len_v53 :
    after (step (queue [.access (.write .reg 3 21)])) (fun t => t.fbLen == 16) = true := by decide +kernel

/-- V54: a write of ERR. -/
theorem test_write_err_v54 :
    after (step { queue [.access (.write .reg 1 0)] with err := 1 }) (fun t => t.err == 1) = true := by decide +kernel

/-- R20 and R31: index 11 reads the packed key. -/
theorem test_read_hdr_mkey :
    after (step { helloParsed with pending := [.access (.read .reg 11)] })
      (fun t => t.observed == [⟨.reg, 11, 0x37FA213D⟩]) = true := by decide +kernel

/-- R230: reset clears a latched header and an accumulated message. -/
theorem test_reset_event :
    after (step { ingestedAB with pending := [.reset] })
      (fun t => t.accLen == 0 && t.status == 0 && t.hdrB1 == 0 && t.mkey.packed == 0 && t.fb == []) = true := by
  decide +kernel

/-- R60: two reads of a byte of OUT past OUT_LEN that has been written, with other reads between them, agree. -/
theorem test_stale_byte_reads_the_same :
    let s := { cleared with
      pending := [.access (.read .out 1), .access (.read .out 9), .access (.read .reg 0), .access (.read .out 1)] }
    ∃ t a, Sys2Proof.core.run 4 s = .next t ∧ t.observed[0]? = some a ∧ t.observed[3]? = some a := ⟨_, _, rfl, rfl, rfl⟩

/-- `withFetchWord` makes the word the next command. -/
theorem test_fetch_word :
    after (step (State.reset.withFetchWord 8 0x04)) (fun t => t.cmd == 0x04 && t.err == 5) = true := by decide +kernel

/-- R73: the codec, with the worked values of R70 (bit 7 first). -/
theorem test_codec : byteToBits 0x7E = ['0', '1', '1', '1', '1', '1', '1', '0'] ∧ bitsToInteger ['1', '0', '1'] = some 5 := by
  decide

/-! ### Witnesses: for each obligation with hypotheses, states and operands that meet them -/

theorem witness_DecodeInvertsEncode : Instr.ingest.wf = true ∧ decode 0x06 = .ok .clearAcc := ⟨rfl, rfl⟩

theorem witness_StepRunsTheDecodedCommand :
    (queue [.access (.write .reg 0 6), .reset]).pending = .access (.write .reg 0 (6 : Byte).toNat) :: [.reset] ∧
      decode 6 = .ok .clearAcc := ⟨rfl, rfl⟩

theorem witness_IllegalWordStoresCmdAndErrOnly :
    ∀ w ∈ [(0x00 : Byte), 0x07, 0x0F, 0x10, 0xFF],
      (queue [.access (.write .reg 0 w.toNat)]).pending = [.access (.write .reg 0 w.toNat)] ∧
        (w = 0x00 ∨ (0x07 ≤ w.toNat ∧ w.toNat ≤ 0x0F) ∨ w.extractLsb' 4 4 ≠ 0) := by decide

theorem witness_ReadOnlyAndReservedRegisters :
    (∀ i ∈ [1, 2, 4, 13, 16], (queue [.access (.write .reg i 0)]).pending = [.access (.write .reg i 0)] ∧
      (i = 1 ∨ i = 2 ∨ (4 ≤ i ∧ i ≤ 13) ∨ 16 ≤ i)) ∧
    (queue [.access (.read .reg 16)]).pending = [.access (.read .reg 16)] := by decide

theorem witness_RegisterReadsReturnTheirRegister :
    ∀ i ∈ List.range 16, i < 16 ∧ (queue [.access (.read .reg i)]).pending = [.access (.read .reg i)] := by decide

theorem witness_LengthWritesAreClamped :
    (∀ v ∈ [0, 16, 17], (queue [.access (.write .reg 3 v)]).pending = [.access (.write .reg 3 v)]) ∧
    (∀ v ∈ [0, 24, 25], (queue [.access (.write .reg 14 v)]).pending = [.access (.write .reg 14 v)]) ∧
    (queue [.access (.read .reg 3)]).pending = [.access (.read .reg 3)] ∧
    (queue [.access (.read .reg 14)]).pending = [.access (.read .reg 14)] ∧
    ∃ t, exec .ingest (framed frameAB) = .next t := ⟨by decide, by decide, rfl, rfl, exec_next _ _⟩

theorem witness_KeyPresentTakesTheWrittenBit :
    (∀ b : BitVec 1, (queue [.access (.write .reg 15 b.toNat)]).pending = [.access (.write .reg 15 b.toNat)]) ∧
    (queue [.access (.read .reg 15)]).pending = [.access (.read .reg 15)] ∧ (queue []).keyPresent = 0 :=
  ⟨fun _ => rfl, rfl, rfl⟩

theorem witness_HostByteWritesStoreOneByte :
    (∀ i ∈ [0, 15], (queue [.access (.write .fb i 7)]).pending = [.access (.write .fb i (7 : Byte).toNat)] ∧
      i < (queue []).params.fbCap) ∧
    (∀ i ∈ [0, 23], (queue [.access (.write .key i 7)]).pending = [.access (.write .key i (7 : Byte).toNat)] ∧
      i < (queue []).params.keyCap) ∧
    (queue []).params.fbCap ≤ 16 ∧ (queue []).params.keyCap ≤ 24 := by decide

theorem witness_WritesToReadOnlyBuffersAreIgnored :
    ∀ sp ∈ [Space.out, .acc, .tok], (sp = .out ∨ sp = .acc ∨ sp = .tok) ∧
      (queue [.access (.write sp 0 1)]).pending = [.access (.write sp 0 1)] := by decide

theorem witness_HostByteReadsReturnStoredOrFreeBytes :
    let s := { cleared with pending := [.access (.read .acc 1)] }
    (Space.acc ≠ .reg ∧ s.pending = .access (.read .acc 1) :: []) ∧
    ((0 < ingestedAB.params.fbCap ∧ ingestedAB.fb.read 0 = some 0x01) ∧ ingestedAB.fbLen ≤ 8 ∧
      ({ ingestedAB with fbLen := 0 } : State).fb.read 7 = some 0x60 ∧
      (0 < (keyed [0x61]).params.keyCap ∧ (keyed [0x61]).key.read 0 = some 0x61) ∧
      (1 < ingestedAB.params.fbCap ∧ 1 < ingestedAB.outLen ∧ ingestedAB.out.read 1 = some 0x42) ∧
      (1 < ingestedAB.params.accCap ∧ 1 < ingestedAB.accLen ∧ ingestedAB.acc.read 1 = some 0x42) ∧
      (27 < 28 ∧ ({ queue [] with tok := [(27, 0x3D)] } : State).tok.read 27 = some 0x3D)) ∧
    ((1 < cleared.params.fbCap ∧ cleared.outLen ≤ 1 ∧ cleared.out.read 1 ≠ none) ∧
      (0 < cleared.params.accCap ∧ cleared.accLen ≤ 0 ∧ cleared.acc.read 0 ≠ none)) ∧
    (ingestedAB.fb.read 8 = none ∧ ingestedAB.params.fbCap ≤ 16 ∧ ingestedAB.out.read 2 = none ∧
      ingestedAB.acc.read 2 = none ∧ ingestedAB.params.accCap ≤ 8 ∧ (queue []).key.read 0 = none ∧
      (queue []).params.keyCap ≤ 24 ∧ (queue []).tok.read 0 = none) := by decide

theorem witness_HostReadsAreIdempotent :
    let mid : List HostEvent := [.access (.read .fb 9), .access (.read .reg 2)]
    ((queue [.access (.read .reg 2), .access (.read .reg 2)]).pending = .access (.read .reg 2) :: ([] ++ .access (.read .reg 2) :: []) ∧
      ∀ e ∈ ([] : List HostEvent), ∃ sp' i', e = .access (.read sp' i')) ∧
    (∀ e ∈ mid, ∃ sp' i', e = .access (.read sp' i')) ∧
    ({ cleared with pending := .access (.read .out 1) :: (mid ++ [.access (.read .out 1)]) } : State).pending =
      .access (.read .out 1) :: (mid ++ .access (.read .out 1) :: []) ∧
    (1 < Space.out.size cleared.params ∧ (cleared.buffer .out).read 1 ≠ none) ∧ cleared.outLen ≤ 1 ∧
    (1 < Space.acc.size cleared.params ∧ (cleared.buffer .acc).read 1 ≠ none) ∧ cleared.accLen ≤ 0 := by
  refine ⟨⟨rfl, by simp⟩, by simp, rfl, ⟨by decide, by decide⟩, by decide, ⟨by decide, by decide⟩, by decide⟩

theorem witness_OnlyCommandsAndResetWriteResults :
    ∃ t, (queue [.access (.write .fb 0 1)]).pending = .access (.write .fb 0 1) :: [] ∧
      step (queue [.access (.write .fb 0 1)]) = .next t ∧ HostEvent.access (.write .fb 0 1) ≠ .reset ∧
      ∀ v, HostEvent.access (.write .fb 0 1) ≠ .access (.write .reg 0 v) := ⟨_, rfl, rfl, by decide, by simp⟩

theorem witness_DeriveAcceptFollowsItsRule :
    (queue []).keyPresent = 0 ∧ ((keyed [0xFF]).keyPresent = 1 ∧ utf8Valid (keyed [0xFF]).keyBytes = false) ∧
    ((keyed []).keyPresent = 1 ∧ utf8Valid (keyed []).keyBytes = true) := by decide

theorem witness_DeriveAcceptIsAPureFunctionOfTheKey :
    let s := keyed [0x61]
    let u := { keyed [0x61] with accLen := 3, status := 0b0101 }
    s.keyPresent = u.keyPresent ∧ s.keyLen = u.keyLen ∧ ∀ j < s.keyLen, s.keyByte j = u.keyByte j :=
  ⟨rfl, rfl, fun _ _ => rfl⟩

theorem witness_Sha1PaddingIsTheLeast : (0 : Nat) < 55 ∧ 8 * ([] : List Byte).length < 2 ^ 64 := by decide

theorem witness_Sha1ScheduleRecurrence : (0 < 16 ∧ 15 < 16) ∧ 16 ≤ 16 ∧ 16 < 80 ∧ 79 < 80 := by decide

theorem witness_Base64IsInjective : base64 [0x00] = base64 [0x00] := rfl

theorem witness_DecodeLenFollowsItsRule :
    (framed [0x81]).frame.length < 2 ∧
    ((framed [0, 0x7D]).frame = 0x00 :: 0x7D :: [] ∧ (0x7D : Byte).toNat % 128 < 126) ∧
    ((framed [0, 0x7E, 1]).frame = 0x00 :: 0x7E :: [1] ∧ (0x7E : Byte).toNat % 128 = 126 ∧ [(1 : Byte)].length < 2) ∧
    ((framed [0, 0xFE, 1, 2]).frame = 0x00 :: 0xFE :: 1 :: 2 :: [] ∧ (0xFE : Byte).toNat % 128 = 126) ∧
    ((framed [0, 0x7F, 1, 2, 3, 4, 5, 6, 7]).frame = 0x00 :: 0x7F :: [1, 2, 3, 4, 5, 6, 7] ∧ (0x7F : Byte).toNat % 128 = 127) ∧
    ((framed [0, 0xFF, 1, 2, 3, 4, 5, 6, 7, 8]).frame = 0x00 :: 0xFF :: 1 :: 2 :: 3 :: 4 :: 5 :: 6 :: 7 :: 8 :: [] ∧
      (0xFF : Byte).toNat % 128 = 127) := by decide

theorem witness_ParseHeaderFollowsItsRule :
    decodeLen (framed [0x81]).frame = .error .malformedFrame ∧
    (∃ r, decodeLen (framed [0x80, 0x80, 1, 2, 3]).frame = .ok r ∧ (framed [0x80, 0x80, 1, 2, 3]).frame.length < r.moff.toNat + 4) ∧
    ∃ r, decodeLen (framed [0x80, 0x80, 1, 2, 3, 4]).frame = .ok r ∧
      (framed [0x80, 0x80, 1, 2, 3, 4]).frame = [0x80, 0x80] ++ 1 :: 2 :: 3 :: 4 :: [] ∧ [(0x80 : Byte), 0x80].length = r.moff.toNat :=
  ⟨rfl, ⟨_, rfl, by decide⟩, _, rfl, by decide, by decide⟩

theorem witness_MalformedFrameExactlyWhenShort :
    decodeLen [0, 0x7E, 0] = .error .malformedFrame ∧ parseHdr [0, 0x7F, 0, 0, 0, 0, 0, 0, 0, 0, 0, 0, 0] = .error .malformedFrame :=
  ⟨rfl, rfl⟩

theorem witness_ParsedPayloadOffsetIsInTheFrame :
    (∃ t, exec .parseHeader (framed hello) = .next t ∧ t.err = 0) ∧ (∃ t, exec .ingest (framed frameAB) = .next t ∧ t.err = 0) ∧
    ∀ i : Instr, i = .ingest → i = .parseHeader ∨ i = .ingest := by
  refine ⟨?_, ?_, fun _ h => .inr h⟩
  · simpa using next_of_after (o := exec .parseHeader (framed hello)) (f := fun t => t.err == 0) (by decide +kernel)
  · simpa using next_of_after (o := exec .ingest (framed frameAB)) (f := fun t => t.err == 0) (by decide +kernel)

theorem witness_WireHeaderParsesBack :
    tierAdmits 0 0 ∧ tierAdmits 0 125 ∧ tierAdmits 1 0 ∧ tierAdmits 1 65535 ∧ tierAdmits 2 0 ∧ tierAdmits 2 (2 ^ 64 - 1) := by
  simp [tierAdmits]

theorem witness_IgnoredHeaderBitsAffectNothing :
    (0x81 : Byte).toNat / 128 = (0xFF : Byte).toNat / 128 ∧ (0x02 : Byte).toNat % 128 = (0x82 : Byte).toNat % 128 ∧
    (∃ r, parseHdr (0x81 :: 0x02 :: [1, 2, 3, 4]) = .ok r) ∧ (∃ r, decodeLen (0x81 :: 0x02 :: []) = .ok r) ∧
    ∃ e, decodeLen (0x81 :: 0x7E :: []) = .error e := ⟨by decide, by decide, ⟨_, rfl⟩, ⟨_, rfl⟩, _, rfl⟩

theorem witness_RetryEndsAsTheFirstTry :
    (∃ t, exec .decodeLen (framed [0x81]) = .next t ∧ t.err ≠ 0) ∧
    ∃ t, exec .parseHeader (framed [0x81, 0x85]) = .next t ∧ t.err ≠ 0 := by
  constructor
  · simpa using next_of_after (o := exec .decodeLen (framed [0x81])) (f := fun t => !(t.err == 0)) (by decide +kernel)
  · simpa using
      next_of_after (o := exec .parseHeader (framed [0x81, 0x85])) (f := fun t => !(t.err == 0)) (by decide +kernel)

theorem witness_UnmaskFollowsItsRule :
    (queue []).status.getLsbD 1 = false ∧
    (helloParsed.status.getLsbD 1 = true ∧ helloParsed.hdrPoff.toNat + helloParsed.hdrPlen.toNat ≤ helloParsed.fbLen) ∧
    (helloShort.status.getLsbD 1 = true ∧ helloShort.hdrPoff.toNat + helloShort.hdrPlen.toNat > helloShort.fbLen) := by
  decide

theorem witness_IngestFollowsItsRule :
    parseHdr (framed [0x80]).frame = .error .malformedFrame ∧
    (∃ r, parseHdr (framed [0x80, 0x82, 1, 2, 3, 4, 0x42]).frame = .ok r ∧ r.poff.toNat + r.plen.toNat > 7) ∧
    (∃ r, parseHdr (appending 3).frame = .ok r ∧ r.poff.toNat + r.plen.toNat ≤ (appending 3).fbLen ∧
      (appending 3).accLen + r.plen.toNat > (appending 3).params.accCap) ∧
    (∃ r, parseHdr (appending 4).frame = .ok r ∧ r.poff.toNat + r.plen.toNat ≤ (appending 4).fbLen ∧
      (appending 4).accLen + r.plen.toNat ≤ (appending 4).params.accCap) :=
  ⟨rfl, ⟨_, rfl, by decide⟩, ⟨_, rfl, by decide, by decide⟩, _, rfl, by decide, by decide⟩

theorem witness_IngestIsParseUnmaskAppend : ∃ t, exec .ingest (framed frameAB) = .next t ∧ t.err = 0 := by
  simpa using next_of_after (o := exec .ingest (framed frameAB)) (f := fun t => t.err == 0) (by decide +kernel)

theorem witness_BytesPastTheFrameEndAreNotRead :
    (∃ t, exec .ingest (framed frameAB) = .next t ∧ t.err = 0) ∧ (∃ t, exec .ingest (appending 3) = .next t ∧ t.err = 6) ∧
    ∀ s ∈ [framed frameAB, appending 3],
      ({ s with fb := Memory.writeBytes [] 0 (frameAB ++ [0x81]), fbLen := 9 } : State).frame = s.frame ++ [0x81] := by
  refine ⟨witness_IngestIsParseUnmaskAppend, ?_, by decide⟩
  simpa using next_of_after (o := exec .ingest (appending 3)) (f := fun t => t.err == 6) (by decide +kernel)

theorem witness_ReassemblyTransitions :
    (∃ t, exec .ingest (framed frameAB) = .next t ∧ t.err = 0) ∧ (∃ t, exec .ingest (framed [0x80]) = .next t ∧ t.err ≠ 0) ∧
    (∃ t, exec .clearAcc ingestedAB = .next t) ∧
    (∃ t, (queue [.reset]).pending = .reset :: [] ∧ step (queue [.reset]) = .next t) ∧
    ∃ t, Instr.unmask ≠ .ingest ∧ Instr.unmask ≠ .clearAcc ∧ exec .unmask helloParsed = .next t := by
  refine ⟨witness_IngestIsParseUnmaskAppend, ?_, exec_next _ _, ⟨_, rfl, rfl⟩, ?_⟩
  · simpa using next_of_after (o := exec .ingest (framed [0x80])) (f := fun t => !(t.err == 0)) (by decide +kernel)
  · obtain ⟨t, h⟩ := exec_next .unmask helloParsed
    exact ⟨t, by decide, by decide, h⟩

theorem witness_AccumulatorIsTheIngestedPayloads :
    let s := { ingestedAB with pending := [.access (.write .reg 0 5), .access (.write .acc 0 9)] }
    s.accBytes = [(0x41 : Byte), 0x42].map some ∧ ∃ t, Sys2Proof.core.run 2 s = .next t ∧ t.accLen = 4 := by
  obtain ⟨t, h, ht⟩ := next_of_after
    (o := Sys2Proof.core.run 2 { ingestedAB with pending := [.access (.write .reg 0 5), .access (.write .acc 0 9)] })
    (f := fun t => t.accLen == 4) (by decide +kernel)
  exact ⟨by decide, t, h, eq_of_beq ht⟩

theorem witness_LoadedClientFrameIsIngested :
    ∀ tier ∈ [(0 : BitVec 2), 1, 2],
      let f := clientFrame tier 0x81 true ⟨1, 2, 3, 4⟩ [0x41, 0x42]
      let s := queue ((programAccesses [.frame f, .cmd .ingest]).map .access)
      tierAdmits tier [(0x41 : Byte), 0x42].length ∧ f.length ≤ s.params.fbCap ∧
        s.accLen + [(0x41 : Byte), 0x42].length ≤ s.params.accCap ∧
        s.pending = (programAccesses [.frame f, .cmd .ingest]).map .access ++ [] := by
  simp only [List.append_nil, tierAdmits]
  decide +kernel

theorem witness_FailingCommandsChangeOnlyTheListedState :
    (∃ t, exec .deriveAccept (queue []) = .next t ∧ t.err ≠ 0) ∧ (∃ t, exec .decodeLen (framed [0x81]) = .next t ∧ t.err ≠ 0) ∧
    (∃ t, exec .unmask (queue []) = .next t ∧ t.err ≠ 0) ∧ (∃ t, exec .clearAcc (queue []) = .next t) ∧
    (∃ t, (queue [.access (.write .reg 0 0x17)]).pending = .access (.write .reg 0 (0x17 : Byte).toNat) :: [] ∧
      (∀ i, decode 0x17 ≠ .ok i) ∧ step (queue [.access (.write .reg 0 0x17)]) = .next t) := by
  refine ⟨⟨_, rfl, by decide⟩, witness_RetryEndsAsTheFirstTry.1, ?_, exec_next _ _, _, rfl, ?_, rfl⟩
  · simpa using next_of_after (o := exec .unmask (queue [])) (f := fun t => !(t.err == 0)) (by decide +kernel)
  · intro i h; cases h

theorem witness_StatusFlagsFollowTheirTable :
    (∃ t, exec .ingest (framed frameAB) = .next t ∧ t.err = 0) ∧ (∃ t, exec .ingest (framed [0x80]) = .next t ∧ t.err ≠ 0) ∧
    ∀ i : Instr, ∃ t, exec i (framed hello) = .next t :=
  ⟨witness_IngestIsParseUnmaskAppend, witness_ReassemblyTransitions.2.1, fun i => exec_next i _⟩

theorem witness_CommandsWriteOnlyTheirListedState : ∀ i : Instr, ∃ t, exec i (framed hello) = .next t :=
  fun i => exec_next i _

/-- The state after V30 meets the invariant. -/
theorem witness_EveryStepKeepsTheInvariant : ingestedAB.Inv ∧ ∃ t, step ingestedAB = .next t := by
  refine ⟨?_, _, rfl⟩
  constructor <;> decide +kernel

theorem witness_CommandsStayInsideTheirBuffers :
    (∃ t, exec .ingest (framed frameAB) = .next t) ∧
    (∀ j < (framed frameAB).fbLen, Memory.read (Memory.writeBytes [] 0 (frameAB ++ [9])) j = (framed frameAB).fb.read j) ∧
    (∀ j < (framed frameAB).keyLen, Memory.read [] j = (framed frameAB).key.read j) ∧
    ingestedAB.Inv ∧ ∃ t, exec .ingest ingestedAB = .next t :=
  ⟨exec_next _ _, by decide, by decide, witness_EveryStepKeepsTheInvariant.1, exec_next _ _⟩

theorem witness_ResetEventGivesTheResetValues : (queue [.reset]).pending = .reset :: [] := rfl

theorem witness_IdleBlockKeepsItsState : ingestedAB.pending = [] := rfl

theorem witness_EveryStepCompletesUnlessASecondAgentDrives :
    (∃ rest, (queue [.secondAgent]).pending = .secondAgent :: rest) ∧
      ∀ rest, (queue [.reset]).pending ≠ .secondAgent :: rest := ⟨⟨_, rfl⟩, by simp [queue]⟩

theorem witness_OneAgentRunsComplete : (queue [.reset, .access (.read .reg 0)]).oneAgent := by
  simp [State.oneAgent, queue]

theorem witness_InvariantHoldsAtReset :
    Params.ok ⟨14, 0, 24⟩ ∧ (∀ p ∈ [caps, ⟨14, 0, 24⟩], p.ok) ∧
      { State.resetWith caps with inst := 1 } ∈ systemReset [⟨14, 0, 24⟩, caps] := by decide

theorem witness_ReachableStatesMeetR45 :
    Params.ok caps ∧ ∃ t, Sys2Proof.core.run 1 { State.resetWith caps with pending := [.reset] } = .next t :=
  ⟨by decide, _, rfl⟩

theorem witness_LengthRegistersFitTheirWidths : ingestedAB.Inv := witness_EveryStepKeepsTheInvariant.1

theorem witness_InstancesDoNotInterfere :
    ∃ sys, systemStep 1 [queue [], queue [.reset]] = .next sys ∧ 0 ≠ 1 ∧ [queue [], queue [.reset]][1]? = some (queue [.reset]) :=
  ⟨_, rfl, by decide, rfl⟩

theorem witness_FrameAndKeyProgramsLoadTheirBytes :
    (queue ((programAccesses [.frame frameAB]).map .access ++ [])).pending = (programAccesses [.frame frameAB]).map .access ++ [] ∧
    frameAB.length ≤ (queue []).params.fbCap ∧
    (queue ((programAccesses [.key [0x61]]).map .access ++ [])).pending = (programAccesses [.key [0x61]]).map .access ++ [] ∧
    [(0x61 : Byte)].length ≤ (queue []).params.keyCap := ⟨rfl, by decide, rfl, by decide⟩

theorem witness_UnmaskWithACurrentHeaderDecodesTheFrame :
    helloParsed.headerCurrent ∧
    (∃ r, parseHdr helloParsed.frame = .ok r ∧ r.poff.toNat + r.plen.toNat ≤ helloParsed.fbLen) ∧
    (∃ t, step { helloParsed with pending := [.access (.write .fb 6 0)] } = .next t) ∧
    ∃ t, step { helloParsed with pending := [.access (.write .reg 3 10)] } = .next t :=
  ⟨⟨by decide, rfl⟩, ⟨_, rfl, by decide⟩, ⟨_, rfl⟩, _, rfl⟩

end Sys2Proof.Tests
end

/-! SUPPORT. Proofs of the statements about the state (`10_state.md`): host accesses to registers (R24, R34 to R36), the
payload offset (R30), and the invariant of reachable states (R45). -/

namespace Sys2Proof.Machine

/-! ### Host accesses to registers -/

theorem Reg.index_lt (r : Reg) : r.index < 16 := by cases r <;> decide

theorem Reg.ofIndex_eq_none {i : Nat} (h : 16 ≤ i) : Reg.ofIndex i = none := by
  cases hr : Reg.ofIndex i with
  | none => rfl
  | some r => have := Reg.index_lt r; have := Reg.ofIndex_index hr; omega

/-- The host-writable registers are those at indices 0, 3, 14 and 15 (R20). -/
theorem Reg.hostWritable_iff_index (r : Reg) :
    r.hostWritable = true ↔ r.index = 0 ∨ r.index = 3 ∨ r.index = 14 ∨ r.index = 15 := by
  cases r <;> decide

theorem step_writeReg {s : State} {rest : List HostEvent} {i v : Nat}
    (h : s.pending = .access (.write .reg i v) :: rest) : step s = hostWriteReg i v (s.advance rest).countWrite :=
  step_of_pending h

theorem step_read {s : State} {rest : List HostEvent} {sp : Space} {i : Nat}
    (h : s.pending = .access (.read sp i) :: rest) : step s = .next ((s.advance rest).hostRead sp i) :=
  step_of_pending h

/-- A write to a register the host may only read, or to a reserved index, is ignored (R36). -/
theorem hostWriteReg_ignored {i : Nat} (h : ∀ r, Reg.ofIndex i = some r → r.hostWritable = false) (v : Nat)
    (s : State) : hostWriteReg i v s = .next s := by
  unfold hostWriteReg
  cases hr : Reg.ofIndex i with
  | none => rfl
  | some r =>
    have hro := h r hr
    cases r with
    | cmd | fbLen | keyLen | keyPresent => exact absurd hro (by decide)
    | _ => rfl

/-- A read records a value, may draw one, and changes nothing else (R36, R60). -/
theorem State.hostRead_frame (s : State) (sp : Space) (i : Nat) :
    s.hostRead sp i = { s with observed := (s.hostRead sp i).observed, draws := (s.hostRead sp i).draws } := by
  have h := hostEvent_cases (e := .access (.read sp i)) (s := s) rfl
  generalize s.hostRead sp i = t at h ⊢
  cases h with
  | read _ _ _ _ hu => rcases hu with rfl | rfl <;> rfl

@[simp] theorem State.fit_toNat {n : Nat} (s : State) (b : BitVec n) : s.fit n b.toNat = (b, s) := by
  simp [State.fit, b.isLt]

@[simp] theorem State.fit_params (s : State) (n v : Nat) : (s.fit n v).2.params = s.params := by
  rcases s.fit_snd n v with h | h <;> rw [h]
  rfl

/-- Settles O5: the writable indices are 0, 3, 14 and 15, and a read only records. -/
theorem readOnlyAndReservedRegisters : Obligations.ReadOnlyAndReservedRegisters := by
  intro s rest
  refine ⟨fun i v hp hi => ?_, fun i hp hi => ?_, fun sp i hp => ⟨_, step_read hp, State.hostRead_frame _ sp i⟩⟩
  · rw [step_writeReg hp]
    refine hostWriteReg_ignored (fun r hr => ?_) v _
    have := Reg.ofIndex_index hr
    rw [Bool.eq_false_iff, ne_eq, Reg.hostWritable_iff_index]
    omega
  · rw [step_read hp]
    simp [State.hostRead, State.regRead, Reg.ofIndex_eq_none hi, State.observe, State.advance]

/-- What only the host writes: no command changes it (R24, R34, R37, R40). -/
theorem exec_hostOwned {i : Instr} {s t : State} (h : exec i s = .next t) :
    t.params = s.params ∧ t.fbLen = s.fbLen ∧ t.keyLen = s.keyLen ∧ t.fb = s.fb ∧ t.key = s.key := by
  cases exec_cases h <;> exact ⟨rfl, rfl, rfl, rfl, rfl⟩

/-- Settles O7: the two length registers clamp what the host writes, and the effects of the commands leave them. -/
theorem lengthWritesAreClamped : Obligations.LengthWritesAreClamped := by
  refine ⟨fun s rest v => ⟨step_writeReg, step_read, step_writeReg, step_read⟩, fun i s t h => ?_⟩
  obtain ⟨-, hfb, hkey, -⟩ := exec_hostOwned h
  exact ⟨hfb, hkey⟩

/-- Settles O8: the written bit fits the register, and DERIVE_ACCEPT without a key fails. -/
theorem keyPresentTakesTheWrittenBit : Obligations.KeyPresentTakesTheWrittenBit := by
  refine fun s rest b => ⟨fun hp => ?_, step_read, fun hk => ?_⟩
  · rw [step_writeReg hp]
    simp [hostWriteReg, Reg.ofIndex, State.setKeyPresent, State.countWrite, State.advance]
  · rcases execDeriveAccept_cases s with ⟨-, he⟩ | ⟨hk', -⟩
    · exact ⟨_, he, rfl⟩
    · exact absurd hk hk'

/-! ### The payload offset of a parsed header -/

/-- A PARSE_HEADER or INGEST that succeeds has latched the offsets of a header that parses (R139, R181). -/
theorem exec_latches_parsed {i : Instr} {s t : State} (hi : i = .parseHeader ∨ i = .ingest)
    (h : exec i s = .next t) (he : t.err = 0) :
    ∃ r, parseHdr s.frame = .ok r ∧ t.hdrMoff = r.moff ∧ t.hdrPoff = r.poff := by
  have hc := exec_cases h
  rcases hi with rfl | rfl
  · cases hc with
    | noHdr => simp at he
    | hdr _ r hr => exact ⟨r, hr, rfl, rfl⟩
  · cases hc with
    | ingestShort => simp at he
    | ingestTruncated => simp at he
    | ingestOverflow => simp at he
    | ingested _ r hr => exact ⟨r, hr, rfl, rfl⟩

/-- Right after reset, with the least capacities, a frame loaded. -/
def frameLoaded (bs : List Byte) : State :=
  { State.resetWith ⟨14, 0, 24⟩ with fb := Memory.writeBytes [] 0 bs, fbLen := bs.length }

/-- A frame that is a whole header and no payload, in each tier: the payload offset is its end (R30). -/
theorem poff_eq_fbLen_of_emptyPayload {i : Instr} {n : Nat} (hi : i = .parseHeader ∨ i = .ingest)
    (hn : n = 6 ∨ n = 8 ∨ n = 14) :
    ∃ s t : State, exec i s = .next t ∧ t.err = 0 ∧ t.fbLen = n ∧ t.hdrPoff.toNat = n := by
  rcases hn with rfl | rfl | rfl
  · refine ⟨frameLoaded [0x80, 0x80, 1, 2, 3, 4], ?_⟩
    rcases hi with rfl | rfl <;> exact ⟨_, rfl, rfl, rfl, rfl⟩
  · refine ⟨frameLoaded [0x80, 0xFE, 0, 0, 1, 2, 3, 4], ?_⟩
    rcases hi with rfl | rfl <;> exact ⟨_, rfl, rfl, rfl, rfl⟩
  · refine ⟨frameLoaded [0x80, 0xFF, 0, 0, 0, 0, 0, 0, 0, 0, 1, 2, 3, 4], ?_⟩
    rcases hi with rfl | rfl <;> exact ⟨_, rfl, rfl, rfl, rfl⟩

/-- Settles O25: a success has parsed a header, whose key lies inside the frame. -/
theorem parsedPayloadOffsetIsInTheFrame : Obligations.ParsedPayloadOffsetIsInTheFrame := by
  refine ⟨fun i s t hi h he => ?_, fun i n => poff_eq_fbLen_of_emptyPayload⟩
  obtain ⟨r, hr, hmoff, hpoff⟩ := exec_latches_parsed hi h he
  obtain ⟨-, hlen, -⟩ := exec_hostOwned h
  simpa [hmoff, hpoff, hlen] using parseHdr_poff hr

/-! ### The invariant: what the pure functions return -/

/-- The fields of a length record agree with each other (R26 to R29, R80). -/
theorem decodeLen_agrees {fb : List Byte} {r : LenInfo} (h : decodeLen fb = .ok r) :
    r.fin = finBit r.b0 ∧ r.tier = tierOf r.b1 ∧ r.moff = moffOf r.tier ∧
      (r.tier = 0 → r.plen.toNat = rawLength r.b1) ∧ (r.tier = 1 → r.plen.toNat < 65536) := by
  rcases decodeLen_cases fb with h' | ⟨q, h', -, -, -, -, hfin, htier⟩ <;> rw [h] at h'
  · simp at h'
  obtain rfl : r = q := by simpa using h'
  refine ⟨hfin, ?_⟩
  rcases htier with ⟨hraw, ht, hm, hp⟩ | ⟨hraw, ht, hm, hp⟩ | ⟨hraw, ht, hm, hp⟩ <;>
    simp only [ht, hm, hp, tierOf, moffOf, hraw]
  · simp; omega
  · have := be_lt [byteAt fb 2, byteAt fb 3]
    simp at this ⊢; omega
  · simp

/-- A sequence of two bytes more than whole groups ends in one pad character (R109). -/
theorem base64_endsPadded (n : Nat) (d : List Byte) (h : d.length = 3 * n + 2) :
    (base64 d).length = 4 * n + 4 ∧ (base64 d)[4 * n + 3]? = some padChar := by
  induction n generalizing d with
  | zero =>
    obtain ⟨a, b, rfl⟩ := List.length_eq_two.mp h
    exact ⟨rfl, rfl⟩
  | succ n ih =>
    match d, h with
    | a :: b :: c :: r, h =>
      obtain ⟨hlen, hpad⟩ := ih r (by simp at h; omega)
      rw [base64_cons3, List.getElem?_append_right (by simp; omega)]
      exact ⟨by simp [hlen]; omega, by rw [← hpad]; congr 1⟩

/-- A token is 28 bytes, the last one the pad character (R110). -/
theorem deriveAcceptToken_shape (k : List Byte) :
    (deriveAcceptToken k).length = 28 ∧ (deriveAcceptToken k)[27]? = some padChar :=
  base64_endsPadded 6 _ (length_sha1 _)

/-! ### The invariant: one rule per update of the state -/

namespace State.Inv

variable {s : State}

theorem resetWith {p : Params} (hp : p.ok) : (State.resetWith p).Inv := by
  constructor
  case params_ok => exact hp
  all_goals simp [State.resetWith, State.flag, finBit, tierOf, rawLength]

theorem setErr (h : s.Inv) {v : BitVec 4} (hv : v.toNat ≤ 6) : (s.setErr v).Inv := { h with err_le := hv }

/-- STATUS may lose flags and gain COMPLETE, as long as HDR_VALID still implies LEN_VALID. -/
theorem withStatus (h : s.Inv) {u : State} (hu : u = { s with status := u.status })
    (hle : ∀ f ≠ StatusFlag.complete, u.flag f = true → s.flag f = true)
    (hhdr : u.flag .hdrValid = true → u.flag .lenValid = true) : u.Inv := by
  obtain ⟨st, rfl⟩ : ∃ st, u = { s with status := st } := ⟨_, hu⟩
  exact { h with
    moff_eq := fun hf => h.moff_eq (hle _ (by decide) hf)
    plen_t7 := fun hf => h.plen_t7 (hle _ (by decide) hf)
    plen_t16 := fun hf => h.plen_t16 (hle _ (by decide) hf)
    hdr_len := hhdr
    poff_eq := fun hf => h.poff_eq (hle _ (by decide) hf)
    tok_written := fun hf => h.tok_written (hle _ (by decide) hf)
    tok_padded := fun hf => h.tok_padded (hle _ (by decide) hf) }

theorem setComplete (h : s.Inv) (b : Bool) : (s.setFlag .complete b).Inv :=
  h.withStatus rfl (fun f hf hs => by simpa [hf] using hs) (by simpa using h.hdr_len)

/-- A failing frame command (R203). -/
theorem failFrame (h : s.Inv) (e : ErrKind) : (s.failFrame e).Inv := by
  have hf : ((s.setFlag .lenValid false).setFlag .hdrValid false).Inv :=
    h.withStatus rfl (fun f _ hs => by simp at hs; exact hs.2.2) (by simp)
  exact hf.setErr (by cases e <;> decide)

/-- A failing DERIVE_ACCEPT (R203). -/
theorem failKey (h : s.Inv) : s.failKey.Inv := by
  have hf : (s.setFlag .tokValid false).Inv :=
    h.withStatus rfl (fun f _ hs => by simp at hs; exact hs.2) (by simpa using h.hdr_len)
  exact hf.setErr (by decide)

/-- Latching a length record and its offsets, with HDR_VALID set or cleared (R137, R139). -/
theorem latch (h : s.Inv) {fb : List Byte} {r : LenInfo} (hr : decodeLen fb = .ok r) (mk : MaskKey)
    {poff : BitVec 4} {b : Bool} (hp : b = true → poff = r.moff + 4) :
    ((((s.latchLen r).latchKey mk poff).setFlag .lenValid true).setFlag .hdrValid b).Inv := by
  obtain ⟨hfin, htier, hmoff, ht7, ht16⟩ := decodeLen_agrees hr
  exact { h with
    fin_eq := hfin
    tier_eq := htier
    moff_eq := fun _ => hmoff
    plen_t7 := fun _ => ht7
    plen_t16 := fun _ => ht16
    hdr_len := by simp
    poff_eq := fun hv => hp (by simpa using hv)
    tok_written := fun hv => h.tok_written (by simpa using hv)
    tok_padded := fun hv => h.tok_padded (by simpa using hv) }

theorem latchHdr (h : s.Inv) {fb : List Byte} {r : HdrInfo} (hr : parseHdr fb = .ok r) : (s.latchHdr r).Inv := by
  rcases parseHdr_cases fb with h' | ⟨q, h', hlen, -, -, hpoff⟩ <;> rw [hr] at h'
  · simp at h'
  obtain rfl : r = q := by simpa using h'
  exact h.latch hlen r.mkey fun _ => hpoff

theorem writeOut (h : s.Inv) {bs : List Byte} (hb : bs.length ≤ s.params.fbCap - 6) : (s.writeOut bs).Inv :=
  { h with
    outLen_le := hb
    out_wf := Memory.wf_writeBytes h.out_wf 0 bs
    out_in := Memory.within_writeBytes h.out_in (by omega)
    out_written := fun i (hi : i < bs.length) => by simp [Memory.read_writeBytes, hi] }

theorem appendAcc (h : s.Inv) {bs : List Byte} (hb : s.accLen + bs.length ≤ s.params.accCap) :
    (s.appendAcc bs).Inv :=
  { h with
    accLen_le := hb
    acc_wf := Memory.wf_writeBytes h.acc_wf s.accLen bs
    acc_in := Memory.within_writeBytes h.acc_in hb
    acc_written := fun i (hi : i < s.accLen + bs.length) => by
      by_cases hlt : i < s.accLen
      · simp [Memory.read_writeBytes, Nat.not_le.mpr hlt, h.acc_written i hlt]
      · simp [Memory.read_writeBytes, Nat.le_of_not_lt hlt, hi]; omega }

theorem emptyAcc (h : s.Inv) : s.emptyAcc.Inv :=
  { h with
    accLen_le := Nat.zero_le _
    acc_written := fun i hi => absurd hi (Nat.not_lt_zero i) }

/-- A token of 28 bytes that ends in the pad character, with TOK_VALID set (R110, R112). -/
theorem writeTok (h : s.Inv) {tk : List Byte} (hlen : tk.length = 28) (hpad : tk[27]? = some padChar) :
    ((s.writeTok tk).setFlag .tokValid true).Inv :=
  { h with
    moff_eq := fun hv => h.moff_eq (by simpa using hv)
    plen_t7 := fun hv => h.plen_t7 (by simpa using hv)
    plen_t16 := fun hv => h.plen_t16 (by simpa using hv)
    hdr_len := by simpa using h.hdr_len
    poff_eq := fun hv => h.poff_eq (by simpa using hv)
    tok_wf := Memory.wf_writeBytes h.tok_wf 0 tk
    tok_in := Memory.within_writeBytes h.tok_in (by omega)
    tok_written := fun _ i hi => by simp [Memory.read_writeBytes, hlen, hi]
    tok_padded := fun _ => by simpa [Memory.read_writeBytes, hlen] using hpad }

theorem fit (h : s.Inv) (n v : Nat) : (s.fit n v).2.Inv := by
  rcases s.fit_snd n v with hf | hf <;> rw [hf]
  · exact h
  · exact { h with }

theorem setCmd (h : s.Inv) (w : Byte) : (s.setCmd w).Inv := { h with }

theorem advance (h : s.Inv) (rest : List HostEvent) : (s.advance rest).Inv := { h with }

/-! ### The invariant: commands, events, steps and runs -/

/-- A payload inside the frame fits OUT behind the shortest header. -/
theorem payload_fits (h : s.Inv) {poff plen : Nat} (hp : 6 ≤ poff) (hf : poff + plen ≤ s.fbLen) :
    plen ≤ s.params.fbCap - 6 := by
  have := h.fbLen_le
  omega

/-- A latched payload offset is at least 6 (R29, R30). -/
theorem hdrPoff_ge (h : s.Inv) (hv : s.flag .hdrValid = true) : 6 ≤ s.hdrPoff.toNat := by
  rw [h.poff_eq hv, h.moff_eq (h.hdr_len hv)]
  unfold moffOf
  split
  · decide
  · split <;> decide

end State.Inv

/-- Every command keeps the invariant. -/
theorem exec_inv {i : Instr} {s t : State} (h : s.Inv) (ht : exec i s = .next t) : t.Inv := by
  cases i with
  | deriveAccept =>
    change execDeriveAccept s = _ at ht
    rcases execDeriveAccept_cases s with ⟨-, he⟩ | ⟨-, -, he⟩ <;> rw [he] at ht <;> cases ht
    · exact h.failKey
    · obtain ⟨hlen, hpad⟩ := deriveAcceptToken_shape s.keyBytes
      exact (h.writeTok hlen hpad).setErr (by decide)
  | decodeLen =>
    change execDecodeLen s = _ at ht
    rcases execDecodeLen_cases s with ⟨-, he⟩ | ⟨r, hr, he⟩ <;> rw [he] at ht <;> cases ht
    · exact h.failFrame _
    · exact (h.latch (poff := s.hdrPoff) hr s.mkey (by simp)).setErr (by decide)
  | parseHeader =>
    change execParseHeader s = _ at ht
    rcases execParseHeader_cases s with ⟨-, he⟩ | ⟨r, hr, he⟩ <;> rw [he] at ht <;> cases ht
    · exact h.failFrame _
    · exact (h.latchHdr hr).setErr (by decide)
  | unmask =>
    change execUnmask s = _ at ht
    rcases execUnmask_cases s with ⟨-, he⟩ | ⟨-, -, he⟩ | ⟨hv, hin, he⟩ <;> rw [he] at ht <;> cases ht
    · exact h.setErr (by decide)
    · exact h.setErr (by decide)
    · exact (h.writeOut (by simpa using h.payload_fits (h.hdrPoff_ge hv) hin)).setErr (by decide)
  | ingest =>
    change execIngest s = _ at ht
    rcases execIngest_cases s with ⟨-, he⟩ | ⟨r, hr, ⟨-, he⟩ | ⟨-, -, he⟩ | ⟨hin, hacc, he⟩⟩ <;> rw [he] at ht <;>
      cases ht
    · exact h.failFrame _
    · exact h.failFrame _
    · exact h.failFrame _
    · obtain ⟨-, hpoff, -⟩ := parseHdr_poff hr
      have hout := (h.latchHdr hr).writeOut (bs := s.payload r.poff.toNat r.plen.toNat r.mkey)
        (by simpa using h.payload_fits (by omega) hin)
      exact ((hout.appendAcc (by simpa using hacc)).setComplete _).setErr (by decide)
  | clearAcc =>
    cases ht
    exact (h.emptyAcc.setComplete false).setErr (by decide)

/-- Every host event keeps the invariant. -/
theorem HostEffect.inv {s t : State} {e : HostEvent} (h : s.Inv) (he : HostEffect s e t) : t.Inv := by
  have hcount : s.countWrite.Inv := { h with }
  cases he with
  | read sp i v u hu => rcases hu with rfl | rfl <;> exact { h with }
  | ignored => exact hcount
  | fbLen v => exact { hcount with fbLen_le := Nat.min_le_right _ _ }
  | keyLen v => exact { hcount with keyLen_le := Nat.min_le_right _ _ }
  | keyPresent v => exact { hcount.fit 1 v with }
  | storeFb i v hi =>
    have hfit := hcount.fit 8 v
    refine { hfit with fb_wf := Memory.wf_write hfit.fb_wf _ _, fb_in := Memory.within_write hfit.fb_in ?_ _ }
    simpa using hi
  | storeKey i v hi =>
    have hfit := hcount.fit 8 v
    refine { hfit with key_wf := Memory.wf_write hfit.key_wf _ _, key_in := Memory.within_write hfit.key_in ?_ _ }
    simpa using hi
  | illegal v r => exact ((hcount.fit 8 v).setCmd _).setErr (by decide)
  | command v i _ _ ht => exact exec_inv ((hcount.fit 8 v).setCmd _) ht
  | reset => exact { State.Inv.resetWith h.params_ok with }

/-- Every step keeps the invariant. -/
theorem step_inv {s t : State} (h : s.Inv) (ht : step s = .next t) : t.Inv := by
  rcases step_cases ht with ⟨-, rfl⟩ | ⟨e, rest, -, he⟩
  · exact h
  · exact he.inv (h.advance rest)

/-- No step changes the parameters (R9; log 12). -/
theorem step_params {s t : State} (ht : step s = .next t) : t.params = s.params := by
  rcases step_cases ht with ⟨-, rfl⟩ | ⟨e, rest, -, he⟩
  · rfl
  cases he with
  | read sp i v u hu => rcases hu with rfl | rfl <;> rfl
  | ignored | fbLen | keyLen | reset => rfl
  | keyPresent | storeFb | storeKey | illegal => exact State.fit_params _ _ _
  | command v i _ _ hi => exact (exec_hostOwned hi).1.trans (State.fit_params _ _ _)

/-- What every step keeps holds after every run that answers a state. -/
theorem run_preserves {P : State → Prop} (hstep : ∀ {s t : State}, P s → step s = .next t → P t) (n : Nat)
    {s t : State} (hs : P s) (h : Sys2Proof.core.run n s = .next t) : P t := by
  induction n generalizing s with
  | zero => cases h; exact hs
  | succ n ih =>
    rw [run_succ] at h
    cases hu : step s with
    | next u => rw [hu] at h; exact ih (hstep hs hu) h
    | fault r => rw [hu] at h; cases h
    | refused r => rw [hu] at h; cases h

/-- A state reached from reset meets the invariant and has the capacities it started with. -/
theorem inv_of_reachable {p : Params} (hp : p.ok) {events : List HostEvent} {n : Nat} {t : State}
    (h : Sys2Proof.core.run n { State.resetWith p with pending := events } = .next t) : t.Inv ∧ t.params = p :=
  run_preserves (s := { State.resetWith p with pending := events }) (P := fun s => s.Inv ∧ s.params = p)
    (fun ⟨hi, hpar⟩ hst => ⟨step_inv hi hst, (step_params hst).trans hpar⟩) n ⟨{ State.Inv.resetWith hp with }, rfl⟩ h

/-- The three tiers as byte 1 and the mask offset show them (R27, R29). -/
theorem tierOf_cases (b1 : Byte) :
    (tierOf b1 = 0 ∧ moffOf (tierOf b1) = 2 ∧ b1.toNat % 128 < 126) ∨
    (tierOf b1 = 1 ∧ moffOf (tierOf b1) = 4 ∧ b1.toNat % 128 = 126) ∨
    (tierOf b1 = 2 ∧ moffOf (tierOf b1) = 10 ∧ b1.toNat % 128 = 127) := by
  unfold tierOf
  rw [rawLength_eq]
  split
  · exact .inl ⟨rfl, rfl, ‹_›⟩
  · split
    · exact .inr (.inl ⟨rfl, rfl, ‹_›⟩)
    · exact .inr (.inr ⟨rfl, rfl, by omega⟩)

/-- Settles O51: the invariant holds at reset and every step keeps it, and R45's five bullets follow from it. -/
theorem reachableStatesMeetR45 : Obligations.ReachableStatesMeetR45 := by
  intro p events n t hp hrun
  obtain ⟨h, rfl⟩ := inv_of_reachable hp hrun
  have htier := tierOf_cases t.hdrB1
  rw [← h.tier_eq] at htier
  refine ⟨⟨h.fbLen_le, h.keyLen_le, h.accLen_le, h.outLen_le⟩, fun hlen => ?_, fun hhdr => ?_, fun ht hlen => ?_, h.err_le⟩
  · rw [h.moff_eq hlen, h.fin_eq]
    exact ⟨htier, finBit_toNat _⟩
  · have hlen := h.hdr_len hhdr
    refine ⟨hlen, ?_⟩
    rw [h.poff_eq hhdr, h.moff_eq hlen]
    rcases htier with ⟨-, hm, -⟩ | ⟨-, hm, -⟩ | ⟨-, hm, -⟩ <;> rw [hm] <;> rfl
  · have hraw := h.plen_t7 hlen ht
    rw [rawLength_eq] at hraw
    refine ⟨hraw, ?_⟩
    rw [ht] at htier
    simp at htier
    omega

end Sys2Proof.Machine

/-! SUPPORT. Proofs of the statements about the encoding (`30_encoding.md`): the opcode map (R84), illegal command words
(R85), and the agreement of the bit-string codec with the integer arithmetic (R73). -/

namespace Sys2Proof.Machine

/-! ### The command word -/

theorem cmdRsvd_toNat (w : Byte) : (cmdRsvd w).toNat = w.toNat / 16 := by
  rw [cmdRsvd, BitVec.extractLsb'_toNat, Nat.shiftRight_eq_div_pow]
  omega

theorem cmdOp_toNat (w : Byte) : (cmdOp w).toNat = w.toNat % 16 := by
  simp [cmdOp, BitVec.extractLsb'_toNat]

/-- The reserved field is 0 in the sixteen lowest words (R83). -/
theorem cmdRsvd_eq_zero_iff (w : Byte) : cmdRsvd w = 0 ↔ w.toNat < 16 := by
  rw [← BitVec.toNat_inj, cmdRsvd_toNat]
  exact Nat.div_eq_zero_iff_lt (by decide)

/-- Everything the decoder can answer: one of three rejections, each for its range of words (R85), or the command the
word is the encoding of (R84). -/
theorem decode_cases (w : Byte) :
    (16 ≤ w.toNat ∧ decode w = .error .reservedBits) ∨ (w = 0x00 ∧ decode w = .error .reservedZero) ∨
    (7 ≤ w.toNat ∧ w.toNat < 16 ∧ decode w = .error .reservedOp) ∨ ∃ i, w = encode i ∧ decode w = .ok i := by
  by_cases hr : cmdRsvd w = 0
  · have hlt := (cmdRsvd_eq_zero_iff w).mp hr
    have hop : (cmdOp w).toNat = w.toNat := by rw [cmdOp_toNat, Nat.mod_eq_of_lt hlt]
    have hword {v : Byte} (hv : (cmdOp w).toNat = v.toNat) : w = v := BitVec.eq_of_toNat_eq (hop.symm.trans hv)
    unfold decode
    rw [if_neg (not_not.mpr hr)]
    split
    · next h => exact .inr (.inl ⟨hword h, rfl⟩)
    · next h => exact .inr (.inr (.inr ⟨.deriveAccept, hword h, rfl⟩))
    · next h => exact .inr (.inr (.inr ⟨.decodeLen, hword h, rfl⟩))
    · next h => exact .inr (.inr (.inr ⟨.parseHeader, hword h, rfl⟩))
    · next h => exact .inr (.inr (.inr ⟨.unmask, hword h, rfl⟩))
    · next h => exact .inr (.inr (.inr ⟨.ingest, hword h, rfl⟩))
    · next h => exact .inr (.inr (.inr ⟨.clearAcc, hword h, rfl⟩))
    · next h0 h1 h2 h3 h4 h5 h6 =>
      simp only [imp_false, hop] at h0 h1 h2 h3 h4 h5 h6
      exact .inr (.inr (.inl ⟨by omega, hlt, rfl⟩))
  · exact .inl ⟨by rwa [cmdRsvd_eq_zero_iff, Nat.not_lt] at hr, if_pos hr⟩

/-- Settles O1: in each case of `decode_cases` the answer and the word's range are known. -/
theorem commandWordsDecodeByTheOpcodeMap : Obligations.CommandWordsDecodeByTheOpcodeMap := by
  intro w
  rcases decode_cases w with ⟨hw, hd⟩ | ⟨rfl, -⟩ | ⟨hlo, hhi, hd⟩ | ⟨i, rfl, -⟩
  · simp [hd, ← BitVec.toNat_inj]
    omega
  · decide
  · simp [hd, ← BitVec.toNat_inj]
    omega
  · cases i <;> decide

/-- R85's words are no commands. -/
theorem decode_error_of_illegal {w : Byte}
    (h : w = 0x00 ∨ (0x07 ≤ w.toNat ∧ w.toNat ≤ 0x0F) ∨ w.extractLsb' 4 4 ≠ 0) : ∃ r, decode w = .error r := by
  rcases decode_cases w with ⟨-, hd⟩ | ⟨-, hd⟩ | ⟨-, -, hd⟩ | ⟨i, rfl, -⟩
  · exact ⟨_, hd⟩
  · exact ⟨_, hd⟩
  · exact ⟨_, hd⟩
  · exact absurd h (by cases i <;> decide)

/-- Issuing a word that is no command stores it and raises ILLEGAL_CMD (R85). -/
theorem issue_of_decode_error {w : Byte} {r : CmdReject} (h : decode w = .error r) (s : State) :
    issue w s = .next ((s.setCmd w).setErr 4) := by
  simp [issue, h, ErrKind.code]

/-- A byte written to CMD is issued (R21). -/
theorem hostWriteReg_cmd (w : Byte) (s : State) : hostWriteReg 0 w.toNat s = issue w s := by
  simp [hostWriteReg, Reg.ofIndex]

/-- Settles O4: the write issues a word that does not decode. -/
theorem illegalWordStoresCmdAndErrOnly : Obligations.IllegalWordStoresCmdAndErrOnly := by
  intro s rest w hp hw
  obtain ⟨r, hd⟩ := decode_error_of_illegal hw
  rw [step_writeReg hp, hostWriteReg_cmd, issue_of_decode_error hd]
  rfl

/-! ### The bit-string codec -/

/-- The string of a byte's `n` lowest bits, most significant first. -/
def lowBits (b : Byte) : Nat → List Char
  | 0 => []
  | n + 1 => (if b.getLsbD n then '1' else '0') :: lowBits b n

/-- A byte's string is that of all its bits (R70). -/
theorem byteToBits_eq_lowBits (b : Byte) : byteToBits b = lowBits b 8 := rfl

/-- Reading one more bit doubles the value and adds the bit (R72). -/
theorem bitsToIntegerFrom_bit (v : Nat) (c : Bool) (cs : List Char) :
    bitsToIntegerFrom v ((if c then '1' else '0') :: cs) = bitsToIntegerFrom (2 * v + c.toNat) cs := by
  cases c <;> rfl

/-- Reading a byte's `n` lowest bits shifts the value by `n` bits and adds them. -/
theorem bitsToIntegerFrom_lowBits (v : Nat) (b : Byte) (n : Nat) (cs : List Char) :
    bitsToIntegerFrom v (lowBits b n ++ cs) = bitsToIntegerFrom (v * 2 ^ n + b.toNat % 2 ^ n) cs := by
  induction n generalizing v with
  | zero => simp [lowBits, Nat.mod_one]
  | succ n ih =>
    have hbit : b.toNat % 2 ^ (n + 1) = b.toNat % 2 ^ n + 2 ^ n * (b.getLsbD n).toNat := by
      rw [Nat.mod_pow_succ, BitVec.getLsbD, Nat.toNat_testBit]
    rw [lowBits, List.cons_append, bitsToIntegerFrom_bit, ih, hbit]
    congr 1
    ring

/-- Reading the strings of a byte sequence takes the steps of `be` (R13, R71). -/
theorem bitsToIntegerFrom_bufferToBits (v : Nat) (bs : List Byte) :
    bitsToIntegerFrom v (bufferToBits bs) = some (bs.foldl (fun v b => v * 256 + b.toNat) v) := by
  induction bs generalizing v with
  | nil => rfl
  | cons b bs ih =>
    have hb : b.toNat % 2 ^ 8 = b.toNat := Nat.mod_eq_of_lt b.isLt
    rw [bufferToBits, List.flatMap_cons, byteToBits_eq_lowBits, bitsToIntegerFrom_lowBits, hb]
    exact ih _

/-- Settles O54: both sides read the bits of a sequence most significant first. -/
theorem bitCodecAgreesWithIntegerArithmetic : Obligations.BitCodecAgreesWithIntegerArithmetic := by
  refine ⟨bitsToIntegerFrom_bufferToBits 0, fun b => ⟨?_, ?_⟩⟩
  · have hdrop : (byteToBits b).drop 1 = lowBits b 7 ++ [] := rfl
    rw [hdrop, bitsToInteger, bitsToIntegerFrom_lowBits, rawLength_eq]
    simp [bitsToIntegerFrom]
  · have htop : b.getLsbD 7 = decide (128 ≤ b.toNat) := b.msb_eq_decide
    rw [byteToBits_eq_lowBits, lowBits, htop, List.getElem?_cons_zero]
    simp

end Sys2Proof.Machine

/-! SUPPORT. Proofs of the statements about the handshake key deriver (`40_handshake.md`): base64 (R108, R109), the shape of
a token (R110), DERIVE_ACCEPT (R112, R114), UTF-8 (R101), and SHA-1 (R103 to R107). -/

namespace Sys2Proof.Machine

/-! ### Base64 -/

/-- The alphabet, in order (R108). -/
theorem alpha_eq_getElem? (v : BitVec 6) :
    ("ABCDEFGHIJKLMNOPQRSTUVWXYZabcdefghijklmnopqrstuvwxyz0123456789+/".toList[v.toNat]?).map
      (fun c => BitVec.ofNat 8 c.toNat) = some (alpha v) := by
  revert v
  decide

/-- The four characters of a group are those of the 6-bit digits of its 24-bit value (R109). -/
theorem base64Group_digits (g0 g1 g2 : Byte) : ∃ c0 c1 c2 c3 : BitVec 6,
    c0.toNat * 2 ^ 18 + c1.toNat * 2 ^ 12 + c2.toNat * 2 ^ 6 + c3.toNat =
      g0.toNat * 2 ^ 16 + g1.toNat * 2 ^ 8 + g2.toNat ∧
    base64Group g0 g1 g2 = [alpha c0, alpha c1, alpha c2, alpha c3] := by
  refine ⟨_, _, _, _, ?_, rfl⟩
  have hbe : be [g0, g1, g2] = g0.toNat * 2 ^ 16 + g1.toNat * 2 ^ 8 + g2.toNat := by simp [be_cons]; omega
  simp only [hbe, BitVec.extractLsb'_toNat, BitVec.toNat_ofNat, Nat.shiftRight_eq_div_pow]
  omega

/-- A last group of two bytes (R109). -/
theorem base64_pair (g0 g1 : Byte) : base64 [g0, g1] = (base64Group g0 g1 0).take 3 ++ [padChar] := rfl

/-- A last group of one byte (R109). -/
theorem base64_single (g0 : Byte) : base64 [g0] = (base64Group g0 0 0).take 2 ++ [padChar, padChar] := rfl

/-- Settles O58: a group's characters are its digits', and a short group keeps those that carry data. -/
theorem base64FollowsItsRule : Obligations.Base64FollowsItsRule := by
  refine ⟨alpha_eq_getElem?, rfl, fun g0 g1 g2 r => ?_⟩
  obtain ⟨c0, c1, c2, c3, hsum, hg⟩ := base64Group_digits g0 g1 g2
  refine ⟨c0, c1, c2, c3, hsum, ?_, ?_, ?_⟩
  · simp [base64_cons3, hg]
  · rintro rfl
    rw [base64_pair, hg]
    rfl
  · rintro rfl rfl
    rw [base64_single, hg]
    rfl

/-- Where the last group has two bytes, the text before its pad character is of the alphabet, and the character next to it
encodes a value whose low two bits are zero (R110). -/
theorem base64_alphabet (n : Nat) (d : List Byte) (h : d.length = 3 * n + 2) :
    (∃ v : BitVec 6, v.extractLsb' 0 2 = 0 ∧ (base64 d)[4 * n + 2]? = some (alpha v)) ∧
      ∀ j < 4 * n + 3, ∃ v : BitVec 6, (base64 d)[j]? = some (alpha v) := by
  induction n generalizing d with
  | zero =>
    obtain ⟨g0, g1, rfl⟩ := List.length_eq_two.mp h
    obtain ⟨c0, c1, c2, c3, hsum, hg⟩ := base64Group_digits g0 g1 0
    have hd : base64 [g0, g1] = [alpha c0, alpha c1, alpha c2, padChar] := by rw [base64_pair, hg]; rfl
    have hlow : c2.extractLsb' 0 2 = 0 := by
      apply BitVec.eq_of_toNat_eq
      simp at hsum ⊢
      omega
    rw [hd]
    refine ⟨⟨c2, hlow, rfl⟩, fun j hj => ?_⟩
    interval_cases j
    exacts [⟨c0, rfl⟩, ⟨c1, rfl⟩, ⟨c2, rfl⟩]
  | succ n ih =>
    match d, h with
    | g0 :: g1 :: g2 :: r, h =>
      obtain ⟨hlast, hall⟩ := ih r (by simp at h; omega)
      obtain ⟨c0, c1, c2, c3, -, hg⟩ := base64Group_digits g0 g1 g2
      rw [base64_cons3, hg]
      refine ⟨hlast, fun j hj => ?_⟩
      match j with
      | 0 => exact ⟨c0, rfl⟩
      | 1 => exact ⟨c1, rfl⟩
      | 2 => exact ⟨c2, rfl⟩
      | 3 => exact ⟨c3, rfl⟩
      | j + 4 => exact hall j (by omega)

/-- Settles O16: a digest is 20 bytes, six groups and a group of two. -/
theorem tokenShape : Obligations.TokenShape := by
  intro k
  obtain ⟨hlen, hpad⟩ := deriveAcceptToken_shape k
  obtain ⟨hlast, hall⟩ := base64_alphabet 6 (sha1 (k ++ guid)) (length_sha1 _)
  exact ⟨hlen, hpad, hlast, hall⟩

/-! ### DERIVE_ACCEPT -/

/-- Without a key, or with a key that is not UTF-8, it fails (R112). -/
theorem exec_deriveAccept_failKey {s : State} (h : s.keyPresent = 0 ∨ utf8Valid s.keyBytes = false) :
    exec .deriveAccept s = .next s.failKey := by
  rcases execDeriveAccept_cases s with ⟨-, he⟩ | ⟨hk, hu, -⟩
  · exact he
  · exact (h.elim hk (by simp [hu])).elim

/-- The state a DERIVE_ACCEPT with the token `tk` ends in (R112). The token is a variable, so that no proof computes it. -/
def State.acceptToken (tk : List Byte) (s : State) : State := ((s.writeTok tk).setFlag .tokValid true).succeed

/-- With a key that is UTF-8 it derives the token (R112). -/
theorem exec_deriveAccept_acceptToken {s : State} (hk : s.keyPresent ≠ 0) (hu : utf8Valid s.keyBytes = true) :
    exec .deriveAccept s = .next (s.acceptToken (deriveAcceptToken s.keyBytes)) := by
  rcases execDeriveAccept_cases s with ⟨h, -⟩ | ⟨-, -, he⟩
  · exact (h.elim hk (by simp [hu])).elim
  · exact he

/-- Accepting a token changes TOK, TOK_VALID and ERR only. -/
theorem State.acceptToken_val (s : State) (tk : List Byte) :
    s.acceptToken tk = { s with tok := s.tok.writeBytes 0 tk, status := s.status ||| 0b1000, err := 0 } := rfl

/-- A token of 28 bytes stands in TOK[0..27] afterwards. -/
theorem State.tokBytes_acceptToken (s : State) {tk : List Byte} (h : tk.length = 28) :
    (s.acceptToken tk).tokBytes = tk.map some := by
  have hread := Memory.map_read_writeBytes s.tok 0 tk
  rw [h] at hread
  exact hread

/-- TOK outside a token of 28 bytes is untouched. -/
theorem State.tok_read_acceptToken (s : State) {tk : List Byte} (h : tk.length = 28) {a : Nat} (ha : 28 ≤ a) :
    (s.acceptToken tk).tok.read a = s.tok.read a := by
  simp [State.acceptToken_val, Memory.read_writeBytes, h, Nat.not_lt.mpr ha]

/-- Accepting a token sets TOK_VALID and leaves the other flags. -/
@[simp] theorem State.acceptToken_flag (s : State) (tk : List Byte) (f : StatusFlag) :
    (s.acceptToken tk).flag f = if f = .tokValid then true else s.flag f := by
  simp [State.acceptToken]

/-- Settles O14: by the two ends of the command. -/
theorem deriveAcceptFollowsItsRule : Obligations.DeriveAcceptFollowsItsRule := by
  refine fun s => ⟨fun hk => ?_, fun _ hu => ?_, fun hk hu => ?_⟩
  · exact exec_deriveAccept_failKey (.inl hk)
  · exact exec_deriveAccept_failKey (.inr hu)
  · have hlen := (deriveAcceptToken_shape s.keyBytes).1
    refine ⟨_, exec_deriveAccept_acceptToken (by simp [hk]) hu, s.tokBytes_acceptToken hlen,
      fun _ => s.tok_read_acceptToken hlen, ?_⟩
    rw [State.acceptToken_val]

/-- Settles O15: states that agree on the key take the same branch with the same key bytes. -/
theorem deriveAcceptIsAPureFunctionOfTheKey : Obligations.DeriveAcceptIsAPureFunctionOfTheKey := by
  intro s u hpresent hlen hbytes
  have hkey : s.keyBytes = u.keyBytes := State.keyBytes_congr hlen hbytes
  by_cases h : s.keyPresent = 0 ∨ utf8Valid s.keyBytes = false
  · refine ⟨s.failKey, u.failKey, exec_deriveAccept_failKey h, exec_deriveAccept_failKey ?_, rfl, ?_, fun he => ?_,
      fun f hf => ?_, rfl⟩
    · rwa [← hpresent, ← hkey]
    · simp
    · simp at he
    · simp [hf]
  · obtain ⟨hk, hu⟩ := not_or.mp h
    rw [Bool.not_eq_false] at hu
    have hs := exec_deriveAccept_acceptToken hk hu
    rw [hpresent] at hk
    rw [hkey] at hu hs
    have hv := exec_deriveAccept_acceptToken hk hu
    have htk := (deriveAcceptToken_shape u.keyBytes).1
    generalize deriveAcceptToken u.keyBytes = tk at hs hv htk
    refine ⟨_, _, hs, hv, rfl, ?_, fun _ => ?_, fun f hf => ?_, rfl⟩
    · simp
    · rw [s.tokBytes_acceptToken htk, u.tokBytes_acceptToken htk]
    · simp [hf]

/-! ### UTF-8 -/

/-- One byte for each range of a row, and in it (R101). -/
def fitsRow (r : List (Nat × Nat)) (c : List Byte) : Prop := List.Forall₂ (fun p b => inRange p.1 p.2 b) r c

theorem inRange_self (n : Nat) (b : Byte) : inRange n n b ↔ b.toNat = n := by
  unfold inRange
  omega

/-- A sequence begins with a row exactly when its first bytes fit the row. -/
theorem beginsWith_iff (r : List (Nat × Nat)) (s : List Byte) :
    beginsWith r s = true ↔ fitsRow r (s.take r.length) := by
  induction r generalizing s with
  | nil => simp [beginsWith, fitsRow]
  | cons p r ih =>
    cases s with
    | nil => simp [beginsWith, fitsRow]
    | cons b s => simp [beginsWith, ih, fitsRow, inRange, and_assoc]

/-- A character is a sequence that fits one of the nine rows (R101). -/
theorem utf8Char_iff (c : List Byte) : Utf8Char c ↔ ∃ r ∈ utf8Rows, fitsRow r c := by
  constructor
  · intro h
    cases h with
    | one a ha => exact ⟨utf8Rows[0], List.getElem_mem _, .cons ha .nil⟩
    | two a b ha hb => exact ⟨utf8Rows[1], List.getElem_mem _, .cons ha (.cons hb .nil)⟩
    | threeE0 a b c ha hb hc =>
      exact ⟨utf8Rows[2], List.getElem_mem _, .cons ((inRange_self _ _).mpr ha) (.cons hb (.cons hc .nil))⟩
    | threeE1 a b c ha hb hc => exact ⟨utf8Rows[3], List.getElem_mem _, .cons ha (.cons hb (.cons hc .nil))⟩
    | threeED a b c ha hb hc =>
      exact ⟨utf8Rows[4], List.getElem_mem _, .cons ((inRange_self _ _).mpr ha) (.cons hb (.cons hc .nil))⟩
    | threeEE a b c ha hb hc => exact ⟨utf8Rows[5], List.getElem_mem _, .cons ha (.cons hb (.cons hc .nil))⟩
    | fourF0 a b c d ha hb hc hd =>
      exact ⟨utf8Rows[6], List.getElem_mem _, .cons ((inRange_self _ _).mpr ha) (.cons hb (.cons hc (.cons hd .nil)))⟩
    | fourF1 a b c d ha hb hc hd =>
      exact ⟨utf8Rows[7], List.getElem_mem _, .cons ha (.cons hb (.cons hc (.cons hd .nil)))⟩
    | fourF4 a b c d ha hb hc hd =>
      exact ⟨utf8Rows[8], List.getElem_mem _, .cons ((inRange_self _ _).mpr ha) (.cons hb (.cons hc (.cons hd .nil)))⟩
  · rintro ⟨r, hr, h⟩
    simp only [utf8Rows, List.mem_cons, List.not_mem_nil, or_false] at hr
    rcases hr with rfl | rfl | rfl | rfl | rfl | rfl | rfl | rfl | rfl
    · obtain _ | ⟨ha, _ | _⟩ := h
      exact .one _ ha
    · obtain _ | ⟨ha, _ | ⟨hb, _ | _⟩⟩ := h
      exact .two _ _ ha hb
    · obtain _ | ⟨ha, _ | ⟨hb, _ | ⟨hc, _ | _⟩⟩⟩ := h
      exact .threeE0 _ _ _ ((inRange_self _ _).mp ha) hb hc
    · obtain _ | ⟨ha, _ | ⟨hb, _ | ⟨hc, _ | _⟩⟩⟩ := h
      exact .threeE1 _ _ _ ha hb hc
    · obtain _ | ⟨ha, _ | ⟨hb, _ | ⟨hc, _ | _⟩⟩⟩ := h
      exact .threeED _ _ _ ((inRange_self _ _).mp ha) hb hc
    · obtain _ | ⟨ha, _ | ⟨hb, _ | ⟨hc, _ | _⟩⟩⟩ := h
      exact .threeEE _ _ _ ha hb hc
    · obtain _ | ⟨ha, _ | ⟨hb, _ | ⟨hc, _ | ⟨hd, _ | _⟩⟩⟩⟩ := h
      exact .fourF0 _ _ _ _ ((inRange_self _ _).mp ha) hb hc hd
    · obtain _ | ⟨ha, _ | ⟨hb, _ | ⟨hc, _ | ⟨hd, _ | _⟩⟩⟩⟩ := h
      exact .fourF1 _ _ _ _ ha hb hc hd
    · obtain _ | ⟨ha, _ | ⟨hb, _ | ⟨hc, _ | ⟨hd, _ | _⟩⟩⟩⟩ := h
      exact .fourF4 _ _ _ _ ((inRange_self _ _).mp ha) hb hc hd

/-- No row is empty, and the first bytes of two rows lie in ranges apart from each other. -/
theorem utf8Rows_headsApart : ∀ r ∈ utf8Rows, ∃ p ∈ r.head?, ∀ q ∈ utf8Rows, ∃ p' ∈ q.head?,
    r = q ∨ p.2 < p'.1 ∨ p'.2 < p.1 := by
  decide

/-- A sequence that begins with a row has a first byte, in the row's first range. -/
theorem inRange_head_of_beginsWith {r : List (Nat × Nat)} {s : List Byte} (h : beginsWith r s = true) {p : Nat × Nat}
    (hp : p ∈ r.head?) : ∃ b ∈ s.head?, inRange p.1 p.2 b := by
  match r, s with
  | _ :: r, b :: s =>
    obtain rfl : _ = p := by simpa using hp
    simp [beginsWith] at h
    exact ⟨b, rfl, h.1⟩

/-- A sequence begins with one row at most. -/
theorem beginsWith_unique {r q : List (Nat × Nat)} {s : List Byte} (hr : r ∈ utf8Rows) (hq : q ∈ utf8Rows)
    (hrs : beginsWith r s = true) (hqs : beginsWith q s = true) : r = q := by
  obtain ⟨p, hp, hall⟩ := utf8Rows_headsApart r hr
  obtain ⟨p', hp', h⟩ := hall q hq
  obtain ⟨b, hb, hlo, hhi⟩ := inRange_head_of_beginsWith hrs hp
  obtain ⟨b', hb', hlo', hhi'⟩ := inRange_head_of_beginsWith hqs hp'
  obtain rfl : b = b' := Option.mem_unique hb hb'
  exact h.resolve_right (by omega)

/-- The row the first character matches is the one the sequence begins with. -/
theorem utf8Row_eq_some_iff (s : List Byte) (r : List (Nat × Nat)) :
    utf8Row s = some r ↔ r ∈ utf8Rows ∧ beginsWith r s = true := by
  constructor
  · intro h
    exact ⟨List.mem_of_find?_eq_some h, List.find?_some (p := (beginsWith · s)) h⟩
  · rintro ⟨hr, hs⟩
    cases hq : utf8Row s with
    | none => exact absurd hs (List.find?_eq_none.mp hq r hr)
    | some q =>
      rw [beginsWith_unique (List.mem_of_find?_eq_some hq) hr (List.find?_some (p := (beginsWith · s)) hq) hs]

/-- Taking one character off the front. -/
theorem utf8ValidFrom_succ (n : Nat) (s : List Byte) :
    utf8ValidFrom (n + 1) s = true ↔
      s = [] ∨ ∃ c t, s = c ++ t ∧ Utf8Char c ∧ utf8ValidFrom n t = true := by
  have hrow : utf8ValidFrom (n + 1) s = true ↔
      s = [] ∨ ∃ r, utf8Row s = some r ∧ utf8ValidFrom n (s.drop r.length) = true := by
    rw [utf8ValidFrom]
    cases utf8Row s <;> simp
  simp only [hrow, utf8Row_eq_some_iff, beginsWith_iff, utf8Char_iff]
  refine or_congr_right ⟨?_, ?_⟩
  · rintro ⟨r, ⟨hr, hfit⟩, hv⟩
    exact ⟨_, _, (s.take_append_drop r.length).symm, ⟨r, hr, hfit⟩, hv⟩
  · rintro ⟨c, t, rfl, ⟨r, hr, hfit⟩, hv⟩
    have hlen : r.length = c.length := hfit.length_eq
    exact ⟨r, ⟨hr, by rwa [hlen, List.take_left]⟩, by rwa [hlen, List.drop_left]⟩

theorem Utf8Char.length_pos {c : List Byte} (h : Utf8Char c) : 0 < c.length := by
  cases h <;> simp

/-- With room for a character per byte, the characters are taken off one after the other. -/
theorem utf8ValidFrom_iff {n : Nat} {s : List Byte} (h : s.length ≤ n) :
    utf8ValidFrom n s = true ↔ ∃ cs : List (List Byte), cs.flatten = s ∧ ∀ c ∈ cs, Utf8Char c := by
  induction n generalizing s with
  | zero =>
    obtain rfl : s = [] := List.eq_nil_of_length_eq_zero (by omega)
    exact ⟨fun _ => ⟨[], rfl, by simp⟩, fun _ => rfl⟩
  | succ n ih =>
    rw [utf8ValidFrom_succ]
    constructor
    · rintro (rfl | ⟨c, t, rfl, hc, hv⟩)
      · exact ⟨[], rfl, by simp⟩
      · have := hc.length_pos
        obtain ⟨cs, rfl, hcs⟩ := (ih (by simp at h; omega)).mp hv
        exact ⟨c :: cs, rfl, List.forall_mem_cons.mpr ⟨hc, hcs⟩⟩
    · rintro ⟨_ | ⟨c, cs⟩, rfl, hcs⟩
      · exact .inl rfl
      · obtain ⟨hc, hcs⟩ := List.forall_mem_cons.mp hcs
        have := hc.length_pos
        exact .inr ⟨c, cs.flatten, rfl, hc, (ih (by simp at h ⊢; omega)).mpr ⟨cs, rfl, hcs⟩⟩

/-- Settles O17: a character takes a byte or more, so the fuel is enough. -/
theorem utf8ValidExactlyWhenItSplitsIntoCharacters : Obligations.Utf8ValidExactlyWhenItSplitsIntoCharacters :=
  fun _ => utf8ValidFrom_iff le_rfl

/-! ### SHA-1: the message schedule -/

@[simp] theorem length_sha1Words (M : List Byte) : (sha1Words M).length = 16 := by simp [sha1Words]

@[simp] theorem length_sha1Extend (n : Nat) (ws : List Word32) : (sha1Extend n ws).length = n + ws.length := by
  induction n generalizing ws with
  | zero => simp [sha1Extend]
  | succ n ih => simp [sha1Extend, ih]; omega

/-- The words there already stand behind the new ones. -/
theorem drop_sha1Extend (n : Nat) (ws : List Word32) : (sha1Extend n ws).drop n = ws := by
  induction n generalizing ws with
  | zero => rfl
  | succ n ih => rw [sha1Extend, ← List.tail_drop, ih, List.tail_cons]

/-- A word behind the `n` new ones. -/
theorem getElem?_sha1Extend_add (n k : Nat) (ws : List Word32) : (sha1Extend n ws)[n + k]? = ws[k]? := by
  rw [← List.getElem?_drop, drop_sha1Extend]

/-- Every new word is made of the ones 3, 8, 14 and 16 places before it, which stand behind it (R104). -/
theorem getElem?_sha1Extend (n : Nat) (ws : List Word32) {k : Nat} (hk : k < n) :
    (sha1Extend n ws)[k]? = some (rotl 1 ((sha1Extend n ws).getD (k + 3) 0 ^^^ (sha1Extend n ws).getD (k + 8) 0 ^^^
      (sha1Extend n ws).getD (k + 14) 0 ^^^ (sha1Extend n ws).getD (k + 16) 0)) := by
  induction n generalizing ws with
  | zero => omega
  | succ n ih =>
    rw [sha1Extend]
    rcases Nat.lt_succ_iff_lt_or_eq.mp hk with hlt | rfl
    · exact ih _ hlt
    · have hnew := getElem?_sha1Extend_add k
      simp only [List.getD_eq_getElem?_getD, hnew]
      exact hnew 0 _

@[simp] theorem length_sha1Schedule (M : List Byte) : (sha1Schedule M).length = 80 := by simp [sha1Schedule]

/-- The schedule, newest word first. -/
theorem getElem?_sha1Schedule (M : List Byte) {t : Nat} (ht : t < 80) :
    (sha1Schedule M)[t]? = (sha1Extend 64 (sha1Words M).reverse)[79 - t]? := by
  rw [sha1Schedule, List.getElem?_reverse (by simpa using ht)]
  simp

/-- The first sixteen words are the block's (R104). -/
theorem getElem?_sha1Schedule_of_lt (M : List Byte) {t : Nat} (ht : t < 16) :
    (sha1Schedule M)[t]? = (sha1Words M)[t]? := by
  rw [getElem?_sha1Schedule M (by omega), show 79 - t = 64 + (15 - t) by omega, getElem?_sha1Extend_add,
    List.getElem?_reverse (by simp; omega)]
  congr 1
  simp
  omega

/-- The recurrence of the later words (R104). -/
theorem getElem?_sha1Schedule_of_ge (M : List Byte) {t : Nat} (h16 : 16 ≤ t) (h80 : t < 80) :
    (sha1Schedule M)[t]? = some (((sha1Schedule M).getD (t - 3) 0 ^^^ (sha1Schedule M).getD (t - 8) 0 ^^^
      (sha1Schedule M).getD (t - 14) 0 ^^^ (sha1Schedule M).getD (t - 16) 0).rotateLeft 1) := by
  have hback {j : Nat} (hj : j ≤ t) : (sha1Schedule M).getD (t - j) 0 =
      (sha1Extend 64 (sha1Words M).reverse).getD (79 - t + j) 0 := by
    rw [List.getD_eq_getElem?_getD, getElem?_sha1Schedule M (by omega), ← List.getD_eq_getElem?_getD]
    congr 1
    omega
  rw [getElem?_sha1Schedule M h80, getElem?_sha1Extend _ _ (by omega), hback (by omega), hback (by omega),
    hback (by omega), hback h16, rotl_eq _ _ (by omega)]

/-- Settles O19: the words of the block, then one more by the recurrence 64 times. -/
theorem sha1ScheduleRecurrence : Obligations.Sha1ScheduleRecurrence := by
  intro M
  refine ⟨length_sha1Schedule M, fun t ht => ?_, fun t h16 h80 => ?_⟩
  · rw [getElem?_sha1Schedule_of_lt M ht]
    simp [sha1Words, ht, be_cons, Nat.add_assoc]
  · have hget {j : Nat} (hj : j < 80) : (sha1Schedule M)[j]? = some ((sha1Schedule M).getD j 0) := by
      simp [hj]
    exact ⟨_, _, _, _, hget (by omega), hget (by omega), hget (by omega), hget (by omega),
      getElem?_sha1Schedule_of_ge M h16 h80⟩

/-! ### SHA-1: the compression and the digest -/

/-- The rounds, one for each word in order (R106). -/
theorem sha1Rounds_eq_foldl (t : Nat) (ws : List Word32) (v : Sha1State) :
    sha1Rounds t ws v = (List.range ws.length).foldl (fun v k => sha1Round (t + k) (ws.getD k 0) v) v := by
  induction ws generalizing t v with
  | nil => rfl
  | cons w ws ih =>
    rw [sha1Rounds, ih, List.length_cons, List.range_succ_eq_map, List.foldl_cons, List.foldl_map]
    simp [Nat.add_assoc, Nat.add_comm 1]

/-- The compression adds the outcome of the 80 rounds to the hash value (R106). -/
theorem sha1Compress_eq (h : Sha1State) (M : List Byte) {v : Sha1State}
    (hv : v = (List.range 80).foldl (fun v t => sha1Round t ((sha1Schedule M).getD t 0) v) h) :
    sha1Compress h M = ⟨h.a + v.a, h.b + v.b, h.c + v.c, h.d + v.d, h.e + v.e⟩ := by
  have hr := sha1Rounds_eq_foldl 0 (sha1Schedule M) h
  simp only [Nat.zero_add, length_sha1Schedule] at hr
  rw [hv, ← hr, sha1Compress]

/-- The function of a round: its two parity ranges as one case (R105). -/
theorem sha1F_eq (t : Nat) (b c d : Word32) :
    sha1F t b c d = if t ≤ 19 then (b &&& c) ^^^ (~~~b &&& d)
      else if 40 ≤ t ∧ t ≤ 59 then (b &&& c) ^^^ (b &&& d) ^^^ (c &&& d) else b ^^^ c ^^^ d := by
  unfold sha1F
  split
  · rfl
  · split
    · rw [if_neg (by omega)]
    · split
      · rw [if_pos (by omega)]
      · rw [if_neg (by omega)]

/-- A padded message is whole blocks (R102). -/
theorem length_sha1Pad_mod (m : List Byte) : (sha1Pad m).length % 64 = 0 := by
  simp [sha1Pad, sha1Zeros]
  omega

/-- The big-endian bytes of a value have that value (R13). -/
theorem be_beBytes_mod (n v : Nat) : be (beBytes n v) = v % 256 ^ n := by
  induction n with
  | zero => simp [beBytes, Nat.mod_one]
  | succ n ih =>
    have hcons : beBytes (n + 1) v = BitVec.ofNat 8 (v / 256 ^ n) :: beBytes n v := by
      simp [beBytes, List.range_succ_eq_map, Nat.sub_add_eq, Nat.sub_right_comm n]
    rw [hcons, be_cons, ih, length_beBytes, Nat.mod_pow_succ, BitVec.toNat_ofNat]
    ring

/-- A word's four bytes give the word back (R107). -/
theorem be_beBytes_word (w : Word32) : be (beBytes 4 w.toNat) = w.toNat := by
  rw [be_beBytes_mod]
  exact Nat.mod_eq_of_lt w.isLt

/-- Settles O20: the rounds are a fold over the round numbers, and the padded message is cut into whole blocks. -/
theorem sha1CompressesItsBlocksInOrder : Obligations.Sha1CompressesItsBlocksInOrder := by
  refine ⟨fun h M => sha1Compress_eq h M ?_, fun m => ?_⟩
  · congr 1
    funext v t
    rw [sha1Round, sha1F_eq, rotl_eq _ _ (by omega), rotl_eq _ _ (by omega)]
    rfl
  · have hmod := length_sha1Pad_mod m
    obtain ⟨hflat, hblock⟩ := flatten_sha1BlocksOf ((sha1Pad m).length / 64) (sha1Pad m) (by omega)
    refine ⟨_, hflat, hblock, _, _, _, _, _, (sha1_eq m).trans (sha1Digest_eq _), ?_⟩
    simp only [length_beBytes, be_beBytes_word, true_and]
    exact ⟨rfl, rfl, rfl, rfl, rfl⟩

end Sys2Proof.Machine

/-! SUPPORT. Proofs of the statements about the frame header parser (`41_frame_header.md`): the rules of DECODE_LEN and
PARSE_HEADER (R137, R139), their failures (R136, R144), what the ignored bits and the bytes past the frame end leave
alone (R132, R142), and the round trip of a written header (R145). -/

namespace Sys2Proof.Machine

/-! ### The length decode -/

/-- A frame that begins with two bytes and a length region of their tier, and the record it decodes to (R131). -/
inductive LenHeader : List Byte → LenInfo → Prop where
  | t7 (b0 b1 : Byte) (q : List Byte) (hraw : rawLength b1 < 126) :
      LenHeader (b0 :: b1 :: q) ⟨b0, b1, finBit b0, 0, BitVec.ofNat 64 (rawLength b1), 2⟩
  | t16 (b0 b1 : Byte) (ext q : List Byte) (hraw : rawLength b1 = 126) (hext : ext.length = 2) :
      LenHeader (b0 :: b1 :: (ext ++ q)) ⟨b0, b1, finBit b0, 1, BitVec.ofNat 64 (be ext), 4⟩
  | t64 (b0 b1 : Byte) (ext q : List Byte) (hraw : rawLength b1 = 127) (hext : ext.length = 8) :
      LenHeader (b0 :: b1 :: (ext ++ q)) ⟨b0, b1, finBit b0, 2, BitVec.ofNat 64 (be ext), 10⟩

theorem decodeLen_of_lenHeader {fb : List Byte} {r : LenInfo} (h : LenHeader fb r) : decodeLen fb = .ok r := by
  cases h with
  | t7 b0 b1 q hraw => exact decodeLen_t7 b0 b1 q hraw
  | t16 b0 b1 ext q hraw hext =>
    obtain ⟨x, y, rfl⟩ := List.length_eq_two.mp hext
    exact decodeLen_t16 b0 b1 x y q hraw
  | t64 b0 b1 ext q hraw hext =>
    match ext, hext with
    | [x0, x1, x2, x3, x4, x5, x6, x7], _ => exact decodeLen_t64 b0 b1 x0 x1 x2 x3 x4 x5 x6 x7 q hraw

/-- A frame long enough for its tier's length region begins with one. -/
theorem exists_lenHeader {b0 b1 : Byte} {q : List Byte} (h16 : rawLength b1 = 126 → 2 ≤ q.length)
    (h64 : rawLength b1 = 127 → 8 ≤ q.length) : ∃ r, LenHeader (b0 :: b1 :: q) r := by
  have hlt : rawLength b1 < 128 := by rw [rawLength_eq]; omega
  obtain hraw | hraw | hraw : rawLength b1 < 126 ∨ rawLength b1 = 126 ∨ rawLength b1 = 127 := by omega
  · exact ⟨_, .t7 b0 b1 q hraw⟩
  · rw [← q.take_append_drop 2]
    exact ⟨_, .t16 b0 b1 _ _ hraw (by simpa using h16 hraw)⟩
  · rw [← q.take_append_drop 8]
    exact ⟨_, .t64 b0 b1 _ _ hraw (by simpa using h64 hraw)⟩

/-- The complete set of failures of the length decode (R136). -/
theorem decodeLen_error_iff (fb : List Byte) (e : ErrKind) :
    decodeLen fb = .error e ↔ e = .malformedFrame ∧
      (fb.length < 2 ∨ ((byteAt fb 1).toNat % 128 = 126 ∧ fb.length < 4) ∨
        ((byteAt fb 1).toNat % 128 = 127 ∧ fb.length < 10)) := by
  have hlt : (byteAt fb 1).toNat % 128 < 128 := Nat.mod_lt _ (by omega)
  simp only [decodeLen, rawLength_eq]
  split_ifs <;> simp [eq_comm (a := e)] <;> omega

/-- The length decode succeeds exactly on the frames that begin with a length header. -/
theorem decodeLen_ok_iff (fb : List Byte) (r : LenInfo) : decodeLen fb = .ok r ↔ LenHeader fb r := by
  refine ⟨fun h => ?_, decodeLen_of_lenHeader⟩
  have hlong := mt (decodeLen_error_iff fb .malformedFrame).mpr (by simp [h])
  match fb, hlong with
  | [], hlong | [_], hlong => simp at hlong
  | b0 :: b1 :: q, hlong =>
    simp [byteAt, ← rawLength_eq] at hlong
    obtain ⟨r', hr'⟩ := exists_lenHeader (b0 := b0) (b1 := b1) (q := q) (by omega) (by omega)
    rw [decodeLen_of_lenHeader hr'] at h
    injection h with h
    exact h ▸ hr'

/-- Bytes behind a length header do not matter (R142). -/
theorem decodeLen_append {fb : List Byte} {r : LenInfo} (h : decodeLen fb = .ok r) (tail : List Byte) :
    decodeLen (fb ++ tail) = .ok r := by
  rw [decodeLen_ok_iff] at h ⊢
  cases h with
  | t7 b0 b1 q hraw => exact .t7 b0 b1 _ hraw
  | t16 b0 b1 ext q hraw hext => simpa using LenHeader.t16 b0 b1 ext (q ++ tail) hraw hext
  | t64 b0 b1 ext q hraw hext => simpa using LenHeader.t64 b0 b1 ext (q ++ tail) hraw hext

/-- Two values of byte 0 with one bit 7, and two of byte 1 with one bits 6:0, decode alike but for the two bytes (R132,
R133). -/
theorem decodeLen_ignoredBits {b0 b0' b1 b1' : Byte} {q : List Byte} {r : LenInfo} (h0 : finBit b0 = finBit b0')
    (h1 : rawLength b1 = rawLength b1') (h : decodeLen (b0 :: b1 :: q) = .ok r) :
    decodeLen (b0' :: b1' :: q) = .ok { r with b0 := b0', b1 := b1' } := by
  rw [decodeLen_ok_iff] at h ⊢
  cases h with
  | t7 _ _ _ hraw => rw [h0, h1]; exact .t7 b0' b1' q (h1 ▸ hraw)
  | t16 _ _ ext q hraw hext => rw [h0]; exact .t16 b0' b1' ext q (h1 ▸ hraw) hext
  | t64 _ _ ext q hraw hext => rw [h0]; exact .t64 b0' b1' ext q (h1 ▸ hraw) hext

/-- The mask offset a frame decodes to, by the length value of byte 1 (R29). -/
theorem decodeLen_moff {fb : List Byte} {r : LenInfo} (h : decodeLen fb = .ok r) :
    ((byteAt fb 1).toNat % 128 < 126 ∧ r.moff.toNat = 2) ∨ ((byteAt fb 1).toNat % 128 = 126 ∧ r.moff.toNat = 4) ∨
      ((byteAt fb 1).toNat % 128 = 127 ∧ r.moff.toNat = 10) := by
  rw [← rawLength_eq]
  rw [decodeLen_ok_iff] at h
  cases h with
  | t7 _ _ _ hraw => exact .inl ⟨hraw, rfl⟩
  | t16 _ _ _ _ hraw => exact .inr (.inl ⟨hraw, rfl⟩)
  | t64 _ _ _ _ hraw => exact .inr (.inr ⟨hraw, rfl⟩)

/-- Eight bytes as one 64-bit value, either way (R13, R131). -/
theorem ofNat_be_eight (x0 x1 x2 x3 x4 x5 x6 x7 : Byte) :
    BitVec.ofNat 64 (be [x0, x1, x2, x3, x4, x5, x6, x7]) = x0 ++ x1 ++ x2 ++ x3 ++ x4 ++ x5 ++ x6 ++ x7 := by
  have h : (x0 ++ x1 ++ x2 ++ x3 ++ x4 ++ x5 ++ x6 ++ x7).toNat = be [x0, x1, x2, x3, x4, x5, x6, x7] := by
    iterate 7 rw [toNat_append_eq]
    simp [be]
  rw [← h]
  exact (BitVec.ofNat_toNat 64 _).trans (BitVec.setWidth_eq _)

/-! ### The full parse -/

/-- The four key bytes at offset `m` of a frame (R134). -/
def keyAt (fb : List Byte) (m : Nat) : MaskKey :=
  ⟨byteAt fb m, byteAt fb (m + 1), byteAt fb (m + 2), byteAt fb (m + 3)⟩

theorem keyAt_append_left (fb tail : List Byte) {m : Nat} (h : m + 4 ≤ fb.length) :
    keyAt (fb ++ tail) m = keyAt fb m := by
  simp only [keyAt]
  rw [byteAt_append_left, byteAt_append_left, byteAt_append_left, byteAt_append_left] <;> omega

/-- The key found right behind the bytes `p`. -/
theorem keyAt_length (p : List Byte) (k0 k1 k2 k3 : Byte) (q : List Byte) :
    keyAt (p ++ k0 :: k1 :: k2 :: k3 :: q) p.length = ⟨k0, k1, k2, k3⟩ := by
  simp [keyAt, byteAt]

/-- The key does not depend on the first two bytes. -/
theorem keyAt_cons_cons (b0 b0' b1 b1' : Byte) (q : List Byte) {m : Nat} (h : 2 ≤ m) :
    keyAt (b0 :: b1 :: q) m = keyAt (b0' :: b1' :: q) m := by
  obtain ⟨n, rfl⟩ := Nat.exists_eq_add_of_le' h
  rfl

/-- What a frame parses to, with its length decode known (R134). -/
theorem parseHdr_of_decodeLen {fb : List Byte} {r : LenInfo} (h : decodeLen fb = .ok r) :
    parseHdr fb = if fb.length < r.moff.toNat + 4 then .error .malformedFrame
      else .ok { r with mkey := keyAt fb r.moff.toNat, poff := r.moff + 4 } := by
  rw [parseHdr, h]
  rfl

theorem parseHdr_of_decodeLen_error {fb : List Byte} {e : ErrKind} (h : decodeLen fb = .error e) :
    parseHdr fb = .error e := by
  rw [parseHdr, h]

/-- A parse succeeds exactly with a length header and four bytes behind it, which are the key (R134). -/
theorem parseHdr_ok_iff (fb : List Byte) (r : HdrInfo) :
    parseHdr fb = .ok r ↔ decodeLen fb = .ok r.toLenInfo ∧ r.moff.toNat + 4 ≤ fb.length ∧
      r.mkey = keyAt fb r.moff.toNat ∧ r.poff = r.moff + 4 := by
  constructor
  · intro h
    obtain h' | ⟨r', h', hr'⟩ := parseHdr_cases fb
    · simp [h] at h'
    · obtain rfl : r = r' := by simpa [h] using h'
      exact hr'
  · rintro ⟨hd, hlen, hkey, hpoff⟩
    rw [parseHdr_of_decodeLen hd, if_neg (by omega), ← hkey, ← hpoff]

/-- The complete set of failures of the full parse (R136). -/
theorem parseHdr_error_iff (fb : List Byte) (e : ErrKind) :
    parseHdr fb = .error e ↔ e = .malformedFrame ∧
      (fb.length < 2 ∨ ((byteAt fb 1).toNat % 128 < 126 ∧ fb.length < 6) ∨
        ((byteAt fb 1).toNat % 128 = 126 ∧ fb.length < 8) ∨ ((byteAt fb 1).toNat % 128 = 127 ∧ fb.length < 14)) := by
  cases hd : decodeLen fb with
  | error e' =>
    obtain ⟨rfl, hshort⟩ := (decodeLen_error_iff fb e').mp hd
    rw [parseHdr_of_decodeLen_error hd]
    simp [eq_comm (a := e)]
    omega
  | ok r =>
    have hlong := mt (decodeLen_error_iff fb .malformedFrame).mpr (by simp [hd])
    have hmoff := decodeLen_moff hd
    rw [parseHdr_of_decodeLen hd]
    split_ifs <;> simp [eq_comm (a := e)] at hlong ⊢ <;> omega

/-- Bytes behind a header do not matter (R142). -/
theorem parseHdr_append {fb : List Byte} {r : HdrInfo} (h : parseHdr fb = .ok r) (tail : List Byte) :
    parseHdr (fb ++ tail) = .ok r := by
  obtain ⟨hd, hlen, hkey, hpoff⟩ := (parseHdr_ok_iff fb r).mp h
  refine (parseHdr_ok_iff _ r).mpr ⟨decodeLen_append hd tail, ?_, ?_, hpoff⟩
  · rw [List.length_append]; omega
  · rw [hkey, keyAt_append_left fb tail hlen]

/-- A length header with a key right behind it parses to that key. -/
theorem parseHdr_of_key {p q : List Byte} {k0 k1 k2 k3 : Byte} {r : LenInfo}
    (hd : decodeLen (p ++ k0 :: k1 :: k2 :: k3 :: q) = .ok r) (hp : p.length = r.moff.toNat) :
    parseHdr (p ++ k0 :: k1 :: k2 :: k3 :: q) = .ok { r with mkey := ⟨k0, k1, k2, k3⟩, poff := r.moff + 4 } := by
  refine (parseHdr_ok_iff _ _).mpr ⟨hd, ?_, ?_, rfl⟩
  · simp [hp]
  · rw [← hp, keyAt_length]

/-! ### A written header -/

/-- Byte 1 as a sender writes it: the ignored bit above a value of seven bits. -/
theorem toNat_ignoredBit_or (m : Bool) {v : Nat} (hv : v < 128) :
    ((if m then 0x80 else 0x00 : Byte) ||| BitVec.ofNat 8 v).toNat = (if m then 128 else 0) + v := by
  have hor : 128 + v = 128 ||| v := Nat.two_pow_add_eq_or_of_lt (i := 7) hv 1
  cases m <;> simp [hor, Nat.mod_eq_of_lt (show v < 256 by omega)]

/-- The receiver reads that value of seven bits. -/
theorem rawLength_ignoredBit_or (m : Bool) {v : Nat} (hv : v < 128) :
    rawLength ((if m then 0x80 else 0x00 : Byte) ||| BitVec.ofNat 8 v) = v := by
  rw [rawLength_eq, toNat_ignoredBit_or m hv]
  cases m <;> simp <;> omega

/-- A length header written by bytes 0 and 1 and a length region, with the key and anything behind it, parses to the
record of the length header and the key. -/
theorem parseHdr_wire {b0 b1 : Byte} {ext : List Byte} {r : LenInfo} (k : MaskKey) (tail : List Byte)
    (hd : LenHeader (b0 :: b1 :: (ext ++ (k.bytes ++ tail))) r) (hext : ext.length + 2 = r.moff.toNat) :
    parseHdr ([b0, b1] ++ ext ++ k.bytes ++ tail) = .ok { r with mkey := k, poff := r.moff + 4 } := by
  have hd' := decodeLen_of_lenHeader hd
  have h := parseHdr_of_key (p := [b0, b1] ++ ext) (q := tail) (by simpa [MaskKey.bytes] using hd')
    (by simpa using hext)
  simpa [MaskKey.bytes] using h

/-- Settles O26: in each tier the written bytes are a length header of that tier, and the key stands behind it. -/
theorem wireHeaderParsesBack : Obligations.WireHeaderParsesBack := by
  intro tier b0 m len k tail hadm
  rcases hadm with ⟨rfl, hlen⟩ | ⟨rfl, hlen⟩ | ⟨rfl, hlen⟩
  · have hraw := rawLength_ignoredBit_or m (show len < 128 by omega)
    refine ⟨_, parseHdr_wire (ext := []) k tail (.t7 b0 _ _ (by omega)) rfl, rfl,
      toNat_ignoredBit_or m (by omega), finBit_toNat b0, rfl, ?_, rfl, rfl, rfl, rfl⟩
    rw [BitVec.toNat_ofNat, hraw]
    omega
  · refine ⟨_, parseHdr_wire (ext := beBytes 2 len) k tail
      (.t16 b0 _ _ _ (rawLength_ignoredBit_or m (v := 126) (by omega)) (length_beBytes 2 len)) rfl, rfl,
      toNat_ignoredBit_or m (v := 126) (by omega), finBit_toNat b0, rfl, ?_, rfl, rfl, rfl, rfl⟩
    rw [BitVec.toNat_ofNat, be_beBytes_mod]
    omega
  · refine ⟨_, parseHdr_wire (ext := beBytes 8 len) k tail
      (.t64 b0 _ _ _ (rawLength_ignoredBit_or m (v := 127) (by omega)) (length_beBytes 8 len)) rfl, rfl,
      toNat_ignoredBit_or m (v := 127) (by omega), finBit_toNat b0, rfl, ?_, rfl, rfl, rfl, rfl⟩
    rw [BitVec.toNat_ofNat, be_beBytes_mod]
    omega

/-! ### The commands -/

theorem exec_decodeLen_error {s : State} (h : decodeLen s.frame = .error .malformedFrame) :
    exec .decodeLen s = .next { s with status := s.status &&& 0b1100, err := 1 } := by
  obtain ⟨-, he⟩ | ⟨r', hr', -⟩ := execDecodeLen_cases s
  · rw [State.failFrame_val] at he; exact he
  · simp [h] at hr'

theorem exec_decodeLen_ok {s : State} {r : LenInfo} (h : decodeLen s.frame = .ok r) :
    exec .decodeLen s = .next { s with
      hdrB0 := r.b0, hdrB1 := r.b1, hdrFin := r.fin, hdrLtier := r.tier, hdrPlen := r.plen, hdrMoff := r.moff,
      status := (s.status ||| 0b0001) &&& 0b1101, err := 0 } := by
  obtain ⟨h', -⟩ | ⟨r', hr', he⟩ := execDecodeLen_cases s
  · simp [h] at h'
  · obtain rfl : r = r' := by simpa [h] using hr'
    exact he

theorem exec_parseHeader_error {s : State} (h : parseHdr s.frame = .error .malformedFrame) :
    exec .parseHeader s = .next { s with status := s.status &&& 0b1100, err := 1 } := by
  obtain ⟨-, he⟩ | ⟨r', hr', -⟩ := execParseHeader_cases s
  · rw [State.failFrame_val] at he; exact he
  · simp [h] at hr'

theorem exec_parseHeader_ok {s : State} {r : HdrInfo} (h : parseHdr s.frame = .ok r) :
    exec .parseHeader s = .next { s with
      hdrB0 := r.b0, hdrB1 := r.b1, hdrFin := r.fin, hdrLtier := r.tier, hdrPlen := r.plen, hdrMoff := r.moff,
      mkey := r.mkey, hdrPoff := r.poff, status := s.status ||| 0b0011, err := 0 } := by
  obtain ⟨h', -⟩ | ⟨r', hr', he⟩ := execParseHeader_cases s
  · simp [h] at h'
  · obtain rfl : r = r' := by simpa [h] using hr'
    rw [State.latchHdr_val] at he
    exact he

/-- Settles O22: a long enough frame begins with a length header of its tier, and a shorter one fails. -/
theorem decodeLenFollowsItsRule : Obligations.DecodeLenFollowsItsRule := by
  intro s b0 b1 r
  refine ⟨fun hn => exec_decodeLen_error ((decodeLen_error_iff _ _).mpr ⟨rfl, .inl hn⟩), fun hfb => ?_⟩
  refine ⟨fun h7 => ?_, fun h16 hr => ?_, fun h16 x y q hr => ?_, fun h64 hr => ?_,
    fun h64 x0 x1 x2 x3 x4 x5 x6 x7 q hr => ?_⟩
  · rw [← rawLength_eq] at h7 ⊢
    rw [exec_decodeLen_ok (hfb ▸ decodeLen_t7 b0 b1 r h7), finBit_eq]
  · have hn : (b0 :: b1 :: r).length < 4 := by simp; omega
    exact exec_decodeLen_error (hfb ▸ (decodeLen_error_iff _ _).mpr ⟨rfl, .inr (.inl ⟨h16, hn⟩)⟩)
  · subst hr
    rw [← rawLength_eq] at h16
    rw [exec_decodeLen_ok (hfb ▸ decodeLen_t16 b0 b1 x y q h16), finBit_eq]
    simp [be_cons]
  · have hn : (b0 :: b1 :: r).length < 10 := by simp; omega
    exact exec_decodeLen_error (hfb ▸ (decodeLen_error_iff _ _).mpr ⟨rfl, .inr (.inr ⟨h64, hn⟩)⟩)
  · subst hr
    rw [← rawLength_eq] at h64
    rw [exec_decodeLen_ok (hfb ▸ decodeLen_t64 b0 b1 x0 x1 x2 x3 x4 x5 x6 x7 q h64), finBit_eq, ofNat_be_eight]

/-- Settles O23: without a whole length header and key it fails, and a key behind the length header is latched. -/
theorem parseHeaderFollowsItsRule : Obligations.ParseHeaderFollowsItsRule := by
  refine fun s => ⟨fun e he => ?_, fun r hr => ⟨fun hshort => ?_, fun p q k0 k1 k2 k3 hfb hp => ?_⟩⟩
  · obtain rfl := decodeLen_error he
    exact exec_parseHeader_error (parseHdr_of_decodeLen_error he)
  · exact exec_parseHeader_error (by rw [parseHdr_of_decodeLen hr, if_pos hshort])
  · rw [exec_parseHeader_ok (hfb ▸ parseHdr_of_key (hfb ▸ hr) hp), BitVec.ofNat_add, BitVec.ofNat_toNat,
      BitVec.setWidth_eq]
    rfl

/-- Settles O24: by the failure sets of the two functions. -/
theorem malformedFrameExactlyWhenShort : Obligations.MalformedFrameExactlyWhenShort :=
  fun fb => ⟨decodeLen_error_iff fb, parseHdr_error_iff fb⟩

/-- Settles O27: the bits that matter fix the length decode and its failure, and the key lies behind the two bytes. -/
theorem ignoredHeaderBitsAffectNothing : Obligations.IgnoredHeaderBitsAffectNothing := by
  intro b0 b0' b1 b1' q h0 h1
  have hfin : finBit b0 = finBit b0' := by rw [finBit_eq, finBit_eq, h0]
  have hraw : rawLength b1 = rawLength b1' := by rw [rawLength_eq, rawLength_eq, h1]
  refine ⟨fun r h => ?_, fun r h => ⟨decodeLen_ignoredBits hfin hraw h, ?_⟩, fun e h => ?_⟩
  · obtain ⟨hd, hlen, hkey, hpoff⟩ := (parseHdr_ok_iff _ r).mp h
    have hmoff := decodeLen_moff hd
    refine (parseHdr_ok_iff _ _).mpr ⟨decodeLen_ignoredBits hfin hraw hd, hlen, ?_, hpoff⟩
    rw [hkey]
    exact keyAt_cons_cons b0 b0' b1 b1' q (by omega)
  · obtain ⟨hfinEq, -⟩ := decodeLen_agrees h
    have hb0 : r.b0 = b0 := by
      rw [decodeLen_ok_iff] at h
      cases h <;> rfl
    rw [hfinEq, hb0, finBit_toNat]
  · rw [decodeLen_error_iff] at h ⊢
    simpa [byteAt, h1] using h

/-! ### A second try after a failure -/

/-- The flags a failed frame command clears do not change how DECODE_LEN or PARSE_HEADER ends after it (R144). -/
theorem exec_failFrame {i : Instr} (hi : i = .decodeLen ∨ i = .parseHeader) (e : ErrKind) (s : State) :
    exec i (s.failFrame e) = exec i s := by
  have hclear : ∀ x : BitVec 4, (x &&& 0b1100) &&& 0b1100 = x &&& 0b1100 := by decide
  have hlen : ∀ x : BitVec 4, ((x &&& 0b1100) ||| 0b0001) &&& 0b1101 = (x ||| 0b0001) &&& 0b1101 := by decide
  have hhdr : ∀ x : BitVec 4, (x &&& 0b1100) ||| 0b0011 = x ||| 0b0011 := by decide
  have hframe : (s.failFrame e).frame = s.frame := rfl
  rcases hi with rfl | rfl
  · cases h : decodeLen s.frame with
    | error e' =>
      obtain rfl := decodeLen_error h
      rw [exec_decodeLen_error h, exec_decodeLen_error (hframe ▸ h)]
      simp only [State.failFrame_val, hclear]
    | ok r =>
      rw [exec_decodeLen_ok h, exec_decodeLen_ok (hframe ▸ h)]
      simp only [State.failFrame_val, hlen]
  · cases h : parseHdr s.frame with
    | error e' =>
      obtain rfl := parseHdr_error h
      rw [exec_parseHeader_error h, exec_parseHeader_error (hframe ▸ h)]
      simp only [State.failFrame_val, hclear]
    | ok r =>
      rw [exec_parseHeader_ok h, exec_parseHeader_ok (hframe ▸ h)]
      simp only [State.failFrame_val, hhdr]

/-- A DECODE_LEN or PARSE_HEADER that ends with an error ends as `failFrame` says (R144). -/
theorem eq_failFrame_of_exec {i : Instr} {s t : State} (hi : i = .decodeLen ∨ i = .parseHeader)
    (h : exec i s = .next t) (he : t.err ≠ 0) : t = s.failFrame .malformedFrame := by
  rw [State.failFrame_val]
  have hc := exec_cases h
  rcases hi with rfl | rfl
  · cases hc with
    | noLen => rfl
    | len => exact absurd rfl he
  · cases hc with
    | noHdr => rfl
    | hdr => exact absurd rfl he

/-- Settles O28: the state after the failure is the state before it with the flags cleared, whatever FB then holds. -/
theorem retryEndsAsTheFirstTry : Obligations.RetryEndsAsTheFirstTry := by
  intro i s t hi h he
  obtain rfl := eq_failFrame_of_exec hi h he
  refine ⟨?_, fun fb n => exec_failFrame hi .malformedFrame { s with fb := fb, fbLen := n }⟩
  rw [State.failFrame_val]

/-! ### Bytes past the frame end -/

/-- A state with another frame buffer. -/
def State.withFrame (fb : Memory) (n : Nat) (s : State) : State := { s with fb := fb, fbLen := n }

/-- More bytes behind the frame make it longer. -/
theorem State.le_of_frame_append {s u : State} {tail : List Byte} (hf : u.frame = s.frame ++ tail) :
    s.fbLen ≤ u.fbLen := by
  have hlen := congrArg List.length hf
  simp only [List.length_append, State.length_frame] at hlen
  omega

/-- A payload inside the frame does not depend on bytes behind the frame. -/
theorem State.payload_append {s u : State} {tail : List Byte} (hf : u.frame = s.frame ++ tail) {poff plen : Nat}
    (h : poff + plen ≤ s.fbLen) (mk : MaskKey) : u.payload poff plen mk = s.payload poff plen mk := by
  refine List.map_congr_left fun i hi => ?_
  have hi := List.mem_range.mp hi
  rw [hf, byteAt_append_left _ _ (by rw [State.length_frame]; omega)]

theorem exec_unmask_ok {s : State} {p : List Byte} (hv : s.flag .hdrValid = true)
    (h : s.hdrPoff.toNat + s.hdrPlen.toNat ≤ s.fbLen) (hp : s.payload s.hdrPoff.toNat s.hdrPlen.toNat s.mkey = p) :
    exec .unmask s = .next { s with out := s.out.writeBytes 0 p, outLen := s.hdrPlen.toNat, err := 0 } := by
  obtain ⟨hv', -⟩ | ⟨-, h', -⟩ | ⟨-, -, he⟩ := execUnmask_cases s
  · simp [hv] at hv'
  · omega
  · refine he.trans ?_
    simp [State.writeOut, State.setErr, ← hp]

theorem exec_ingest_overflow {s : State} {r : HdrInfo} (hr : parseHdr s.frame = .ok r)
    (h : r.poff.toNat + r.plen.toNat ≤ s.fbLen) (ha : s.params.accCap < s.accLen + r.plen.toNat) :
    exec .ingest s = .next (s.failFrame .accOverflow) := by
  obtain ⟨hr', -⟩ | ⟨r', hr', hc⟩ := execIngest_cases s
  · simp [hr] at hr'
  · obtain rfl : r = r' := by simpa [hr] using hr'
    obtain ⟨h', -⟩ | ⟨-, -, he⟩ | ⟨-, ha', -⟩ := hc
    · omega
    · exact he
    · omega

theorem exec_ingest_ok {s : State} {r : HdrInfo} (hr : parseHdr s.frame = .ok r)
    (h : r.poff.toNat + r.plen.toNat ≤ s.fbLen) (ha : s.accLen + r.plen.toNat ≤ s.params.accCap) :
    exec .ingest s = .next (s.ingested r) := by
  obtain ⟨hr', -⟩ | ⟨r', hr', hc⟩ := execIngest_cases s
  · simp [hr] at hr'
  · obtain rfl : r = r' := by simpa [hr] using hr'
    obtain ⟨h', -⟩ | ⟨-, ha', -⟩ | ⟨-, -, he⟩ := hc
    · omega
    · omega
    · rw [← State.ingested_val]; exact he

/-- Settles O34: what a command reads of the frame lies inside it, so every success, and ACC_OVERFLOW, is the same. -/
theorem bytesPastTheFrameEndAreNotRead : Obligations.BytesPastTheFrameEndAreNotRead := by
  intro i s t fb n tail h he hf
  change (s.withFrame fb n).frame = s.frame ++ tail at hf
  change exec i (s.withFrame fb n) = .next (t.withFrame fb n)
  have hfb := State.le_of_frame_append hf
  cases exec_cases h with
  | noToken => simp at he
  | token _ tk hp hu ht =>
    have hkey : (s.withFrame fb n).keyBytes = s.keyBytes := rfl
    have hcmd := exec_deriveAccept_acceptToken (s := s.withFrame fb n) hp hu
    rw [hkey, ← ht] at hcmd
    exact hcmd
  | noLen => simp at he
  | len _ r hr => exact exec_decodeLen_ok (by rw [hf]; exact decodeLen_append hr tail)
  | noHdr => simp at he
  | hdr _ r hr => exact exec_parseHeader_ok (by rw [hf]; exact parseHdr_append hr tail)
  | noLatch => simp at he
  | truncated => simp at he
  | unmasked _ hv hle => exact exec_unmask_ok hv (hle.trans hfb) (State.payload_append hf hle s.mkey)
  | ingestShort => simp at he
  | ingestTruncated => simp at he
  | ingestOverflow _ r hr hle ha =>
    rw [exec_ingest_overflow (by rw [hf]; exact parseHdr_append hr tail) (hle.trans hfb) ha, State.failFrame_val]
    rfl
  | ingested _ r hr hle ha =>
    rw [exec_ingest_ok (by rw [hf]; exact parseHdr_append hr tail) (hle.trans hfb) ha]
    simp only [State.ingested, State.payload_append hf hle]
    rfl
  | cleared => rfl

end Sys2Proof.Machine

/-! SUPPORT. Proofs of the statements about the payload unmasker (`42_unmask.md`): the rule of UNMASK (R162) and the
inverse of masking (R163). -/

namespace Sys2Proof.Machine

/-! ### UNMASK -/

theorem exec_unmask_noHeader {s : State} (hv : s.flag .hdrValid = false) :
    exec .unmask s = .next (s.raise .noHeader) := by
  obtain ⟨-, he⟩ | ⟨hv', -⟩ | ⟨hv', -⟩ := execUnmask_cases s
  · exact he
  · simp [hv] at hv'
  · simp [hv] at hv'

theorem exec_unmask_truncated {s : State} (hv : s.flag .hdrValid = true)
    (h : s.fbLen < s.hdrPoff.toNat + s.hdrPlen.toNat) : exec .unmask s = .next (s.raise .truncatedPayload) := by
  obtain ⟨hv', -⟩ | ⟨-, -, he⟩ | ⟨-, h', -⟩ := execUnmask_cases s
  · simp [hv] at hv'
  · exact he
  · omega

/-- What a payload written from index 0 leaves in a buffer below its length (R161, R162). -/
theorem State.read_writeBytes_payload (s : State) {m : Memory} {poff plen i : Nat} (k : MaskKey)
    (h : poff + plen ≤ s.fbLen) (hi : i < plen) :
    (m.writeBytes 0 (s.payload poff plen k)).read i = some (s.fbByte (poff + i) ^^^ k.byteFor i) := by
  rw [Memory.read_writeBytes, if_pos (by simpa using hi)]
  exact s.getElem?_payload k h hi

/-- A payload written from index 0 leaves the bytes at its length and beyond (R162). -/
theorem State.read_writeBytes_payload_ge (s : State) {m : Memory} {poff plen a : Nat} (k : MaskKey) (ha : plen ≤ a) :
    (m.writeBytes 0 (s.payload poff plen k)).read a = m.read a := by
  rw [Memory.read_writeBytes, if_neg (by simpa using ha)]

/-- Settles O29: the three cases of UNMASK, the last with the payload written from index 0 of OUT. -/
theorem unmaskFollowsItsRule : Obligations.UnmaskFollowsItsRule := by
  intro s
  refine ⟨exec_unmask_noHeader, exec_unmask_truncated, fun hv h => ?_⟩
  refine ⟨_, exec_unmask_ok hv h rfl, rfl, fun i hi => ?_, fun a ha => ?_⟩
  · rw [← MaskKey.byteFor_eq]
    exact s.read_writeBytes_payload s.mkey h hi
  · exact s.read_writeBytes_payload_ge s.mkey ha

/-! ### Masking -/

@[simp] theorem length_maskBytes (k : MaskKey) (bs : List Byte) : (maskBytes k bs).length = bs.length := by
  simp [maskBytes]

@[simp] theorem getElem?_maskBytes (k : MaskKey) (bs : List Byte) (i : Nat) :
    (maskBytes k bs)[i]? = bs[i]?.map (· ^^^ k.byteFor i) := by
  simp [maskBytes]

/-- Masking is its own inverse: `x xor m xor m = x` byte by byte (R163). -/
theorem maskBytes_maskBytes (k : MaskKey) (bs : List Byte) : maskBytes k (maskBytes k bs) = bs := by
  refine List.ext_getElem? fun i => ?_
  cases h : bs[i]? with
  | none => simp [h]
  | some b => simp [h]

/-- Unmasking bytes that stand behind a header and before a tail is masking them (R161, R163). -/
theorem unmaskFn_append (hdr bs tail : List Byte) (k : MaskKey) :
    unmaskFn (hdr ++ bs ++ tail) hdr.length bs.length k = .ok (maskBytes k bs) := by
  rw [unmaskFn_ok k (by simp), List.append_assoc]
  congr 1
  refine List.ext_getElem? fun i => ?_
  rw [getElem?_maskBytes]
  by_cases hi : i < bs.length
  · have hbyte : byteAt bs i = bs[i] := byteAt_of_getElem? (List.getElem?_eq_getElem hi)
    simp [hi, byteAt_append_right, byteAt_append_left, hbyte]
  · simp [hi]

/-- Settles O31: the masked payload is unmasked by masking it again. -/
theorem unmaskInvertsMask : Obligations.UnmaskInvertsMask := by
  intro hdr p tail k
  refine ⟨?_, maskBytes_maskBytes k p⟩
  have h := unmaskFn_append hdr (maskBytes k p) tail k
  rwa [length_maskBytes, maskBytes_maskBytes] at h

end Sys2Proof.Machine

/-! SUPPORT. Proofs of the statements about the reassembly state machine (`43_reassembly.md`): the rules of INGEST and
CLEAR_ACC (R181, R184, R190) and its transitions (R186). -/

namespace Sys2Proof.Machine

/-! ### INGEST -/

theorem exec_ingest_short {s : State} (hr : parseHdr s.frame = .error .malformedFrame) :
    exec .ingest s = .next (s.failFrame .malformedFrame) := by
  obtain ⟨-, he⟩ | ⟨r, hr', -⟩ := execIngest_cases s
  · exact he
  · simp [hr] at hr'

theorem exec_ingest_truncated {s : State} {r : HdrInfo} (hr : parseHdr s.frame = .ok r)
    (h : s.fbLen < r.poff.toNat + r.plen.toNat) : exec .ingest s = .next (s.failFrame .truncatedPayload) := by
  obtain ⟨hr', -⟩ | ⟨r', hr', hc⟩ := execIngest_cases s
  · simp [hr] at hr'
  · obtain rfl : r = r' := by simpa [hr] using hr'
    obtain ⟨-, he⟩ | ⟨h', -⟩ | ⟨h', -⟩ := hc
    · exact he
    · omega
    · omega

/-- What a payload written from index `j` on leaves there (R161, R181). -/
theorem State.read_writeBytes_payload_add (s : State) {m : Memory} {poff plen i : Nat} (j : Nat) (k : MaskKey)
    (h : poff + plen ≤ s.fbLen) (hi : i < plen) :
    (m.writeBytes j (s.payload poff plen k)).read (j + i) = some (s.fbByte (poff + i) ^^^ k.byteFor i) := by
  rw [Memory.read_writeBytes, if_pos (by simpa using hi), Nat.add_sub_cancel_left]
  exact s.getElem?_payload k h hi

/-- A payload written from index `j` on leaves the bytes before and behind it (R181). -/
theorem State.read_writeBytes_payload_outside (s : State) {m : Memory} {poff plen j a : Nat} (k : MaskKey)
    (ha : a < j ∨ j + plen ≤ a) : (m.writeBytes j (s.payload poff plen k)).read a = m.read a := by
  rw [Memory.read_writeBytes, State.length_payload, if_neg (by omega)]

/-- Settles O32: the cases of INGEST in their order, the last with the payload written to OUT from 0 and to ACC from
ACC_LEN. -/
theorem ingestFollowsItsRule : Obligations.IngestFollowsItsRule := by
  refine fun s => ⟨fun e he => ?_, fun r hr => ⟨fun h => ?_, fun h ha => ?_, fun h ha => ?_⟩⟩
  · obtain rfl := parseHdr_error he
    rw [exec_ingest_short he, State.failFrame_val]
    rfl
  · rw [exec_ingest_truncated hr h, State.failFrame_val]
    rfl
  · rw [exec_ingest_overflow hr h ha, State.failFrame_val]
    rfl
  · refine ⟨_, exec_ingest_ok hr h ha, rfl, fun i hi => ⟨_, rfl, ?_⟩, fun a h' => ?_, fun a h' => ?_⟩
    · rw [← MaskKey.byteFor_eq]
      exact ⟨s.read_writeBytes_payload r.mkey h hi, s.read_writeBytes_payload_add s.accLen r.mkey h hi⟩
    · exact s.read_writeBytes_payload_ge r.mkey h'
    · exact s.read_writeBytes_payload_outside r.mkey h'

/-! ### The transitions -/

/-- No error code is the code of success (R201). -/
theorem ErrKind.code_ne_zero (e : ErrKind) : e.code ≠ 0 := by cases e <;> decide

/-- INGEST fails as the other frame commands do, or takes in the payload of a header that parses (R181, R182). -/
theorem ingest_fails_or_ingests {s t : State} (h : exec .ingest s = .next t) :
    (∃ e, t = s.failFrame e) ∨ ∃ r, parseHdr s.frame = .ok r ∧ r.poff.toNat + r.plen.toNat ≤ s.fbLen ∧
      s.accLen + r.plen.toNat ≤ s.params.accCap ∧ t = s.ingested r := by
  cases exec_cases h with
  | ingestShort => exact .inl ⟨.malformedFrame, (s.failFrame_val .malformedFrame).symm⟩
  | ingestTruncated => exact .inl ⟨.truncatedPayload, (s.failFrame_val .truncatedPayload).symm⟩
  | ingestOverflow => exact .inl ⟨.accOverflow, (s.failFrame_val .accOverflow).symm⟩
  | ingested _ r hr hle ha => exact .inr ⟨r, hr, hle, ha, rfl⟩

/-- The payload of an INGEST that succeeds (R187). -/
theorem State.ingestPayload_of_parseHdr {s : State} {r : HdrInfo} (hr : parseHdr s.frame = .ok r)
    (h : r.poff.toNat + r.plen.toNat ≤ s.fbLen) (ha : s.accLen + r.plen.toNat ≤ s.params.accCap) :
    s.ingestPayload = s.payload r.poff.toNat r.plen.toNat r.mkey := by
  have hle : r.poff.toNat + r.plen.toNat ≤ s.frame.length := by rwa [State.length_frame]
  simp only [State.ingestPayload, hr, unmaskFn_ok r.mkey hle, gt_iff_lt, if_neg (Nat.not_lt.mpr ha)]
  rfl

/-- FIN of a parsed header is bit 7 of FB[0] (R132). -/
theorem State.fin_eq_one_iff {s : State} {r : HdrInfo} (hr : parseHdr s.frame = .ok r) :
    r.fin = 1 ↔ 128 ≤ (s.fbByte 0).toNat := by
  obtain ⟨hd, -⟩ := (parseHdr_ok_iff _ r).mp hr
  obtain h' | ⟨r', hd', hlen, -, hb0, -, hfin, -⟩ := decodeLen_cases s.frame
  · simp [hd] at h'
  · obtain rfl : r.toLenInfo = r' := by simpa [hd] using hd'
    rw [hfin, hb0, s.byteAt_frame (by simp at hlen; omega), ← BitVec.toNat_inj, finBit_toNat]
    have hlt := (s.fbByte 0).isLt
    simp
    omega

/-- COMPLETE after a successful INGEST is FIN (R181). -/
theorem State.flag_complete_ingested (s : State) (r : HdrInfo) : (s.ingested r).flag .complete = (r.fin == 1) := by
  rw [← State.ingested_val]
  simp

/-- A failing frame command keeps COMPLETE (R203). -/
theorem State.flag_complete_failFrame (s : State) (e : ErrKind) :
    (s.failFrame e).flag .complete = s.flag .complete := by
  simp

/-- A command other than INGEST and CLEAR_ACC changes neither the message nor COMPLETE (R186). -/
theorem exec_keeps_reassembly {i : Instr} {s t : State} (hi : i ≠ .ingest) (hc : i ≠ .clearAcc)
    (h : exec i s = .next t) : t.accBytes = s.accBytes ∧ t.flag .complete = s.flag .complete := by
  cases exec_cases h with
  | noToken | token | noLen | len | noHdr | hdr => exact ⟨rfl, by simp [State.flag, StatusFlag.bit]⟩
  | noLatch | truncated | unmasked => exact ⟨rfl, rfl⟩
  | ingestShort | ingestTruncated | ingestOverflow | ingested => exact absurd rfl hi
  | cleared => exact absurd rfl hc

@[simp] theorem State.resetBlock_status (s : State) : s.resetBlock.status = 0 := rfl

/-- Settles O35: INGEST by its two ends, CLEAR_ACC and reset by what they set, the other commands by their effects. -/
theorem reassemblyTransitions : Obligations.ReassemblyTransitions := by
  refine ⟨fun s t h => ?_, fun s t h => ?_, fun s t rest hp h => ?_, fun i s t => exec_keeps_reassembly⟩
  · obtain ⟨e, rfl⟩ | ⟨r, hr, hle, ha, rfl⟩ := ingest_fails_or_ingests h
    · exact ⟨fun he => absurd he e.code_ne_zero, fun _ => ⟨rfl, s.flag_complete_failFrame e⟩⟩
    · refine ⟨fun _ => ⟨?_, ?_⟩, fun he => absurd rfl he⟩
      · rw [State.accBytes_ingested, State.ingestPayload_of_parseHdr hr hle ha]
      · change (s.ingested r).flag .complete = true ↔ _
        rw [State.flag_complete_ingested, beq_iff_eq]
        exact State.fin_eq_one_iff hr
  · cases exec_cases h with
    | cleared => exact ⟨rfl, by simp⟩
  · rw [step_of_pending hp] at h
    injection h with h
    subst h
    exact ⟨rfl, by simp⟩

/-! ### CLEAR_ACC -/

/-- Settles O36: CLEAR_ACC has one end, and no index lies below an ACC_LEN of 0. -/
theorem clearAccFollowsItsRule : Obligations.ClearAccFollowsItsRule := fun s =>
  ⟨{ s with accLen := 0, status := s.status &&& 0b1011, err := 0 }, rfl, rfl, fun i => by
    simp [State.specifiedByte, State.validTo]⟩

end Sys2Proof.Machine

/-! SUPPORT. Proofs of the statements about exceptions (`60_exceptions.md`): the state a failing command changes (R203). -/

namespace Sys2Proof.Machine

/-! ### The state a failing command changes -/

/-- A failing DERIVE_ACCEPT ends as `failKey` says (R112, R203). -/
theorem eq_failKey_of_exec {s t : State} (h : exec .deriveAccept s = .next t) (he : t.err ≠ 0) : t = s.failKey := by
  cases exec_cases h with
  | noToken => rw [State.failKey_val]
  | token => exact absurd rfl he

/-- A failing DECODE_LEN, PARSE_HEADER or INGEST ends as `failFrame` says, whatever the error (R137, R139, R182, R203). -/
theorem eq_failFrame_of_frameCommand {i : Instr} {s t : State} (hi : i = .decodeLen ∨ i = .parseHeader ∨ i = .ingest)
    (h : exec i s = .next t) (he : t.err ≠ 0) : ∃ e, t = s.failFrame e := by
  rcases hi with rfl | rfl | rfl
  · exact ⟨_, eq_failFrame_of_exec (.inl rfl) h he⟩
  · exact ⟨_, eq_failFrame_of_exec (.inr rfl) h he⟩
  · obtain hfail | ⟨r, -, -, -, rfl⟩ := ingest_fails_or_ingests h
    · exact hfail
    · exact absurd rfl he

/-- A failing UNMASK raises its error and does nothing else (R162, R203). -/
theorem eq_raise_of_exec_unmask {s t : State} (h : exec .unmask s = .next t) (he : t.err ≠ 0) : ∃ e, t = s.raise e := by
  cases exec_cases h with
  | noLatch => exact ⟨.noHeader, rfl⟩
  | truncated => exact ⟨.truncatedPayload, rfl⟩
  | unmasked => exact absurd rfl he

/-- CLEAR_ACC has no failure (R184, R203). -/
theorem clearAcc_err {s t : State} (h : exec .clearAcc s = .next t) : t.err = 0 := by
  cases exec_cases h with
  | cleared => rfl

/-- A step that issues a word that is no command stores it, raises ILLEGAL_CMD and changes no other register (R85). -/
theorem step_of_decode_error {s : State} {rest : List HostEvent} {w : Byte} {r : CmdReject}
    (hp : s.pending = .access (.write .reg 0 w.toNat) :: rest) (hd : decode w = .error r) :
    step s = .next { s with pending := rest, cmd := w, err := 4, writes := s.writes + 1 } := by
  rw [step_writeReg hp, hostWriteReg_cmd, issue_of_decode_error hd]
  rfl

/-- Settles O40: command by command, a failure ends as `failKey`, `failFrame` or `raise` says. -/
theorem failingCommandsChangeOnlyTheListedState : Obligations.FailingCommandsChangeOnlyTheListedState := by
  refine ⟨fun s t h he => ?_, fun i s t hi h he => ?_, fun s t h he => ?_, fun s t => clearAcc_err,
    fun s t rest w hp hno h => ?_⟩
  · rw [eq_failKey_of_exec h he, State.failKey_val]
  · obtain ⟨e, rfl⟩ := eq_failFrame_of_frameCommand hi h he
    rw [State.failFrame_val]
  · obtain ⟨e, rfl⟩ := eq_raise_of_exec_unmask h he
    rfl
  · cases hd : decode w with
    | ok i => exact absurd hd (hno i)
    | error r =>
      rw [step_of_decode_error hp hd] at h
      injection h with h
      subst h
      exact ⟨rfl, ErrKind.illegalCmd.code_ne_zero⟩

end Sys2Proof.Machine

/-! SUPPORT. Proofs of the statements about reset (`70_reset_and_hazards.md`): what the reset event leaves (R230) and how
each command ends right after reset (R232). -/

namespace Sys2Proof.Machine

/-! ### The reset event -/

@[simp] theorem State.buffer_resetBlock (s : State) (sp : Space) : s.resetBlock.buffer sp = [] := by cases sp <;> rfl

/-- A buffer nothing has been written to has no specified byte (R46). -/
theorem State.specifiedByte_of_buffer_nil {s : State} {sp : Space} (h : s.buffer sp = []) (i : Nat) :
    s.specifiedByte sp i = none := by
  rw [State.specifiedByte, h, Memory.read_nil, ite_self]

/-- A step on a reset event resets the block (R230). -/
theorem step_reset {s : State} {rest : List HostEvent} (hp : s.pending = .reset :: rest) :
    step s = .next (s.advance rest).resetBlock := step_of_pending hp

/-- Settles O44: the step ends in `resetBlock`, whose buffers are all empty. -/
theorem resetEventGivesTheResetValues : Obligations.ResetEventGivesTheResetValues := fun s rest hp =>
  ⟨(s.advance rest).resetBlock, step_reset hp, rfl, rfl, rfl, rfl, rfl, rfl, rfl, rfl, rfl, rfl, rfl, rfl, rfl, rfl, rfl, rfl,
    fun sp => State.specifiedByte_of_buffer_nil (State.buffer_resetBlock _ sp)⟩

/-! ### The commands right after reset -/

/-- A frame too short for its first two bytes fails the length decode (R136). -/
theorem decodeLen_of_short {fb : List Byte} (h : fb.length < 2) : decodeLen fb = .error .malformedFrame :=
  (decodeLen_error_iff fb _).mpr ⟨rfl, .inl h⟩

/-- Settles O45: after reset the frame is empty, no header is latched and no key is present, so each command but CLEAR_ACC
fails at its first check; the flags it would clear are 0 already. -/
theorem commandsRightAfterReset : Obligations.CommandsRightAfterReset := by
  have hlen : decodeLen State.reset.frame = .error .malformedFrame := decodeLen_of_short (by decide)
  have hhdr : parseHdr State.reset.frame = .error .malformedFrame := parseHdr_of_decodeLen_error hlen
  have hlatch : State.reset.flag .hdrValid = false := rfl
  have hkey : State.reset.keyPresent = 0 := rfl
  obtain ⟨_, hclear, rfl, -⟩ := clearAccFollowsItsRule State.reset
  exact ⟨rfl, rfl, rfl, rfl, rfl, rfl, rfl, rfl, rfl, rfl, rfl, rfl, rfl, rfl, rfl, rfl,
    exec_decodeLen_error hlen, exec_parseHeader_error hhdr, exec_ingest_short hhdr, exec_unmask_noHeader hlatch,
    exec_deriveAccept_failKey (.inl hkey), hclear⟩

end Sys2Proof.Machine

/-! SUPPORT. Proofs of the statements about values and single states: the command word in both directions (R83, R84), `BE`
(R13), SHA-1's padding (R102), base64 (R108, R109), the widths of R9, and the invariant at reset and after a step (R45). -/

namespace Sys2Proof.Machine

/-! ### The command word -/

theorem cmdWordWf_iff (w : Byte) : cmdWordWf w = true ↔ 1 ≤ w.toNat ∧ w.toNat ≤ 6 := by
  have hrsvd := cmdRsvd_eq_zero_iff w
  have hop := cmdOp_toNat w
  unfold cmdRsvd at hrsvd
  unfold cmdOp at hop
  simp only [cmdWordWf, Bool.and_eq_true, beq_iff_eq, decide_eq_true_eq, hrsvd, hop]
  omega

/-- Settles O2: in each case of `decode_cases` a word is a command's encoding and well formed, or neither. -/
theorem decodeInvertsEncode : Obligations.DecodeInvertsEncode := by
  have herr {w : Byte} {e : CmdReject} (hd : decode w = .error e) : ¬∃ i, decode w = .ok i := by rw [hd]; simp
  refine ⟨fun i _ => by cases i <;> rfl, fun w i h => ?_, fun w => (cmdWordWf_iff w).trans ?_⟩
  · rcases decode_cases w with ⟨-, hd⟩ | ⟨-, hd⟩ | ⟨-, -, hd⟩ | ⟨j, rfl, hd⟩
    · exact absurd ⟨i, h⟩ (herr hd)
    · exact absurd ⟨i, h⟩ (herr hd)
    · exact absurd ⟨i, h⟩ (herr hd)
    · rw [Except.ok.inj (hd.symm.trans h)]
  · rcases decode_cases w with ⟨hw, hd⟩ | ⟨rfl, hd⟩ | ⟨hw, -, hd⟩ | ⟨i, rfl, hd⟩
    · exact iff_of_false (by omega) (herr hd)
    · exact iff_of_false (by decide) (herr hd)
    · exact iff_of_false (by omega) (herr hd)
    · exact iff_of_true (by cases i <;> decide) ⟨i, hd⟩

/-! ### Big-endian values -/

/-- Settles O55: the first byte of a sequence weighs 256 to the number of the others. -/
theorem bigEndianIsThePowerSum : Obligations.BigEndianIsThePowerSum := by
  refine ⟨fun bs => ?_, be_beBytes_mod⟩
  induction bs with
  | nil => rfl
  | cons b bs ih =>
    rw [be_cons, ih, List.length_cons, List.range_succ_eq_map, List.map_cons, List.sum_cons, List.map_map]
    congr 3
    funext k
    simp only [Function.comp_apply]
    congr 2
    omega

/-! ### SHA-1's padding -/

/-- Settles O18: `z` is the distance from 56 modulo 64. -/
theorem sha1PaddingIsTheLeast : Obligations.Sha1PaddingIsTheLeast := by
  intro m
  refine ⟨sha1Zeros m.length, beBytes 8 (sha1LengthField m.length).toNat, rfl, length_beBytes _ _, ?_, fun y hy => ?_,
    fun hlen => ?_, length_sha1Pad_mod m⟩
  · unfold sha1Zeros
    omega
  · unfold sha1Zeros at hy
    omega
  · rw [be_beBytes_mod, sha1LengthField, if_pos hlen, BitVec.toNat_ofNat]
    omega

/-! ### Base64 loses nothing -/

/-- The 6-bit value of a character of the alphabet (R108). -/
def sextet (c : Byte) : Nat :=
  if c = 0x2B then 62
  else if c = 0x2F then 63
  else if c.toNat < 0x41 then c.toNat - 0x30 + 52
  else if c.toNat < 0x61 then c.toNat - 0x41
  else c.toNat - 0x61 + 26

theorem sextet_alpha (v : BitVec 6) : sextet (alpha v) = v.toNat := by
  revert v
  decide

theorem alpha_ne_padChar (v : BitVec 6) : alpha v ≠ padChar := by
  revert v
  decide

/-- The bytes of a base64 text: three from each group, fewer from one with pad characters (R109). -/
def base64Bytes : List Byte → List Byte
  | c0 :: c1 :: c2 :: c3 :: r =>
    let b0 := BitVec.ofNat 8 (sextet c0 * 4 + sextet c1 / 16)
    let b1 := BitVec.ofNat 8 (sextet c1 * 16 + sextet c2 / 4)
    let b2 := BitVec.ofNat 8 (sextet c2 * 64 + sextet c3)
    if c2 = padChar then [b0] else if c3 = padChar then [b0, b1] else b0 :: b1 :: b2 :: base64Bytes r
  | _ => []

theorem base64Bytes_base64 (d : List Byte) : base64Bytes (base64 d) = d := by
  induction d using base64.induct with
  | case1 => rfl
  | case2 g0 =>
    obtain ⟨c0, c1, c2, c3, hsum, hg⟩ := base64Group_digits g0 0 0
    have h0 : BitVec.ofNat 8 (c0.toNat * 4 + c1.toNat / 16) = g0 := by bv_omega
    rw [base64_single, hg]
    simp [base64Bytes, sextet_alpha, h0]
  | case3 g0 g1 =>
    obtain ⟨c0, c1, c2, c3, hsum, hg⟩ := base64Group_digits g0 g1 0
    have h0 : BitVec.ofNat 8 (c0.toNat * 4 + c1.toNat / 16) = g0 := by bv_omega
    have h1 : BitVec.ofNat 8 (c1.toNat * 16 + c2.toNat / 4) = g1 := by bv_omega
    rw [base64_pair, hg]
    simp [base64Bytes, sextet_alpha, alpha_ne_padChar, h0, h1]
  | case4 g0 g1 g2 r ih =>
    obtain ⟨c0, c1, c2, c3, hsum, hg⟩ := base64Group_digits g0 g1 g2
    have h0 : BitVec.ofNat 8 (c0.toNat * 4 + c1.toNat / 16) = g0 := by bv_omega
    have h1 : BitVec.ofNat 8 (c1.toNat * 16 + c2.toNat / 4) = g1 := by bv_omega
    have h2 : BitVec.ofNat 8 (c2.toNat * 64 + c3.toNat) = g2 := by bv_omega
    rw [base64_cons3, hg]
    simp [base64Bytes, sextet_alpha, alpha_ne_padChar, h0, h1, h2, ih]

/-- Four characters for every three bytes begun (R109). -/
theorem length_base64 (d : List Byte) : (base64 d).length = 4 * ((d.length + 2) / 3) := by
  induction d using base64.induct with
  | case1 => rfl
  | case2 g0 => simp [base64_single]
  | case3 g0 g1 => simp [base64_pair]
  | case4 g0 g1 g2 r ih =>
    simp only [base64_cons3, List.length_append, length_base64Group, ih, List.length_cons]
    omega

/-- Settles O21: the text gives the bytes back. -/
theorem base64IsInjective : Obligations.Base64IsInjective :=
  ⟨fun _ _ h => Function.LeftInverse.injective base64Bytes_base64 h, length_base64⟩

/-! ### The invariant, at reset and after a step -/

/-- Settles O49: the reset state of any parameters, whatever its number in a system. -/
theorem invariantHoldsAtReset : Obligations.InvariantHoldsAtReset := by
  have hconfig : Config.params.ok := ⟨Nat.le_add_left .., Nat.le_add_left ..⟩
  refine ⟨State.Inv.resetWith hconfig, fun p => State.Inv.resetWith, fun ps hps s hs => ?_⟩
  obtain ⟨k, hk, rfl⟩ := List.mem_mapIdx.mp hs
  exact { State.Inv.resetWith (hps _ (List.getElem_mem hk)) with }

/-- Settles O50: `step_inv`, which goes through the effects of host events and commands. -/
theorem everyStepKeepsTheInvariant : Obligations.EveryStepKeepsTheInvariant := fun _ _ => step_inv

/-! ### The widths of the length registers -/

/-- The number of bits of R9 is the least that holds every value up to a capacity. -/
theorem lt_two_pow_iff_clog (c w : Nat) : c < 2 ^ w ↔ Nat.clog 2 (c + 1) ≤ w := by
  rw [Nat.clog_le_iff_le_pow (by decide), Nat.succ_le_iff]

/-- Settles O52: the lengths are bounded by the capacities, which the widths hold. -/
theorem lengthRegistersFitTheirWidths : Obligations.LengthRegistersFitTheirWidths := by
  intro s h
  have hcap (c : Nat) : c < 2 ^ Nat.clog 2 (c + 1) := (lt_two_pow_iff_clog c _).mpr le_rfl
  have hout : s.outLen ≤ s.params.fbCap := h.outLen_le.trans (Nat.sub_le ..)
  exact ⟨h.fbLen_le.trans_lt (hcap _), hout.trans_lt (hcap _), h.accLen_le.trans_lt (hcap _),
    h.keyLen_le.trans_lt (hcap _), fun w => ⟨lt_two_pow_iff_clog _ w, lt_two_pow_iff_clog _ w, lt_two_pow_iff_clog _ w⟩⟩

end Sys2Proof.Machine

/-! SUPPORT. Proofs of the statements about the host's accesses (`20_memory.md`): what a step leaves unchanged and when it
completes (R60, R63, R64), commands issued (R21), byte writes (R37, R40, R52), reads (R20, R46, R60), and the programs FRAME
and KEY (R88). -/

namespace Sys2Proof.Machine

/-! ### What a step leaves unchanged -/

/-- Settles O13: the effect of any other event changes one of the listed fields. -/
theorem onlyCommandsAndResetWriteResults : Obligations.OnlyCommandsAndResetWriteResults := by
  intro s t e rest hp h hreset hcmd
  have he := hostEvent_cases ((step_of_pending hp).symm.trans h)
  cases he with
  | read _ _ _ _ hu => rcases hu with rfl | rfl <;> rfl
  | ignored | fbLen | keyLen => rfl
  | keyPresent v => rcases (s.advance rest).countWrite.fit_snd 1 v with hf | hf <;> rw [hf] <;> rfl
  | storeFb _ v | storeKey _ v => rcases (s.advance rest).countWrite.fit_snd 8 v with hf | hf <;> rw [hf] <;> rfl
  | illegal v | command v => exact absurd rfl (hcmd v)
  | reset => exact absurd rfl hreset

/-- What no event changes of the model's own fields: the parameters, the block's number in a system and the queue behind
the event; the record only grows (log 2, log 3, log 12, log 18). -/
structure HostFrame (s t : State) : Prop where
  params : t.params = s.params
  inst : t.inst = s.inst
  pending : t.pending = s.pending
  observed : s.observed <:+ t.observed

theorem exec_hostFrame {i : Instr} {s t : State} (h : exec i s = .next t) : HostFrame s t := by
  cases exec_cases h <;> exact ⟨rfl, rfl, rfl, List.suffix_rfl⟩

theorem HostFrame.trans {s t u : State} (h : HostFrame s t) (h' : HostFrame t u) : HostFrame s u :=
  ⟨h'.params.trans h.params, h'.inst.trans h.inst, h'.pending.trans h.pending, h.observed.trans h'.observed⟩

theorem State.hostFrame_fit (s : State) (n v : Nat) : HostFrame s (s.countWrite.fit n v).2 := by
  rcases s.countWrite.fit_snd n v with h | h <;> rw [h] <;> exact ⟨rfl, rfl, rfl, List.suffix_rfl⟩

theorem HostEffect.hostFrame {s t : State} {e : HostEvent} (h : HostEffect s e t) : HostFrame s t := by
  cases h with
  | read _ _ _ u hu => rcases hu with rfl | rfl <;> exact ⟨rfl, rfl, rfl, List.suffix_cons ..⟩
  | ignored | fbLen | keyLen | reset => exact ⟨rfl, rfl, rfl, List.suffix_rfl⟩
  | keyPresent v => exact { s.hostFrame_fit 1 v with }
  | storeFb _ v | storeKey _ v | illegal v => exact { s.hostFrame_fit 8 v with }
  | command v i _ _ ht =>
    refine HostFrame.trans ?_ (exec_hostFrame ht)
    exact { s.hostFrame_fit 8 v with }

theorem issue_next (w : Byte) (s : State) : ∃ t, issue w s = .next t := by
  unfold issue
  split
  · exact exec_next _ _
  · exact ⟨_, rfl⟩

theorem hostWriteReg_next (i v : Nat) (s : State) : ∃ t, hostWriteReg i v s = .next t := by
  unfold hostWriteReg
  cases Reg.ofIndex i with
  | none => exact ⟨_, rfl⟩
  | some r =>
    cases r with
    | cmd => exact issue_next _ _
    | _ => exact ⟨_, rfl⟩

/-- Every event but a second agent's answers a next state (R62, R208). -/
theorem hostEvent_next {e : HostEvent} (h : e ≠ .secondAgent) (s : State) : ∃ t, hostEvent e s = .next t := by
  cases e with
  | secondAgent => exact absurd rfl h
  | reset => exact ⟨_, rfl⟩
  | access a =>
    cases a with
    | read sp i => exact ⟨_, rfl⟩
    | write sp i v =>
      cases sp with
      | reg => exact hostWriteReg_next i v s.countWrite
      | _ => exact ⟨_, rfl⟩

/-- Settles O46: the step on an empty queue. -/
theorem idleBlockKeepsItsState : Obligations.IdleBlockKeepsItsState := by
  intro s hp
  rw [step, stepPending, hp]

/-- A step takes the oldest event off the queue, if it is no second agent's (R63, R64). -/
theorem step_next {s : State} (h : ∀ rest, s.pending ≠ .secondAgent :: rest) :
    ∃ t, step s = .next t ∧ HostFrame (s.advance s.pending.tail) t := by
  cases hp : s.pending with
  | nil => exact ⟨s, idleBlockKeepsItsState s hp, rfl, rfl, hp, List.suffix_rfl⟩
  | cons e rest =>
    obtain ⟨t, ht⟩ := hostEvent_next (fun he => h rest (he ▸ hp)) (s.advance rest)
    exact ⟨t, (step_of_pending hp).trans ht, (hostEvent_cases ht).hostFrame⟩

/-- Settles O47: the refusal of a second agent's event, and `step_next` for every other. -/
theorem everyStepCompletesUnlessASecondAgentDrives : Obligations.EveryStepCompletesUnlessASecondAgentDrives := by
  refine fun s => ⟨fun ⟨rest, hp⟩ => step_of_pending hp, fun h => ?_⟩
  obtain ⟨t, ht, hframe⟩ := step_next h
  exact ⟨t, ht, hframe.params, hframe.inst⟩

/-- Settles O48: a step takes one event off the queue and leaves no second agent in it. -/
theorem oneAgentRunsComplete : Obligations.OneAgentRunsComplete := by
  intro n
  induction n with
  | zero => exact fun s _ => ⟨s, rfl, rfl, List.suffix_rfl⟩
  | succ n ih =>
    intro s hone
    obtain ⟨u, hu, hframe⟩ := step_next (s := s) fun rest hp => hone (by simp [hp])
    have hpending : u.pending = s.pending.tail := hframe.pending
    obtain ⟨t, ht, hdrop, hobs⟩ := ih u fun hmem => hone (List.mem_of_mem_tail (hpending ▸ hmem))
    refine ⟨t, (run_succ_of_next hu).trans ht, ?_, hframe.observed.trans hobs⟩
    rw [hdrop, hpending, List.drop_tail]

/-- Settles O53: the list has only its entry `k` set. -/
theorem instancesDoNotInterfere : Obligations.InstancesDoNotInterfere := by
  intro sys sys' k h
  unfold systemStep at h
  cases hk : sys[k]? with
  | none =>
    simp only [hk] at h
    cases h
    exact ⟨fun _ _ => rfl, rfl, fun s hs => by simp at hs⟩
  | some s =>
    simp only [hk] at h
    cases hs : step s with
    | next t =>
      simp only [hs] at h
      cases h
      refine ⟨fun j hj => List.getElem?_set_ne hj.symm, List.length_set .., fun s' hs' => ?_⟩
      obtain rfl : s = s' := by simpa [hk] using hs'
      exact ⟨t, hs, List.getElem?_set_self (List.getElem?_eq_some_iff.mp hk).1⟩
    | fault r => simp [hs] at h
    | refused r => simp [hs] at h

/-! ### Runs -/

/-- The first step of a run that answers a state. -/
theorem run_succ_next {n : Nat} {s t : State} (h : Sys2Proof.core.run (n + 1) s = .next t) :
    ∃ u, step s = .next u ∧ Sys2Proof.core.run n u = .next t := by
  rw [run_succ] at h
  cases hs : step s with
  | next u => rw [hs] at h; exact ⟨u, rfl, h⟩
  | fault r => rw [hs] at h; cases h
  | refused r => rw [hs] at h; cases h

theorem run_add {m n : Nat} {s t : State} (h : Sys2Proof.core.run m s = .next t) :
    Sys2Proof.core.run (m + n) s = Sys2Proof.core.run n t := by
  induction m generalizing s with
  | zero => cases h; rw [Nat.zero_add]
  | succ m ih =>
    obtain ⟨u, hu, hrun⟩ := run_succ_next h
    rw [Nat.add_right_comm, run_succ_of_next hu, ih hrun]

/-! ### Issued commands -/

theorem step_of_decode_ok {s : State} {rest : List HostEvent} {w : Byte} {i : Instr}
    (hp : s.pending = .access (.write .reg 0 w.toNat) :: rest) (hd : decode w = .ok i) :
    step s = exec i { s with pending := rest, cmd := w, writes := s.writes + 1 } := by
  rw [step_writeReg hp, hostWriteReg_cmd, issue, hd]
  rfl

/-- Settles O3: the written word is a byte, and issuing it runs the command it decodes to. -/
theorem stepRunsTheDecodedCommand : Obligations.StepRunsTheDecodedCommand := fun _ _ _ _ => step_of_decode_ok

/-! ### Host writes of bytes -/

theorem step_writeByte {s : State} {rest : List HostEvent} {sp : Space} {i v : Nat} (hsp : sp ≠ .reg)
    (hp : s.pending = .access (.write sp i v) :: rest) :
    step s = .next ((s.advance rest).countWrite.hostStore sp i v) := by
  rw [step_of_pending hp]
  cases sp with
  | reg => exact absurd rfl hsp
  | fb | out | acc | key | tok => rfl

theorem State.hostStore_fb {s : State} {i : Nat} (h : i < s.params.fbCap) (b : Byte) :
    s.hostStore .fb i b.toNat = s.storeFb i b := by
  simp [State.hostStore, h]

theorem State.hostStore_key {s : State} {i : Nat} (h : i < s.params.keyCap) (b : Byte) :
    s.hostStore .key i b.toNat = s.storeKey i b := by
  simp [State.hostStore, h]

/-- Settles O9: the store below the size, and the check that ignores it from the size on. -/
theorem hostByteWritesStoreOneByte : Obligations.HostByteWritesStoreOneByte := by
  refine fun s rest i b => ⟨fun hp h => ?_, fun hp h => ?_, fun v hp h => ?_, fun v hp h => ?_⟩
  · have hstore := State.hostStore_fb (s := (s.advance rest).countWrite) h b
    exact ⟨_, (step_writeByte (by decide) hp).trans (congrArg _ hstore), fun a => Memory.read_write s.fb i a b, rfl⟩
  · have hstore := State.hostStore_key (s := (s.advance rest).countWrite) h b
    exact ⟨_, (step_writeByte (by decide) hp).trans (congrArg _ hstore), fun a => Memory.read_write s.key i a b, rfl⟩
  · exact (step_writeByte (by decide) hp).trans (congrArg _ (if_neg (Nat.not_lt.mpr h)))
  · exact (step_writeByte (by decide) hp).trans (congrArg _ (if_neg (Nat.not_lt.mpr h)))

/-- Settles O10: the store ignores the three spaces. -/
theorem writesToReadOnlyBuffersAreIgnored : Obligations.WritesToReadOnlyBuffersAreIgnored := by
  intro s rest sp i v hsp hp
  rcases hsp with rfl | rfl | rfl <;> exact step_writeByte (by decide) hp

/-! ### Host reads -/

/-- A state with another queue, record and draw counter: what reads change (R36, R60). -/
def State.recorded (pending : List HostEvent) (observed : List Observation) (draws : Nat) (s : State) : State :=
  { s with pending := pending, observed := observed, draws := draws }

section
variable (s : State) (pending : List HostEvent) (observed : List Observation) (draws : Nat) (sp : Space) (i : Nat)

theorem State.regRead_recorded : (s.recorded pending observed draws).regRead i = s.regRead i := by
  unfold State.regRead
  cases Reg.ofIndex i with
  | none => rfl
  | some r => cases r <;> rfl

theorem State.heldByte_recorded : (s.recorded pending observed draws).heldByte sp i = s.heldByte sp i := by
  cases sp <;> rfl

end

/-- The packed key is the big-endian value of its four bytes (R31, R57). -/
theorem MaskKey.packed_toNat (k : MaskKey) :
    k.packed.toNat = k.k0.toNat * 2 ^ 24 + k.k1.toNat * 2 ^ 16 + k.k2.toNat * 2 ^ 8 + k.k3.toNat := by
  simp only [MaskKey.packed, toNat_append_eq]
  omega

/-- Settles O6: the recorded value is `regRead`, which is the register at each index. -/
theorem registerReadsReturnTheirRegister : Obligations.RegisterReadsReturnTheirRegister := by
  intro s rest i _ hp
  refine ⟨s.regRead i, ?_, ?_⟩
  · rw [step_read hp, ← s.regRead_recorded rest s.observed s.draws i]
    rfl
  · simp +contextual [State.regRead, Reg.ofIndex, State.regValue, MaskKey.packed_toNat]

section
variable {s : State} {sp : Space} {i : Nat} {b : Byte}

/-- A written byte that the rules specify is held (R37 to R41). -/
theorem State.heldByte_of_valid (hi : i < sp.size s.params) (hv : i < s.validTo sp) (hb : (s.buffer sp).read i = some b) :
    s.heldByte sp i = some b := by
  simp [State.heldByte, hi, hv, hb]

/-- Past the length a free value is held in place of a written byte (R38, R39). -/
theorem State.heldByte_of_stale (hi : i < sp.size s.params) (hv : s.validTo sp ≤ i) (hb : (s.buffer sp).read i ≠ none) :
    s.heldByte sp i = some (Config.staleByte s.inst s.writes sp i) := by
  obtain ⟨b, hb⟩ := Option.ne_none_iff_exists'.mp hb
  simp [State.heldByte, hi, hv, hb]

/-- Past the size, or where nothing has been written, no byte is held (R46, R52). -/
theorem State.heldByte_eq_none (h : sp.size s.params ≤ i ∨ (s.buffer sp).read i = none) : s.heldByte sp i = none := by
  unfold State.heldByte
  rcases h with h | h
  · exact if_neg (Nat.not_lt.mpr h)
  · simp [h]

theorem State.hostRead_of_heldByte (hsp : sp ≠ .reg) (h : s.heldByte sp i = some b) :
    s.hostRead sp i = s.observe sp i b.toNat := by
  cases sp with
  | reg => exact absurd rfl hsp
  | fb | out | acc | key | tok => simp [State.hostRead, h]

theorem State.hostRead_of_heldByte_none (hsp : sp ≠ .reg) (h : s.heldByte sp i = none) :
    s.hostRead sp i = s.draw.2.observe sp i s.draw.1.toNat := by
  cases sp with
  | reg => exact absurd rfl hsp
  | fb | out | acc | key | tok => simp [State.hostRead, h]

theorem step_read_of_heldByte {rest : List HostEvent} (hsp : sp ≠ .reg) (hp : s.pending = .access (.read sp i) :: rest)
    (h : s.heldByte sp i = some b) :
    step s = .next { s with pending := rest, observed := ⟨sp, i, b.toNat⟩ :: s.observed } := by
  have hheld : (s.advance rest).heldByte sp i = some b := (s.heldByte_recorded rest s.observed s.draws sp i).trans h
  rw [step_read hp, State.hostRead_of_heldByte hsp hheld]
  rfl

theorem step_read_of_heldByte_none {rest : List HostEvent} (hsp : sp ≠ .reg)
    (hp : s.pending = .access (.read sp i) :: rest) (h : s.heldByte sp i = none) :
    step s = .next { s with
      pending := rest, draws := s.draws + 1,
      observed := ⟨sp, i, (Config.freeByte s.inst s.draws).toNat⟩ :: s.observed } := by
  have hheld : (s.advance rest).heldByte sp i = none := (s.heldByte_recorded rest s.observed s.draws sp i).trans h
  rw [step_read hp, State.hostRead_of_heldByte_none hsp hheld]
  rfl

end

/-- Settles O11: space by space, a read is of a specified byte, of a stale one, or of none. -/
theorem hostByteReadsReturnStoredOrFreeBytes : Obligations.HostByteReadsReturnStoredOrFreeBytes := by
  intro s rest sp i hsp hp
  refine ⟨fun b h => step_read_of_heldByte hsp hp ?_, fun h => step_read_of_heldByte hsp hp ?_,
    fun h => step_read_of_heldByte_none hsp hp ?_⟩
  · rcases h with ⟨rfl, hi, hb⟩ | ⟨rfl, hi, hb⟩ | ⟨rfl, hi, hv, hb⟩ | ⟨rfl, hi, hv, hb⟩ | ⟨rfl, hi, hb⟩
    · exact State.heldByte_of_valid hi hi hb
    · exact State.heldByte_of_valid hi hi hb
    · exact State.heldByte_of_valid hi hv hb
    · exact State.heldByte_of_valid hi hv hb
    · exact State.heldByte_of_valid hi hi hb
  · rcases h with ⟨rfl, hi, hv, hb⟩ | ⟨rfl, hi, hv, hb⟩ <;> exact State.heldByte_of_stale hi hv hb
  · rcases h with ⟨rfl, h⟩ | ⟨rfl, h⟩ | ⟨rfl, h⟩ | ⟨rfl, h⟩ | ⟨rfl, h⟩ <;> exact State.heldByte_eq_none h

/-- A read puts one value on the record and may draw (R60). -/
theorem step_read_record {s : State} {sp : Space} {i : Nat} {rest : List HostEvent}
    (hp : s.pending = .access (.read sp i) :: rest) :
    ∃ v d, step s = .next (s.recorded rest (⟨sp, i, v⟩ :: s.observed) d) := by
  have h := hostEvent_cases (e := .access (.read sp i)) (s := s.advance rest) rfl
  rw [step_read hp]
  generalize (s.advance rest).hostRead sp i = t at h ⊢
  cases h with
  | read _ _ v _ hu => rcases hu with rfl | rfl <;> exact ⟨v, _, rfl⟩

/-- A run over reads adds to the record and draws (R60). -/
theorem run_reads {es rest : List HostEvent} (hes : ∀ e ∈ es, ∃ sp i, e = .access (.read sp i)) {s : State}
    (hp : s.pending = es ++ rest) :
    ∃ between d, between.length = es.length ∧
      Sys2Proof.core.run es.length s = .next (s.recorded rest (between ++ s.observed) d) := by
  induction es generalizing s with
  | nil =>
    obtain rfl : s.pending = rest := hp
    exact ⟨[], s.draws, rfl, rfl⟩
  | cons e es ih =>
    obtain ⟨⟨sp, i, rfl⟩, htail⟩ := List.forall_mem_cons.mp hes
    obtain ⟨v, d, hread⟩ := step_read_record hp
    obtain ⟨between, d', hlen, hrun⟩ := ih htail (s := s.recorded (es ++ rest) (⟨sp, i, v⟩ :: s.observed) d) rfl
    refine ⟨between ++ [⟨sp, i, v⟩], d', by simp [hlen], (run_succ_of_next hread).trans (hrun.trans ?_)⟩
    simp [State.recorded]

/-- A read of a register or of a written byte inside its buffer records a value that the queue, the record and the draws do
not change (R60). -/
theorem step_read_same {s : State} {sp : Space} {i : Nat}
    (h : sp = .reg ∨ (i < sp.size s.params ∧ (s.buffer sp).read i ≠ none)) :
    ∃ v, ∀ rest observed draws, step (s.recorded (.access (.read sp i) :: rest) observed draws) =
      .next (s.recorded rest (⟨sp, i, v⟩ :: observed) draws) := by
  rcases h with rfl | ⟨hi, hb⟩
  · refine ⟨s.regRead i, fun rest observed draws => ?_⟩
    rw [step_read rfl, ← s.regRead_recorded rest observed draws i]
    rfl
  · have hsp : sp ≠ .reg := by rintro rfl; exact hb rfl
    obtain ⟨b, hb⟩ := Option.ne_none_iff_exists'.mp hb
    obtain ⟨b, hheld⟩ : ∃ b, s.heldByte sp i = some b := by simp [State.heldByte, hi, hb]
    exact ⟨b.toNat, fun rest observed draws =>
      step_read_of_heldByte hsp rfl ((s.heldByte_recorded _ observed draws sp i).trans hheld)⟩

/-- Settles O12: the reads in between change nothing the value depends on. -/
theorem hostReadsAreIdempotent : Obligations.HostReadsAreIdempotent := by
  intro s mid rest sp i hp hmid hheld
  obtain ⟨v, hread⟩ := step_read_same hheld
  have hfirst := hread (mid ++ .access (.read sp i) :: rest) s.observed s.draws
  rw [← hp] at hfirst
  obtain ⟨between, d, hlen, hrun⟩ := run_reads hmid
    (s := s.recorded (mid ++ .access (.read sp i) :: rest) (⟨sp, i, v⟩ :: s.observed) s.draws) rfl
  have hlast := hread rest (between ++ ⟨sp, i, v⟩ :: s.observed) d
  exact ⟨_, v, between, (run_succ_of_next hfirst).trans ((run_add hrun).trans (run_succ_of_next (n := 0) hlast)), hlen,
    rfl, rfl⟩

/-! ### The programs FRAME and KEY -/

/-- `WRB` as the model's single writes, in its order (R87). -/
def State.storeBytes (sp : Space) : Nat → List Byte → State → State
  | _, [], s => s
  | j, b :: bs, s => (s.countWrite.hostStore sp j b.toNat).storeBytes sp (j + 1) bs

theorem State.hostStore_advance (s : State) (sp : Space) (i : Nat) (b : Byte) (rest : List HostEvent) :
    (s.hostStore sp i b.toNat).advance rest = (s.advance rest).hostStore sp i b.toNat := by
  cases sp with
  | fb | key => simp only [State.hostStore, State.fit_toNat, State.advance_params]; split <;> rfl
  | reg | out | acc | tok => rfl

theorem State.hostStore_pending (s : State) (sp : Space) (i : Nat) (b : Byte) :
    (s.hostStore sp i b.toNat).pending = s.pending := by
  cases sp with
  | fb | key => simp only [State.hostStore, State.fit_toNat]; split <;> rfl
  | reg | out | acc | tok => rfl

/-- A run over the writes of `WRB` stores the bytes (R87). -/
theorem run_writeBytesAccesses {sp : Space} (hsp : sp ≠ .reg) {s : State} {j : Nat} {bs : List Byte}
    {rest : List HostEvent} (hp : s.pending = (writeBytesAccesses sp j bs).map .access ++ rest) :
    Sys2Proof.core.run bs.length s = .next ((s.advance rest).storeBytes sp j bs) := by
  induction bs generalizing s j with
  | nil => obtain rfl : s.pending = rest := hp; rfl
  | cons b bs ih =>
    rw [List.length_cons, run_succ_of_next (step_writeByte hsp hp), ih, State.hostStore_advance]
    · rfl
    · rw [State.hostStore_pending]; rfl

/-- Bytes stored inside FB (R37). -/
theorem State.storeBytes_fb {s : State} {j : Nat} {bs : List Byte} (h : j + bs.length ≤ s.params.fbCap) :
    s.storeBytes .fb j bs = { s with fb := s.fb.writeBytes j bs, writes := s.writes + bs.length } := by
  induction bs generalizing s j with
  | nil => rfl
  | cons b bs ih =>
    simp only [List.length_cons] at h
    rw [State.storeBytes, State.hostStore_fb (by simp; omega), ih (by simp; omega)]
    simp [State.storeFb, State.countWrite, Memory.writeBytes, Nat.add_assoc, Nat.add_comm 1]

/-- Bytes stored inside KEY (R40). -/
theorem State.storeBytes_key {s : State} {j : Nat} {bs : List Byte} (h : j + bs.length ≤ s.params.keyCap) :
    s.storeBytes .key j bs = { s with key := s.key.writeBytes j bs, writes := s.writes + bs.length } := by
  induction bs generalizing s j with
  | nil => rfl
  | cons b bs ih =>
    simp only [List.length_cons] at h
    rw [State.storeBytes, State.hostStore_key (by simp; omega), ih (by simp; omega)]
    simp [State.storeKey, State.countWrite, Memory.writeBytes, Nat.add_assoc, Nat.add_comm 1]

theorem step_writeFbLen {s : State} {v : Nat} {rest : List HostEvent} (h : v ≤ s.params.fbCap)
    (hp : s.pending = .access (.write .reg 3 v) :: rest) :
    step s = .next { s with pending := rest, fbLen := v, writes := s.writes + 1 } := by
  rw [step_writeReg hp]
  simp [hostWriteReg, Reg.ofIndex, State.setFbLen, State.countWrite, State.advance, h]

theorem step_writeKeyLen {s : State} {v : Nat} {rest : List HostEvent} (h : v ≤ s.params.keyCap)
    (hp : s.pending = .access (.write .reg 14 v) :: rest) :
    step s = .next { s with pending := rest, keyLen := v, writes := s.writes + 1 } := by
  rw [step_writeReg hp]
  simp [hostWriteReg, Reg.ofIndex, State.setKeyLen, State.countWrite, State.advance, h]

theorem step_writeKeyPresent {s : State} {rest : List HostEvent} (hp : s.pending = .access (.write .reg 15 1) :: rest) :
    step s = .next { s with pending := rest, keyPresent := 1, writes := s.writes + 1 } := by
  rw [step_writeReg hp]
  rfl

/-- What the accesses of `FRAME` leave (R88). -/
theorem run_frame {s : State} {bs : List Byte} {rest : List HostEvent}
    (hp : s.pending = (programAccesses [.frame bs]).map .access ++ rest) (h : bs.length ≤ s.params.fbCap) :
    Sys2Proof.core.run (bs.length + 1) s = .next { s with
      pending := rest, fb := s.fb.writeBytes 0 bs, fbLen := bs.length, writes := s.writes + bs.length + 1 } := by
  have hbytes := run_writeBytesAccesses (sp := .fb) (by decide) (by simpa [programAccesses, expand] using hp)
  rw [State.storeBytes_fb (by simpa using h)] at hbytes
  exact (run_add hbytes).trans (run_succ_of_next (step_writeFbLen h rfl))

/-- What the accesses of `KEY` leave (R88). -/
theorem run_key {s : State} {bs : List Byte} {rest : List HostEvent}
    (hp : s.pending = (programAccesses [.key bs]).map .access ++ rest) (h : bs.length ≤ s.params.keyCap) :
    Sys2Proof.core.run (bs.length + 2) s = .next { s with
      pending := rest, key := s.key.writeBytes 0 bs, keyLen := bs.length, keyPresent := 1,
      writes := s.writes + bs.length + 2 } := by
  have hbytes := run_writeBytesAccesses (sp := .key) (by decide) (by simpa [programAccesses, expand] using hp)
  rw [State.storeBytes_key (by simpa using h)] at hbytes
  refine (run_add hbytes).trans ((run_succ_of_next (step_writeKeyLen ?_ rfl)).trans
    (run_succ_of_next (step_writeKeyPresent rfl)))
  exact h

/-- A command reads the bytes written from index 0 of FB as the frame (R130). -/
theorem State.frame_of_writeBytes {s : State} {m : Memory} {bs : List Byte} (hfb : s.fb = m.writeBytes 0 bs)
    (hlen : s.fbLen = bs.length) : s.frame = bs := by
  refine List.ext_getElem (by simp [hlen]) fun i _ hi => ?_
  simp [State.frame, State.fbByte, hfb, Memory.read_writeBytes, hi]

/-- A command reads the bytes written from index 0 of KEY as the key (R112). -/
theorem State.keyBytes_of_writeBytes {s : State} {m : Memory} {bs : List Byte} (hkey : s.key = m.writeBytes 0 bs)
    (hlen : s.keyLen = bs.length) : s.keyBytes = bs := by
  refine List.ext_getElem (by simp [hlen]) fun i _ hi => ?_
  simp [State.keyBytes, State.keyByte, hkey, Memory.read_writeBytes, hi]

/-- Settles O56: the run over the program's accesses, and what the bytes it wrote read as. -/
theorem frameAndKeyProgramsLoadTheirBytes : Obligations.FrameAndKeyProgramsLoadTheirBytes := by
  refine fun s rest bs => ⟨fun hp h => ?_, fun hp h => ?_⟩
  · refine ⟨_, run_frame hp h, State.frame_of_writeBytes rfl rfl, fun a ha => ?_, rfl⟩
    simp [Memory.read_writeBytes, Nat.not_lt.mpr ha]
  · refine ⟨_, run_key hp h, State.keyBytes_of_writeBytes rfl rfl, fun a ha => ?_, rfl⟩
    simp [Memory.read_writeBytes, Nat.not_lt.mpr ha]

end Sys2Proof.Machine

/-! SUPPORT. Proofs of the statements about all six commands: the errors they end with (R201), their frame (R86), the flags of
STATUS (R23), what they read (R53), and UNMASK and INGEST as compositions (R162, R180, R239). -/

namespace Sys2Proof.Machine

/-! ### The error a command ends with -/

theorem exec_next_and {i : Instr} {s : State} {P : State → Prop} (h : ∀ t, exec i s = .next t → P t) :
    ∃ t, exec i s = .next t ∧ P t := by
  obtain ⟨t, ht⟩ := exec_next i s
  exact ⟨t, ht, h t ht⟩

@[simp] theorem State.ingested_err (s : State) (r : HdrInfo) : (s.ingested r).err = 0 := rfl

/-- Settles O39: the error of each end of each command. -/
theorem everyCommandEndsWithACodeItMayRaise : Obligations.EveryCommandEndsWithACodeItMayRaise := by
  intro s
  refine ⟨exec_next_and fun t h => ?_, exec_next_and fun t h => ?_, exec_next_and fun t h => ?_,
    exec_next_and fun t h => ?_, exec_next_and fun t h => ?_, exec_next_and fun t => clearAcc_err⟩
  all_goals cases exec_cases h <;> simp

/-! ### The flags of STATUS -/

/-- The flags after a successful INGEST (R181). -/
theorem State.flag_ingested (s : State) (r : HdrInfo) :
    (s.ingested r).flag .lenValid = true ∧ (s.ingested r).flag .hdrValid = true ∧
      (s.ingested r).flag .complete = (r.fin == 1) ∧ (s.ingested r).flag .tokValid = s.flag .tokValid := by
  rw [← State.ingested_val]
  simp

/-- Settles O41: the bits of the STATUS value that each end of each command gives. -/
theorem statusFlagsFollowTheirTable : Obligations.StatusFlagsFollowTheirTable := by
  intro i s t h
  cases exec_cases h with
  | noToken | token => simp +contextual
  | noLen | len => simp
  | noHdr | hdr => simp
  | noLatch | truncated | unmasked => simp
  | ingestShort | ingestTruncated | ingestOverflow => simp
  | ingested _ r =>
    obtain ⟨hlen, hhdr, hcomplete, htok⟩ := s.flag_ingested r
    have hfin : (s.ingested r).hdrFin = r.fin := rfl
    simp only [State.flag, StatusFlag.bit] at hlen hhdr hcomplete htok
    simp only [hlen, hhdr, hcomplete, htok, hfin, State.ingested_err]
    simp
  | cleared => simp +contextual

/-! ### The frame of the commands -/

/-- What the commands that start with a header latch (R137, R139, R181). -/
theorem exec_keeps_header {i : Instr} {s t : State} (h : exec i s = .next t) :
    (i ≠ .decodeLen → i ≠ .parseHeader → i ≠ .ingest →
      t.hdrB0 = s.hdrB0 ∧ t.hdrB1 = s.hdrB1 ∧ t.hdrFin = s.hdrFin ∧ t.hdrLtier = s.hdrLtier ∧ t.hdrPlen = s.hdrPlen ∧
      t.hdrMoff = s.hdrMoff) ∧
    (i ≠ .parseHeader → i ≠ .ingest → t.hdrPoff = s.hdrPoff ∧ t.mkey = s.mkey) := by
  cases exec_cases h with
  | len => exact ⟨fun hi => absurd rfl hi, fun _ _ => ⟨rfl, rfl⟩⟩
  | hdr => exact ⟨fun _ hi => absurd rfl hi, fun hi => absurd rfl hi⟩
  | ingested => exact ⟨fun _ _ hi => absurd rfl hi, fun _ hi => absurd rfl hi⟩
  | _ => exact ⟨fun _ _ _ => ⟨rfl, rfl, rfl, rfl, rfl, rfl⟩, fun _ _ => ⟨rfl, rfl⟩⟩

/-- Only a successful UNMASK or INGEST writes OUT, below the new OUT_LEN (R162, R181). -/
theorem exec_out_frame {i : Instr} {s t : State} (h : exec i s = .next t) :
    (i ≠ .unmask → i ≠ .ingest → t.outLen = s.outLen ∧ t.out = s.out) ∧
    ∀ a, t.err ≠ 0 ∨ t.outLen ≤ a → t.out.read a = s.out.read a := by
  cases exec_cases h with
  | unmasked =>
    exact ⟨fun hi => absurd rfl hi, fun a ha => s.read_writeBytes_payload_ge _ (ha.resolve_left (absurd rfl))⟩
  | ingested =>
    exact ⟨fun _ hi => absurd rfl hi, fun a ha => s.read_writeBytes_payload_ge _ (ha.resolve_left (absurd rfl))⟩
  | _ => exact ⟨fun _ _ => ⟨rfl, rfl⟩, fun _ _ => rfl⟩

/-- Only a successful INGEST writes ACC, from the old ACC_LEN to the new, and only CLEAR_ACC and it change ACC_LEN (R181,
R184). -/
theorem exec_acc_frame {i : Instr} {s t : State} (h : exec i s = .next t) :
    (i ≠ .ingest → i ≠ .clearAcc → t.accLen = s.accLen) ∧ (i ≠ .ingest → t.acc = s.acc) ∧
    ∀ a, t.err ≠ 0 ∨ a < s.accLen ∨ t.accLen ≤ a → t.acc.read a = s.acc.read a := by
  cases exec_cases h with
  | ingested =>
    exact ⟨fun hi => absurd rfl hi, fun hi => absurd rfl hi,
      fun a ha => s.read_writeBytes_payload_outside _ (ha.resolve_left (absurd rfl))⟩
  | cleared => exact ⟨fun _ hi => absurd rfl hi, fun _ => rfl, fun _ _ => rfl⟩
  | _ => exact ⟨fun _ _ => rfl, fun _ => rfl, fun _ _ => rfl⟩

/-- Only a successful DERIVE_ACCEPT writes TOK, its 28 bytes (R112). -/
theorem exec_tok_frame {i : Instr} {s t : State} (h : exec i s = .next t) :
    (i ≠ .deriveAccept → t.tok = s.tok) ∧ ∀ a, t.err ≠ 0 ∨ 28 ≤ a → t.tok.read a = s.tok.read a := by
  cases exec_cases h with
  | token _ tk _ _ htk =>
    refine ⟨fun hi => absurd rfl hi, fun a ha => ?_⟩
    have hlen : tk.length = 28 := by rw [htk, (deriveAcceptToken_shape _).1]
    have ha : 28 ≤ a := ha.resolve_left (absurd rfl)
    rw [Memory.read_writeBytes, if_neg (by omega)]
  | _ => exact ⟨fun _ => rfl, fun _ _ => rfl⟩

/-- What only the host writes, and the model's own fields (R86). -/
theorem exec_keeps_hostSide {i : Instr} {s t : State} (h : exec i s = .next t) :
    t.params = s.params ∧ t.cmd = s.cmd ∧ t.fbLen = s.fbLen ∧ t.keyLen = s.keyLen ∧ t.keyPresent = s.keyPresent ∧
    t.pending = s.pending ∧ t.observed = s.observed ∧ t.draws = s.draws ∧ t.epoch = s.epoch ∧ t.writes = s.writes ∧
    t.inst = s.inst ∧ t.fb = s.fb ∧ t.key = s.key := by
  cases exec_cases h <;> exact ⟨rfl, rfl, rfl, rfl, rfl, rfl, rfl, rfl, rfl, rfl, rfl, rfl, rfl⟩

theorem exec_unmask_status {s t : State} (h : exec .unmask s = .next t) : t.status = s.status := by
  cases exec_cases h <;> rfl

/-- Settles O42: the frames of the registers, of STATUS and of each buffer. -/
theorem commandsWriteOnlyTheirListedState : Obligations.CommandsWriteOnlyTheirListedState := by
  intro i s t h
  obtain ⟨hparams, hcmd, hfbLen, hkeyLen, hkeyPresent, hpending, hobserved, hdraws, hepoch, hwrites, hinst, hfb, hkey⟩ :=
    exec_keeps_hostSide h
  obtain ⟨-, -, -, hframe, -, -, -, hcomplete, -, htokValid, -⟩ := statusFlagsFollowTheirTable i s t h
  obtain ⟨hlatch, hlatchKey⟩ := exec_keeps_header h
  obtain ⟨hout, houtByte⟩ := exec_out_frame h
  obtain ⟨haccLen, hacc, haccByte⟩ := exec_acc_frame h
  obtain ⟨htok, htokByte⟩ := exec_tok_frame h
  refine ⟨hparams, hcmd, hfbLen, hkeyLen, hkeyPresent, hpending, hobserved, hdraws, hepoch, hwrites, hinst,
    fun a => by rw [hfb], fun a => by rw [hkey], fun hi => ?_, fun h1 h2 h3 => hframe ?_, hcomplete, htokValid, hlatch,
    hlatchKey, fun h1 h2 => ?_, houtByte, haccLen, fun hi a => by rw [hacc hi], haccByte, fun hi a => by rw [htok hi],
    htokByte⟩
  · subst hi
    exact exec_unmask_status h
  · cases i <;> simp at h1 h2 h3 ⊢
  · obtain ⟨hlen, hout⟩ := hout h1 h2
    exact ⟨hlen, fun a => by rw [hout]⟩

/-! ### What the commands read -/

/-- A state with other contents of the buffers the host writes. -/
def State.withHostBuffers (fb key : Memory) (s : State) : State := { s with fb := fb, key := key }

theorem State.frame_withHostBuffers {s : State} {fb : Memory} (key : Memory)
    (h : ∀ j < s.fbLen, fb.read j = s.fb.read j) : (s.withHostBuffers fb key).frame = s.frame :=
  State.frame_congr rfl fun j hj => by simp only [State.fbByte, State.withHostBuffers, h j hj]

theorem State.keyBytes_withHostBuffers {s : State} (fb : Memory) {key : Memory}
    (h : ∀ j < s.keyLen, key.read j = s.key.read j) : (s.withHostBuffers fb key).keyBytes = s.keyBytes :=
  State.keyBytes_congr rfl fun j hj => by simp only [State.keyByte, State.withHostBuffers, h j hj]

/-- A command reads of FB and KEY the frame and the key bytes only (R53, R86). -/
theorem exec_withHostBuffers {i : Instr} {s t : State} {fb key : Memory} (h : exec i s = .next t)
    (hf : (s.withHostBuffers fb key).frame = s.frame) (hk : (s.withHostBuffers fb key).keyBytes = s.keyBytes) :
    exec i (s.withHostBuffers fb key) = .next (t.withHostBuffers fb key) := by
  have hlen := congrArg decodeLen hf
  have hhdr := congrArg parseHdr hf
  have hutf := congrArg utf8Valid hk
  have hpay (poff plen : Nat) (mk : MaskKey) : (s.withHostBuffers fb key).payload poff plen mk = s.payload poff plen mk := by
    rw [State.payload, hf, State.payload]
  cases exec_cases h with
  | noToken _ hn => exact exec_deriveAccept_failKey (s := s.withHostBuffers fb key) (hn.imp_right hutf.trans)
  | token _ tk hp hu htk =>
    rw [exec_deriveAccept_acceptToken (s := s.withHostBuffers fb key) hp (hutf.trans hu), hk, ← htk]
    rfl
  | noLen _ hd => exact exec_decodeLen_error (hlen.trans hd)
  | len _ r hd => exact exec_decodeLen_ok (hlen.trans hd)
  | noHdr _ hr => exact exec_parseHeader_error (hhdr.trans hr)
  | hdr _ r hr => exact exec_parseHeader_ok (hhdr.trans hr)
  | noLatch _ hv => exact exec_unmask_noHeader (s := s.withHostBuffers fb key) hv
  | truncated _ hv hlt => exact exec_unmask_truncated (s := s.withHostBuffers fb key) hv hlt
  | unmasked _ hv hle => exact exec_unmask_ok (s := s.withHostBuffers fb key) hv hle (hpay ..)
  | ingestShort _ hr => exact (exec_ingest_short (hhdr.trans hr)).trans (congrArg _ (State.failFrame_val ..))
  | ingestTruncated _ r hr hlt =>
    exact (exec_ingest_truncated (hhdr.trans hr) hlt).trans (congrArg _ (State.failFrame_val ..))
  | ingestOverflow _ r hr hle ha =>
    exact (exec_ingest_overflow (hhdr.trans hr) hle ha).trans (congrArg _ (State.failFrame_val ..))
  | ingested _ r hr hle ha =>
    rw [exec_ingest_ok (hhdr.trans hr) hle ha, State.ingested, hpay]
    rfl
  | cleared => rfl

/-- Settles O43: the frame and the key bytes lie below the lengths, and the new lengths lie below the capacities. -/
theorem commandsStayInsideTheirBuffers : Obligations.CommandsStayInsideTheirBuffers := by
  refine ⟨fun i s t fb key h hfb hkey => ?_, fun i s t hs h => ⟨fun a ha => ?_, fun a ha => ?_⟩⟩
  · exact exec_withHostBuffers h (State.frame_withHostBuffers key hfb) (State.keyBytes_withHostBuffers fb hkey)
  · have hlen := (exec_inv hs h).outLen_le
    rw [(exec_hostOwned h).1] at hlen
    exact (exec_out_frame h).2 a (.inr (by omega))
  · have hlen := (exec_inv hs h).accLen_le
    rw [(exec_hostOwned h).1] at hlen
    exact (exec_acc_frame h).2.2 a (.inr (.inr (by omega)))

/-! ### UNMASK and INGEST -/

theorem Memory.read_writeBytes_twice (m : Memory) (j : Nat) (bs : List Byte) (y : Nat) :
    ((m.writeBytes j bs).writeBytes j bs).read y = (m.writeBytes j bs).read y := by
  simp only [Memory.read_writeBytes]
  split <;> rfl

/-- Settles O30: the second UNMASK fails at the same check, or writes the same bytes again. -/
theorem unmaskTwiceGivesTheSameOutput : Obligations.UnmaskTwiceGivesTheSameOutput := by
  intro s
  cases hv : s.flag .hdrValid with
  | false => exact ⟨_, _, exec_unmask_noHeader hv, exec_unmask_noHeader hv, rfl, rfl, fun _ => rfl⟩
  | true =>
    obtain h | h := Nat.lt_or_ge s.fbLen (s.hdrPoff.toNat + s.hdrPlen.toNat)
    · exact ⟨_, _, exec_unmask_truncated hv h, exec_unmask_truncated hv h, rfl, rfl, fun _ => rfl⟩
    · refine ⟨_, _, exec_unmask_ok hv h rfl, exec_unmask_ok hv h rfl, rfl, rfl, fun a => ?_⟩
      exact s.out.read_writeBytes_twice 0 _ a

/-- Settles O33: each part of INGEST is what the command alone does. -/
theorem ingestIsParseUnmaskAppend : Obligations.IngestIsParseUnmaskAppend := by
  intro s t h he
  obtain ⟨e, rfl⟩ | ⟨r, hr, hle, ha, rfl⟩ := ingest_fails_or_ingests h
  · exact absurd he e.code_ne_zero
  · refine ⟨_, _, exec_parseHeader_ok hr, exec_unmask_ok ?_ hle rfl, ?_, ?_⟩
    · simp [State.flag, StatusFlag.bit]
    · have hbits (x : BitVec 4) : x ||| 0b0011 ||| 0b0100 = x ||| 0b0111 := by revert x; decide
      simp only [State.ingested, hbits]
      rfl
    · rw [State.accBytes_ingested, ← State.outBytes_ingested]
      rfl

/-- Settles O57: UNMASK reads the latched header, and `onlyCommandsAndResetWriteResults` frames the writes. -/
theorem unmaskWithACurrentHeaderDecodesTheFrame : Obligations.UnmaskWithACurrentHeaderDecodesTheFrame := by
  refine ⟨fun s r ⟨hv, hcur⟩ hr hle => ?_, fun s t rest e he hp h => ?_⟩
  · obtain rfl : s.latched = r := Except.ok.inj (hcur.symm.trans hr)
    refine ⟨_, exec_unmask_ok hv hle rfl, rfl, ?_⟩
    refine List.map_congr_left fun i hi => ?_
    exact s.read_writeBytes_payload s.mkey hle (List.mem_range.mp hi)
  · have hframe := onlyCommandsAndResetWriteResults s t e rest hp h
      (by rcases he with ⟨i, v, rfl⟩ | ⟨v, rfl⟩ <;> simp) (by rcases he with ⟨i, v, rfl⟩ | ⟨v, rfl⟩ <;> simp)
    rw [hframe]
    exact ⟨rfl, rfl⟩

end Sys2Proof.Machine

/-! SUPPORT. Proofs of the statements about whole runs of the reassembly state machine: ACC over any run (R187), and a
client's frame loaded and ingested (R163, R181, R88). -/

namespace Sys2Proof.Machine

/-! ### The accumulator over a run -/

section
variable (s : State) (n v : Nat)

/-- The value a write delivers depends on the draws so far, not on the queue or the writes. -/
@[simp] theorem State.fit_fst_countWrite : (s.countWrite.fit n v).1 = (s.fit n v).1 := by
  unfold State.fit
  split <;> rfl

@[simp] theorem State.fit_fst_advance (rest : List HostEvent) : ((s.advance rest).fit n v).1 = (s.fit n v).1 := by
  unfold State.fit
  split <;> rfl

@[simp] theorem State.fit_accBytes : (s.fit n v).2.accBytes = s.accBytes := by
  rcases s.fit_snd n v with h | h <;> rw [h]
  rfl

/-! What INGEST would append depends on the frame, ACC_LEN and ACC_CAP only. -/

@[simp] theorem State.advance_ingestPayload (rest : List HostEvent) : (s.advance rest).ingestPayload = s.ingestPayload := rfl
@[simp] theorem State.countWrite_ingestPayload : s.countWrite.ingestPayload = s.ingestPayload := rfl
@[simp] theorem State.setCmd_ingestPayload (w : Byte) : (s.setCmd w).ingestPayload = s.ingestPayload := rfl

@[simp] theorem State.fit_ingestPayload : (s.fit n v).2.ingestPayload = s.ingestPayload := by
  rcases s.fit_snd n v with h | h <;> rw [h]
  rfl

end

/-- INGEST appends its payload to ACC; where it fails the payload is empty (R181, R187). -/
theorem accBytes_of_exec_ingest {s t : State} (h : exec .ingest s = .next t) :
    t.accBytes = s.accBytes ++ s.ingestPayload.map some := by
  cases exec_cases h with
  | ingestShort _ hr => simp [State.ingestPayload, hr, State.accBytes]
  | ingestTruncated _ r hr hlt =>
    simp [State.ingestPayload, hr, unmaskFn_error r.mkey (show s.frame.length < _ by simpa using hlt), State.accBytes]
  | ingestOverflow _ r hr hle ha =>
    simp [State.ingestPayload, hr, unmaskFn_ok r.mkey (show _ ≤ s.frame.length by simpa using hle), ha, State.accBytes]
  | ingested _ r hr hle ha => rw [State.accBytes_ingested, State.ingestPayload_of_parseHdr hr hle ha]

theorem State.issuedWord_of_ne (s : State) {sp : Space} {i : Nat} (h : sp ≠ .reg ∨ i ≠ 0) (v : Nat) :
    s.issuedWord (.access (.write sp i v)) = none := by
  unfold State.issuedWord
  split
  · next heq => cases heq; simp at h
  · rfl

/-- An access that does not write CMD leaves the message (R186). -/
theorem State.contentAfter_of_issuedWord_none {s : State} {a : HostAccess} {rest : List HostEvent}
    (hp : s.pending = .access a :: rest) (hw : s.issuedWord (.access a) = none) (c : List Byte) :
    s.contentAfter c = c := by
  simp [State.contentAfter, hp, hw]

/-- A word that is no command leaves the message (R85). -/
theorem State.contentAfter_of_decode_error {s : State} {v : Nat} {rest : List HostEvent} {r : CmdReject}
    (hp : s.pending = .access (.write .reg 0 v) :: rest) (hd : decode (s.fit 8 v).1 = .error r) (c : List Byte) :
    s.contentAfter c = c := by
  simp [State.contentAfter, hp, State.issuedWord, hd]

/-- The message after a command (R186): from ACC's contents before, the contents after. -/
theorem accBytes_of_exec {s t u : State} {v : Nat} {i : Instr} {rest : List HostEvent} {c : List Byte}
    (hp : s.pending = .access (.write .reg 0 v) :: rest) (hd : decode (s.fit 8 v).1 = .ok i) (hc : u.accBytes = c.map some)
    (hi : u.ingestPayload = s.ingestPayload) (h : exec i u = .next t) : t.accBytes = (s.contentAfter c).map some := by
  have hkeep (h1 : i ≠ .ingest) (h2 : i ≠ .clearAcc) : t.accBytes = c.map some :=
    (exec_keeps_reassembly h1 h2 h).1.trans hc
  cases i with
  | ingest => simp [State.contentAfter, hp, State.issuedWord, hd, accBytes_of_exec_ingest h, hc, hi]
  | clearAcc => cases h; simp [State.contentAfter, hp, State.issuedWord, hd, State.accBytes]
  | _ => simp [State.contentAfter, hp, State.issuedWord, hd, hkeep]

/-- One step takes ACC from the message before to the message after (R186). -/
theorem accBytes_of_step {s t : State} {c : List Byte} (hc : s.accBytes = c.map some) (h : step s = .next t) :
    t.accBytes = (s.contentAfter c).map some := by
  obtain ⟨hp, rfl⟩ | ⟨e, rest, hp, he⟩ := step_cases h
  · simpa [State.contentAfter, hp] using hc
  cases he with
  | reset => simp [State.contentAfter, hp, State.accBytes, State.resetBlock, State.resetWith]
  | read sp i v u hu =>
    rw [State.contentAfter_of_issuedWord_none hp rfl]
    rcases hu with rfl | rfl <;> exact hc
  | ignored sp i v hne => rwa [State.contentAfter_of_issuedWord_none hp (s.issuedWord_of_ne hne v)]
  | fbLen v | keyLen v => rwa [State.contentAfter_of_issuedWord_none hp rfl]
  | keyPresent v | storeFb i v hi | storeKey i v hi => simpa [State.contentAfter_of_issuedWord_none hp rfl] using hc
  | illegal v r hd => simpa [State.contentAfter_of_decode_error hp (by simpa using hd)] using hc
  | command v i _ hd ht => exact accBytes_of_exec hp (by simpa using hd) (by simpa using hc) (by simp) ht

/-- Settles O37: ACC follows the message step by step. -/
theorem accumulatorIsTheIngestedPayloads : Obligations.AccumulatorIsTheIngestedPayloads := by
  intro n
  induction n with
  | zero =>
    intro s t c hc h
    cases h
    exact hc
  | succ n ih =>
    intro s t c hc h
    obtain ⟨u, hu, hrun⟩ := run_succ_next h
    simpa [runContent, hu] using ih u t (s.contentAfter c) (accBytes_of_step hc hu) hrun

/-! ### A client's frame, loaded and ingested -/

/-- A client's frame in FB parses to its header, and the payload behind it is unmasked (R145, R163). -/
theorem State.payload_of_clientFrame {s : State} {tier : BitVec 2} {b0 : Byte} {m : Bool} {k : MaskKey} {p : List Byte}
    (hadm : tierAdmits tier p.length) (hf : s.frame = clientFrame tier b0 m k p) :
    ∃ r, parseHdr s.frame = .ok r ∧ r.poff.toNat + r.plen.toNat ≤ s.fbLen ∧ r.plen.toNat = p.length ∧ r.mkey = k ∧
      r.fin.toNat = b0.toNat / 128 ∧ s.payload r.poff.toNat r.plen.toNat r.mkey = p := by
  obtain ⟨r, hr, -, -, hfin, -, hplen, hkey, -, -, hlen⟩ :=
    wireHeaderParsesBack tier b0 m p.length k (maskBytes k p) hadm
  have hle : r.poff.toNat + r.plen.toNat ≤ s.fbLen := by
    rw [← s.length_frame, hf, clientFrame, List.length_append, hlen, length_maskBytes, hplen]
  refine ⟨r, hf ▸ hr, hle, hplen, hkey, hfin, ?_⟩
  have hun := (unmaskInvertsMask (wireHeader tier b0 m p.length k) p [] k).1
  rw [List.append_nil, ← clientFrame, ← hf, hlen, ← hplen, ← hkey, unmaskFn_ok _ (by simpa using hle)] at hun
  exact Except.ok.inj hun

/-- Settles O38: FRAME loads the frame, the word of INGEST decodes, and the loaded frame's payload is the one sent. -/
theorem loadedClientFrameIsIngested : Obligations.LoadedClientFrameIsIngested := by
  intro s rest tier b0 m k p hadm hfb hacc hp
  set f := clientFrame tier b0 m k p
  set u : State := { s with
    pending := rest, cmd := 0x05, fb := s.fb.writeBytes 0 f, fbLen := f.length, writes := s.writes + f.length + 1 + 1 }
  obtain ⟨r, hr, hle, hplen, hkey, hfin, hpay⟩ := State.payload_of_clientFrame (s := u) hadm
    (State.frame_of_writeBytes rfl rfl)
  have hload := run_frame (bs := f) (rest := .access (.write .reg 0 5) :: rest)
    (hp.trans (by simp [programAccesses, expand, Reg.index, encode])) hfb
  have hrun : Sys2Proof.core.run (f.length + 2) s = .next (u.ingested r) :=
    (run_add hload).trans (run_succ_of_next (n := 0) ((step_of_decode_ok (w := 0x05) rfl rfl).trans
      (exec_ingest_ok (s := u) hr hle (by rw [hplen]; exact hacc))))
  refine ⟨_, hrun, rfl, rfl, ?_, ?_, ?_, hkey, hplen⟩
  · rw [State.accBytes_ingested, hpay]; rfl
  · rw [State.outBytes_ingested, hpay]
  · change (u.ingested r).flag .complete = true ↔ _
    rw [State.flag_complete_ingested, beq_iff_eq, ← BitVec.toNat_inj, hfin]
    have := b0.isLt
    simp
    omega

end Sys2Proof.Machine
